-- ==== Sys2Proof/Word.lean ====
section
/-! DEFINITION. The block's octets and byte strings (`spec/00_scope.md` R10 to R13, R17). Every integer
of the block is unsigned; a field of the wire has its own width, and counts, lengths and offsets are
unbounded naturals. -/

namespace Sys2Proof

/-- One octet, bit 7 the most significant (R11). -/
abbrev Byte := BitVec 8

/-- `bytes`: a finite byte string, octet 0 first (R12, R17). Its addresses are 0 .. length-1 (R33). -/
abbrev Bytes := List Byte

end Sys2Proof
end

