-- ==== Sys2Proof/Config.lean ====
section
/-! DEFINITION. What an instance of the block fixes: the record `CFG` of `spec/00_scope.md` R8, the codec
kinds a registry entry can name, the reference registry image of R9, and the free values (opaque
constants without a body) that stand for what the spec leaves unspecified. -/

namespace Sys2Proof

/-- The five built-in codecs a registry entry can select (R31, R160). -/
inductive Kind where
  | cause | fteid | nodeId | fseid | grouped
deriving DecidableEq, Repr

/-- A non-empty registry entry: its codec kind and its display name, which affects no byte (R31). -/
structure Entry where
  kind : Kind
  name : String
deriving DecidableEq, Repr

/-- `FTEID_FLAG_POS`: the bit position, 0..3, of each F-TEID flag in octet 0 (R8, D22). -/
structure FlagPos where
  chid : Fin 4
  ch   : Fin 4
  v6   : Fin 4
  v4   : Fin 4
deriving DecidableEq, Repr

/-- The positions are pairwise different: R8 asks for an injective map. -/
def FlagPos.injective (p : FlagPos) : Bool :=
  p.chid ≠ p.ch && p.chid ≠ p.v6 && p.chid ≠ p.v4 && p.ch ≠ p.v6 && p.ch ≠ p.v4 && p.v6 ≠ p.v4

/-- `CFG`, the five constants of the block (R8, R29). -/
structure Cfg where
  supportedVersion : BitVec 3
  maxDepth         : Nat
  fteidFlagPos     : FlagPos
  nodeLo           : BitVec 8
  nodeHi           : BitVec 8
  sessionLo        : BitVec 8
  sessionHi        : BitVec 8
deriving DecidableEq, Repr

/-- The values R8 gives: version 1, depth 16, CHID=0 CH=1 V6=2 V4=3, ranges 1..15 and 50..57. -/
def Cfg.default : Cfg where
  supportedVersion := 1#3
  maxDepth := 16
  fteidFlagPos := { chid := 0, ch := 1, v6 := 2, v4 := 3 }
  nodeLo := 1#8
  nodeHi := 15#8
  sessionLo := 50#8
  sessionHi := 57#8

/-- One row of a registry image: the operands of one `REG_WRITE`. -/
structure ImageRow where
  code : BitVec 16
  kind : BitVec 3
  name : String
deriving DecidableEq, Repr

/-- The registry image of `CFG_REF` (R9). PRESUMED by the spec itself (general knowledge, G1): it is a
default argument only. The type codes of `opcode_table.json` are these. -/
def refImage : List ImageRow :=
  [ ⟨1#16, 5#3, "Create PDR"⟩, ⟨2#16, 5#3, "PDI"⟩, ⟨19#16, 1#3, "Cause"⟩,
    ⟨21#16, 2#3, "F-TEID"⟩, ⟨57#16, 4#3, "F-SEID"⟩, ⟨60#16, 3#3, "Node ID"⟩ ]

/-! ### Free values
R25, R34, R246 and entry U15 of `spec/93_implementation_defined.md` leave the working registers
unspecified once a command is over, and `OUT` unspecified after an ENCODE error. Each constant below has
no body; it is applied to the counter `State.free`, so that every occasion has a value of its own
(assumption 4). -/

/-- Unspecified content of `CUR`. -/
opaque Config.freeCur : Nat → BitVec 17
/-- Unspecified content of `DEPTH`. -/
opaque Config.freeDepth : Nat → Nat
/-- Unspecified content of the `WIN` stack. -/
opaque Config.freeWin : Nat → List (BitVec 17)
/-- Unspecified content of `OCUR`. -/
opaque Config.freeOcur : Nat → Nat
/-- Unspecified content of the `PATCH` stack. -/
opaque Config.freePatch : Nat → List Nat
/-- Unspecified content of `OUT` after an ENCODE error. -/
opaque Config.freeOut : Nat → Bytes

end Sys2Proof
end

