-- ==== Sys2Proof/Syntax.lean ====
section
/-! DEFINITION. The structured values of the block (`spec/00_scope.md` R17, `spec/40_header.md` R120), its
results and errors, the instruction type (one constructor per row of `spec/opcode_table.json`) and the
request the command port carries (`spec/30_encoding.md` R83, R93). -/

namespace Sys2Proof

/-- A byte string of exactly `n` octets: IPv4 (4) and IPv6 (16) addresses, in wire order (R10, R52). -/
structure Octets (n : Nat) where
  bytes : Bytes
  len   : bytes.length = n
deriving DecidableEq, Repr

/-- `Cause` value (R17, R84). -/
structure CauseValue where
  cause : Byte
  tail  : Bytes
deriving DecidableEq, Repr

/-- `FTEID` value (R17, R85). -/
structure FTEID where
  v4       : Bool
  v6       : Bool
  ch       : Bool
  chid     : Bool
  teid     : Option (BitVec 32)
  ipv4     : Option (Octets 4)
  ipv6     : Option (Octets 16)
  chooseId : Option Byte
  tail     : Bytes
deriving DecidableEq, Repr

/-- A node type the source does not list: `u4 with 3 <= nodeType <= 15` (R17, D25). -/
structure OtherType where
  code   : BitVec 4
  listed : 3 ≤ code.toNat
deriving DecidableEq, Repr

/-- `NodeIdValue` (R17, R86). -/
inductive NodeIdValue where
  | v4    (addr : Octets 4) (tail : Bytes)
  | v6    (addr : Octets 16) (tail : Bytes)
  | fqdn  (name : Bytes)
  | other (nodeType : OtherType) (tail : Bytes)
deriving DecidableEq, Repr

/-- `FSEID` value (R17, R87). -/
structure FSEID where
  v4   : Bool
  v6   : Bool
  seid : BitVec 64
  ipv4 : Option (Octets 4)
  ipv6 : Option (Octets 16)
  tail : Bytes
deriving DecidableEq, Repr

mutual
/-- `Value`, the six variants of an IE's value (R17). -/
inductive Value where
  | unrecognized (raw : Bytes)
  | cause   (c : CauseValue)
  | fteid   (f : FTEID)
  | nodeId  (n : NodeIdValue)
  | fseid   (s : FSEID)
  | grouped (children : IEList)
deriving DecidableEq, Repr

/-- `list IE`: an ordered finite sequence of `IE = (type : u16, value : Value)` (R17, R147). It is a
type of its own because a value holds a list of IEs and Lean derives equality for mutual types only. -/
inductive IEList where
  | nil
  | cons (type : BitVec 16) (value : Value) (rest : IEList)
deriving DecidableEq, Repr
end

/-- One list of IEs after another, the order of each kept (R147). -/
def IEList.append : IEList → IEList → IEList
  | .nil, after => after
  | .cons type value rest, after => .cons type value (rest.append after)

/-- One IE (R17); it has no length field (R146, D19). -/
structure IE where
  type  : BitVec 16
  value : Value
deriving DecidableEq, Repr

/-- The optional group of the session header, SEID and priority together (R17, R120). -/
structure Session where
  seid     : BitVec 64
  priority : BitVec 4
deriving DecidableEq, Repr

/-- The `Header` value (R120). -/
structure Header where
  version        : BitVec 3
  mp             : Bool
  messageType    : BitVec 8
  sequenceNumber : BitVec 24
  session        : Option Session
deriving DecidableEq, Repr

/-- What `DecodeHeader` returns (R120): the header, its length field as read, and its size, 8 or 16. -/
structure DecodedHeader where
  hdr    : Header
  length : BitVec 16
  size   : Nat
deriving DecidableEq, Repr

/-- `Message`: a header and its IEs; no length field (R17, D19). -/
structure Message where
  hdr : Header
  ies : IEList
deriving DecidableEq, Repr

/-- `isSession(m)` is `m.session` present (R17). -/
def Message.isSession (m : Message) : Bool := m.hdr.session.isSome

/-- `MessageKind` (R17, R210). -/
inductive MessageKind where
  | node    (code : BitVec 8)
  | session (code : BitVec 8)
  | unknown
deriving DecidableEq, Repr

/-- The error kinds of the block (R240, R241). `UnsupportedVersion` is the report flag UV, not a kind
(`spec/90_conflicts.md` C5). -/
inductive ErrKind where
  | truncatedHeader | truncatedIE | overrunIE | invalidConditionalLayout | inconsistentIEValue
  | depthExceeded | lengthOverflow | notInitialised | registryLocked | registryConflict
  | illegalCommand
deriving DecidableEq, Repr

/-- `Err(kind, offset)` (R15, R16). -/
structure Err where
  kind : ErrKind
  off  : Nat
deriving DecidableEq, Repr

/-- What a successful DECODE delivers (R221). -/
structure DecodeOk where
  msg      : Message
  length   : BitVec 16
  kind     : MessageKind
  consumed : Nat
  uv       : Bool
  uk       : Bool
deriving DecidableEq, Repr

/-- The instructions: one constructor per row of `spec/opcode_table.json`. The first eight are the host
commands (R83); the others are the block's internal operations, with the operands their rules give. In
them `b` and `v` are byte strings, `total` the window, `depth` the number of enclosing grouped IEs, and
`base`, `off`, `ieOff`, `o` offsets used for error reporting. -/
inductive Instr where
  /-- NOP, command 0 (R169). -/
  | nop
  /-- REG_WRITE, command 1 (R165). -/
  | regWrite (code : BitVec 16) (kind : BitVec 3) (name : String)
  /-- REG_LOCK, command 2 (R167). -/
  | regLock
  /-- DECODE, command 3 (R221). -/
  | decode (input : Bytes)
  /-- ENCODE, command 4 (R223). -/
  | encode (m : Message)
  /-- CLASSIFY, command 5 (R211). -/
  | classify (S : Bool) (code : BitVec 8)
  /-- Reserved command 6 (R170). -/
  | reservedCmd6
  /-- Reserved command 7 (R170). -/
  | reservedCmd7
  /-- DecodeHeader routed to HDR_NODE (R122, R80). -/
  | decodeHdrNode (b : Bytes)
  /-- DecodeHeader routed to HDR_SESSION (R122, R81). -/
  | decodeHdrSession (b : Bytes)
  /-- EncodeHeader of a header without a session (R125, R80). -/
  | encodeHdrNode (version : BitVec 3) (mp : Bool) (messageType : BitVec 8) (seq : BitVec 24) (length : BitVec 16)
  /-- EncodeHeader of a header with a session (R125, R81). -/
  | encodeHdrSession (version : BitVec 3) (mp : Bool) (messageType : BitVec 8) (seq : BitVec 24) (ses : Session) (length : BitVec 16)
  /-- DecodeIEList (R140). -/
  | decodeIEList (b : Bytes) (total depth base : Nat)
  /-- EncodeIEList (R145). -/
  | encodeIEList (ies : IEList) (depth off : Nat)
  /-- DecodeValue (R162). -/
  | decodeValue (t : BitVec 16) (v : Bytes) (depth ieOff : Nat)
  /-- EncodeValue (R164). -/
  | encodeValue (ie : IE) (depth o : Nat)
  /-- DecodeCause (R178). -/
  | decodeCause (v : Bytes) (ieOff : Nat)
  /-- EncodeCause (R179). -/
  | encodeCause (c : CauseValue)
  /-- DecodeFTEID (R182). -/
  | decodeFTEID (v : Bytes) (ieOff : Nat)
  /-- EncodeFTEID (R184). -/
  | encodeFTEID (f : FTEID) (o : Nat)
  /-- DecodeNodeID (R188). -/
  | decodeNodeID (v : Bytes) (ieOff : Nat)
  /-- EncodeNodeID (R189). -/
  | encodeNodeID (n : NodeIdValue)
  /-- DecodeFSEID (R193). -/
  | decodeFSEID (v : Bytes) (ieOff : Nat)
  /-- EncodeFSEID (R194). -/
  | encodeFSEID (x : FSEID) (o : Nat)
  /-- DecodeGrouped selected by type code 1 of `CFG_REF` (R197). -/
  | decodeGroupedCreatePDR (v : Bytes) (depth ieOff : Nat)
  /-- DecodeGrouped selected by type code 2 of `CFG_REF` (R197). -/
  | decodeGroupedPDI (v : Bytes) (depth ieOff : Nat)
  /-- EncodeGrouped selected by type code 1 of `CFG_REF` (R198). -/
  | encodeGroupedCreatePDR (children : IEList) (depth o : Nat)
  /-- EncodeGrouped selected by type code 2 of `CFG_REF` (R198). -/
  | encodeGroupedPDI (children : IEList) (depth o : Nat)
  /-- The Unrecognized variant on decode (R176). -/
  | decodeUnrecognized (v : Bytes)
  /-- The Unrecognized variant on encode (R176). -/
  | encodeUnrecognized (raw : Bytes)
  /-- Node ID sub-format 0 (R188). -/
  | nodeIdV4 (v : Bytes) (ieOff : Nat)
  /-- Node ID sub-format 1 (R188). -/
  | nodeIdV6 (v : Bytes) (ieOff : Nat)
  /-- Node ID sub-format 2 (R188). -/
  | nodeIdFQDN (v : Bytes) (ieOff : Nat)
  /-- Node ID sub-formats 3..15 (R188). -/
  | nodeIdOther (nodeType : OtherType) (v : Bytes) (ieOff : Nat)
  /-- Message kind selectors of the node code space, `(S, messageType) = (0, 1..15)` (R210). -/
  | kindNode1 | kindNode2 | kindNode3 | kindNode4 | kindNode5 | kindNode6 | kindNode7 | kindNode8
  | kindNode9 | kindNode10 | kindNode11 | kindNode12 | kindNode13 | kindNode14 | kindNode15
  /-- Message kind selectors of the session code space, `(S, messageType) = (1, 50..57)` (R210). -/
  | kindSession50 | kindSession51 | kindSession52 | kindSession53 | kindSession54 | kindSession55
  | kindSession56 | kindSession57
  /-- Every other message kind selector (R210). -/
  | kindUnknown (S : Bool) (code : BitVec 8)
deriving DecidableEq, Repr

/-- The levels at which the block selects an operation (`spec/30_encoding.md`, opening and R93). The
level `command` is the host's; the others are reached from a running DECODE or ENCODE. -/
inductive Level where
  | command (code : BitVec 3)
  | headerDecode | headerEncode
  | listDecode | listEncode
  | valueDecode | valueEncode
  | ieDecode | ieEncode
  | nodeIdForm
  | messageKind
deriving DecidableEq, Repr

/-- The operand ports (R83: "operands are abstract", D1). Every port always carries a value, and an
operation reads the ones its row names. -/
structure Operands where
  /-- REG_WRITE's `code`; an IE's type `t`. -/
  code   : BitVec 16
  kind   : BitVec 3
  name   : String
  /-- `IN` of a DECODE; `b`, `v` or `raw` of an internal operation. -/
  input  : Bytes
  msg    : Message
  flagS  : Bool
  mtype  : BitVec 8
  total  : Nat
  depth  : Nat
  /-- `base`, `off`, `ieOff` or `o`. -/
  offset : Nat
  hdr    : Header
  hlen   : BitVec 16
  ies    : IEList
  value  : Value
  cause  : CauseValue
  fteid  : FTEID
  nodeId : NodeIdValue
  fseid  : FSEID
deriving DecidableEq, Repr

/-- Every operand port at zero or empty. -/
def Operands.zero : Operands where
  code := 0
  kind := 0
  name := ""
  input := []
  msg := ⟨⟨0, false, 0, 0, none⟩, .nil⟩
  flagS := false
  mtype := 0
  total := 0
  depth := 0
  offset := 0
  hdr := ⟨0, false, 0, 0, none⟩
  hlen := 0
  ies := .nil
  value := .unrecognized []
  cause := ⟨0, []⟩
  fteid := ⟨false, false, false, false, some 0, none, none, none, []⟩
  nodeId := .fqdn []
  fseid := ⟨false, false, 0, none, none, []⟩

/-- One request: the level and the selector bits it carries, with the operand ports. -/
structure Request where
  level : Level
  ops   : Operands
deriving DecidableEq, Repr

/-- A request the host itself can make: one at the command level (R83). -/
def Request.fromHost (r : Request) : Bool :=
  match r.level with
  | .command _ => true
  | _ => false

end Sys2Proof
end

