-- ==== Sys2Proof/Machine/Operands.lean ====
section
/-! DEFINITION. The read and write primitives of `spec/20_memory.md`: byte order (R50), slices of a byte
string (R12), unsigned reads (R56), and the writes to `OUT` (R57). Every multi-octet integer of the block
goes through here, so the byte order is decided once. No access has an alignment requirement (R58). -/

namespace Sys2Proof.Machine

/-- The unsigned big-endian integer a byte string denotes: octet 0 the most significant (R50, R56). -/
def beNat : Bytes → Nat
  | [] => 0
  | x :: xs => x.toNat * 256 ^ xs.length + beNat xs

/-- `b[p : p+n]`, which is also `MemBytes` (R12, R56). -/
def slice (b : Bytes) (p n : Nat) : Bytes := (b.drop p).take n

/-- `MemRead` over `b`: the `n` octets at `p` as an unsigned integer (R56). Every rule that reads has
established `p + n <= len(b)`. -/
def memRead (b : Bytes) (p n : Nat) : Nat := beNat (slice b p n)

/-- `U8(b,p)` (R56). -/
def u8 (b : Bytes) (p : Nat) : Byte := BitVec.ofNat 8 (memRead b p 1)
/-- `U16(b,p)` (R56). -/
def u16 (b : Bytes) (p : Nat) : BitVec 16 := BitVec.ofNat 16 (memRead b p 2)
/-- `U24(b,p)` (R56). -/
def u24 (b : Bytes) (p : Nat) : BitVec 24 := BitVec.ofNat 24 (memRead b p 3)
/-- `U32(b,p)` (R56). -/
def u32 (b : Bytes) (p : Nat) : BitVec 32 := BitVec.ofNat 32 (memRead b p 4)
/-- `U64(b,p)` (R56). -/
def u64 (b : Bytes) (p : Nat) : BitVec 64 := BitVec.ofNat 64 (memRead b p 8)

/-- `BE_n(v)`: octet i (0 first) is `(v >> (8*(n-1-i))) & 0xFF` (R57). -/
def beBytes : Nat → Nat → Bytes
  | 0, _ => []
  | n + 1, v => BitVec.ofNat 8 (v >>> (8 * n)) :: beBytes n v

/-- The `n` octets of `b` at `p` as an address. The padding is never used: the rule has checked that the
octets are there (R52, R56). -/
def octetsAt (n : Nat) (b : Bytes) (p : Nat) : Octets n where
  bytes := (slice b p n ++ List.replicate n 0#8).take n
  len := by simp

/-- `MemWrite(addr, n, v)`: replace octets `addr .. addr+n-1` of `OUT`, already emitted, by `BE_n(v)`
(R57). -/
def memWrite (out : Bytes) (addr n v : Nat) : Bytes :=
  out.take addr ++ beBytes n v ++ out.drop (addr + n)

end Sys2Proof.Machine
end

