-- ==== Sys2Proof/Machine/Flags.lean ====
section
/-! DEFINITION. Sub-octet fields and flags: the bit slices of R90, the octets built on encode with every
spare bit zero (R91), the F-TEID flag positions taken from `CFG` (R8, D22), the report flags UV and UK
(R26), and the classifier `CauseMeaningful` (R181). There are no condition codes, carry or overflow flags
(R26). -/

namespace Sys2Proof.Machine

/-- `version = byte0[7:5]` (R51, R80). -/
def hdrVersion (b0 : Byte) : BitVec 3 := b0.extractLsb' 5 3
/-- `MP = byte0[1:1]` (R90). -/
def hdrMP (b0 : Byte) : Bool := b0.getLsbD 1
/-- `S = byte0[0:0]` (R90). -/
def hdrS (b0 : Byte) : Bool := b0.getLsbD 0
/-- The S bit of a byte string, the selector of the header shape (R90, R93); of an empty string, clear. -/
def selectS (b : Bytes) : Bool := hdrS (u8 b 0)

/-- `priority = byte15[7:4]` (R90). -/
def hdrPriority (b15 : Byte) : BitVec 4 := b15.extractLsb' 4 4
/-- `nodeType = v[0][3:0]` (R90). -/
def nodeNibble (v0 : Byte) : BitVec 4 := v0.extractLsb' 0 4

/-- A flag at a bit position of one octet (R91). -/
def flagBit (x : Bool) (pos : Nat) : Byte := if x then 1#8 <<< pos else 0#8

/-- `header byte 0 = (version << 5) | (mp << 1) | S` (R91). -/
def hdrByte0 (version : BitVec 3) (mp S : Bool) : Byte :=
  (version.setWidth 8 <<< 5) ||| flagBit mp 1 ||| flagBit S 0

/-- `header byte 15 = (priority << 4)` (R91). -/
def hdrByte15 (priority : BitVec 4) : Byte := priority.setWidth 8 <<< 4

/-- `F-TEID flags = sum over X of (X << FTEID_FLAG_POS[X])` (R91, R184). -/
def fteidFlags (p : FlagPos) (v4 v6 ch chid : Bool) : Byte :=
  flagBit v4 p.v4 ||| flagBit v6 p.v6 ||| flagBit ch p.ch ||| flagBit chid p.chid

/-- `F-SEID flags = (V4 << 1) | V6` (R91). -/
def fseidFlags (v4 v6 : Bool) : Byte := flagBit v4 1 ||| flagBit v6 0

/-- F-SEID `V4 = v[0][1:1]` (R90). -/
def fseidV4 (v0 : Byte) : Bool := v0.getLsbD 1
/-- F-SEID `V6 = v[0][0:0]` (R90). -/
def fseidV6 (v0 : Byte) : Bool := v0.getLsbD 0

/-- Report flag UV: the decoded version differs from `SUPPORTED_VERSION` (R26, R221). -/
def reportUV (cfg : Cfg) (version : BitVec 3) : Bool := version ≠ cfg.supportedVersion

/-- Report flag UK: the message kind is Unknown (R26, R221). -/
def reportUK (k : MessageKind) : Bool := k = .unknown

/-- `CauseMeaningful(c)`: c in {0, 1} or 64 <= c <= 77; nothing in the block branches on it (R181). -/
def causeMeaningful (c : Byte) : Bool :=
  c.toNat = 0 || c.toNat = 1 || (64 ≤ c.toNat && c.toNat ≤ 77)

/-- Numeric `STATUS.CODE` of an error kind (R241). -/
def errCode : ErrKind → BitVec 4
  | .truncatedHeader => 1
  | .truncatedIE => 2
  | .overrunIE => 3
  | .invalidConditionalLayout => 4
  | .inconsistentIEValue => 5
  | .depthExceeded => 6
  | .lengthOverflow => 7
  | .notInitialised => 8
  | .registryLocked => 9
  | .registryConflict => 10
  | .illegalCommand => 11

/-- The sub-formats of a Node ID (R86, R93). -/
inductive NodeForm where
  | v4 | v6 | fqdn
  | other (t : OtherType)
deriving DecidableEq, Repr

/-- Node ID sub-format selection by the nibble `nodeType`: 0, 1, 2, or 3..15 (R93, R188). -/
def nodeForm (nt : BitVec 4) : NodeForm :=
  if h : 3 ≤ nt.toNat then .other ⟨nt, h⟩
  else if nt = 0#4 then .v4
  else if nt = 1#4 then .v6
  else .fqdn

end Sys2Proof.Machine
end

