-- ==== Sys2Proof/Machine/Registry.lean ====
section
/-! DEFINITION. The registry table (`spec/10_state.md` R31, `spec/42_registry.md` R160, R161, R168): 65536
entries, held as the list of the non-empty ones with strictly rising codes. An unlisted code reads as
empty, which is the reset value the spec gives. This table is the block's only addressed memory that
persists between commands (R21, R33). -/

namespace Sys2Proof.Machine

/-- The registry: (code, entry) pairs in the canonical form `Memory.wf`. -/
abbrev Registry := List (Nat × Entry)

/-- The canonical form: codes strictly rising, each a 16-bit code. No entry equals what an unlisted code
reads as, since a listed entry is never empty. -/
def Memory.wf : Registry → Bool
  | [] => true
  | [(c, _)] => c < 65536
  | (c, _) :: (d, e) :: rest => c < d && Memory.wf ((d, e) :: rest)

/-- `REGISTRY[t]`: a single indexed read without side effect (R168). -/
def Registry.lookup : Registry → Nat → Option Entry
  | [], _ => none
  | (c, e) :: rest, t => if c = t then some e else Registry.lookup rest t

/-- `REGISTRY[t] <- e`: the one write to the table (R165). -/
def Registry.set : Registry → Nat → Entry → Registry
  | [], t, e => [(t, e)]
  | (c, x) :: rest, t, e =>
    if t < c then (t, e) :: (c, x) :: rest
    else if c = t then (t, e) :: rest
    else (c, x) :: Registry.set rest t e

/-- The entry an IE type selects. -/
def Registry.at (r : Registry) (t : BitVec 16) : Option Entry := r.lookup t.toNat

/-- The codec kind an IE type selects; `none` is the empty entry (R163, R168). -/
def Registry.kindAt (r : Registry) (t : BitVec 16) : Option Kind := (r.at t).map Entry.kind

/-- Numeric kind codes of `REG_WRITE`; 0, 6 and 7 are reserved (R161). -/
def kindOfCode (k : BitVec 3) : Option Kind :=
  match k.toNat with
  | 1 => some .cause
  | 2 => some .fteid
  | 3 => some .nodeId
  | 4 => some .fseid
  | 5 => some .grouped
  | _ => none

/-- The table after accepted `REG_WRITE`s of an image, in order (R8 `REGISTRY_IMAGE`, R281). -/
def Registry.ofImage (rows : List ImageRow) : Registry :=
  rows.foldl (fun r row =>
    match kindOfCode row.kind with
    | some k => if (r.at row.code).isNone then r.set row.code.toNat ⟨k, row.name⟩ else r
    | none => r) []

/-- The reference registry of `CFG_REF` (R9). -/
def refRegistry : Registry := Registry.ofImage refImage

/-- `variant(ie.value)` and `want` of R164: the kind whose codec a value belongs to, `none` for
Unrecognized; the four Node ID forms are all NodeID. -/
def variantOf : Value → Option Kind
  | .unrecognized _ => none
  | .cause _ => some .cause
  | .fteid _ => some .fteid
  | .nodeId _ => some .nodeId
  | .fseid _ => some .fseid
  | .grouped _ => some .grouped

end Sys2Proof.Machine
end

