-- ==== Sys2Proof/Decode.lean ====
section
/-! DEFINITION. The dispatch map (`spec/30_encoding.md` R83, R93; `spec/opcode_table.json`) as a decoder from
requests to instructions, the encoder in the other direction, and the reading of a table word. No request is
an illegal encoding (R94): the reserved command codes are instructions of their own, so the decoder of
requests is total and rejects nothing; only a bare table word can be no row's, and is rejected by name. -/

namespace Sys2Proof

open Sys2Proof.Machine

/-- Level 1: the 3-bit command code (R83). -/
def decodeCommand (c : BitVec 3) (ops : Operands) : Instr :=
  match c.toNat with
  | 0 => .nop
  | 1 => .regWrite ops.code ops.kind ops.name
  | 2 => .regLock
  | 3 => .decode ops.input
  | 4 => .encode ops.msg
  | 5 => .classify ops.flagS ops.mtype
  | 6 => .reservedCmd6
  | _ => .reservedCmd7

/-- The message kind row of a code without the session flag. -/
def nodeKindInstr (code : BitVec 8) : Instr :=
  match code.toNat with
  | 1 => .kindNode1
  | 2 => .kindNode2
  | 3 => .kindNode3
  | 4 => .kindNode4
  | 5 => .kindNode5
  | 6 => .kindNode6
  | 7 => .kindNode7
  | 8 => .kindNode8
  | 9 => .kindNode9
  | 10 => .kindNode10
  | 11 => .kindNode11
  | 12 => .kindNode12
  | 13 => .kindNode13
  | 14 => .kindNode14
  | 15 => .kindNode15
  | _ => .kindUnknown false code

/-- The message kind row of a code with the session flag. -/
def sessionKindInstr (code : BitVec 8) : Instr :=
  match code.toNat with
  | 50 => .kindSession50
  | 51 => .kindSession51
  | 52 => .kindSession52
  | 53 => .kindSession53
  | 54 => .kindSession54
  | 55 => .kindSession55
  | 56 => .kindSession56
  | 57 => .kindSession57
  | _ => .kindUnknown true code

/-- The message kind row of the 9-bit selector `(S, messageType)` (R93, R210). -/
def kindInstr (S : Bool) (code : BitVec 8) : Instr :=
  if S then sessionKindInstr code else nodeKindInstr code

/-- The type code of the second grouped row of `CFG_REF` (R9, G1). -/
def pdiCode : BitVec 16 := 2#16

/-- Level 3 on decode: `REGISTRY[type]` selects the value codec (R93). The table has two rows for the kind
Grouped, one per grouped code of `CFG_REF`; a grouped code other than the second's takes the first row,
whose operation is the same (assumption 7). -/
def decodeIeDecode (reg : Registry) (ops : Operands) : Instr :=
  match reg.kindAt ops.code with
  | none => .decodeUnrecognized ops.input
  | some .cause => .decodeCause ops.input ops.offset
  | some .fteid => .decodeFTEID ops.input ops.offset
  | some .nodeId => .decodeNodeID ops.input ops.offset
  | some .fseid => .decodeFSEID ops.input ops.offset
  | some .grouped =>
    if ops.code = pdiCode then .decodeGroupedPDI ops.input ops.depth ops.offset
    else .decodeGroupedCreatePDR ops.input ops.depth ops.offset

/-- Level 3 on encode: the value's variant, which R164 has checked to be the one of `REGISTRY[type]`. -/
def decodeIeEncode (reg : Registry) (ops : Operands) : Instr :=
  match reg.kindAt ops.code with
  | none => .encodeUnrecognized ops.input
  | some .cause => .encodeCause ops.cause
  | some .fteid => .encodeFTEID ops.fteid ops.offset
  | some .nodeId => .encodeNodeID ops.nodeId
  | some .fseid => .encodeFSEID ops.fseid ops.offset
  | some .grouped =>
    if ops.code = pdiCode then .encodeGroupedPDI ops.ies ops.depth ops.offset
    else .encodeGroupedCreatePDR ops.ies ops.depth ops.offset

/-- The Node ID sub-format, by `v[0][3:0]` (R93, R188). -/
def decodeNodeIdForm (ops : Operands) : Instr :=
  match nodeForm (nodeNibble (u8 ops.input 0)) with
  | .v4 => .nodeIdV4 ops.input ops.offset
  | .v6 => .nodeIdV6 ops.input ops.offset
  | .fqdn => .nodeIdFQDN ops.input ops.offset
  | .other t => .nodeIdOther t ops.input ops.offset

/-- The instruction a request selects: total (R93, R94). -/
def decodeRequest (reg : Registry) (r : Request) : Instr :=
  match r.level with
  | .command c => decodeCommand c r.ops
  | .headerDecode => if selectS r.ops.input then .decodeHdrSession r.ops.input else .decodeHdrNode r.ops.input
  | .headerEncode =>
    match r.ops.hdr.session with
    | none => .encodeHdrNode r.ops.hdr.version r.ops.hdr.mp r.ops.hdr.messageType r.ops.hdr.sequenceNumber r.ops.hlen
    | some ses =>
      .encodeHdrSession r.ops.hdr.version r.ops.hdr.mp r.ops.hdr.messageType r.ops.hdr.sequenceNumber ses r.ops.hlen
  | .listDecode => .decodeIEList r.ops.input r.ops.total r.ops.depth r.ops.offset
  | .listEncode => .encodeIEList r.ops.ies r.ops.depth r.ops.offset
  | .valueDecode => .decodeValue r.ops.code r.ops.input r.ops.depth r.ops.offset
  | .valueEncode => .encodeValue ⟨r.ops.code, r.ops.value⟩ r.ops.depth r.ops.offset
  | .ieDecode => decodeIeDecode reg r.ops
  | .ieEncode => decodeIeEncode reg r.ops
  | .nodeIdForm => decodeNodeIdForm r.ops
  | .messageKind => kindInstr r.ops.flagS r.ops.mtype

/-! ### The encoder -/

/-- A request at the command level. -/
def commandRequest (c : BitVec 3) (ops : Operands) : Request := ⟨.command c, ops⟩

/-- A decode-side IE request under a type code. -/
def ieDecodeRequest (code : BitVec 16) (v : Bytes) (depth off : Nat) : Request :=
  ⟨.ieDecode, { Operands.zero with code := code, input := v, depth := depth, offset := off }⟩

/-- A Node ID sub-format request. -/
def nodeIdRequest (v : Bytes) (off : Nat) : Request :=
  ⟨.nodeIdForm, { Operands.zero with input := v, offset := off }⟩

/-- A message kind request. -/
def kindRequest (S : Bool) (code : BitVec 8) : Request :=
  ⟨.messageKind, { Operands.zero with flagS := S, mtype := code }⟩

/-- A header encode request. -/
def headerEncodeRequest (h : Header) (length : BitVec 16) : Request :=
  ⟨.headerEncode, { Operands.zero with hdr := h, hlen := length }⟩

/-- The request that selects an instruction. IE rows use the type codes `opcode_table.json` gives them, which
are those of `CFG_REF` (R9); the Unrecognized rows use type code 0, which `CFG_REF` leaves empty. -/
def encodeRequest : Instr → Request
  | .nop => commandRequest 0#3 Operands.zero
  | .regWrite code kind name => commandRequest 1#3 { Operands.zero with code := code, kind := kind, name := name }
  | .regLock => commandRequest 2#3 Operands.zero
  | .decode input => commandRequest 3#3 { Operands.zero with input := input }
  | .encode m => commandRequest 4#3 { Operands.zero with msg := m }
  | .classify S code => commandRequest 5#3 { Operands.zero with flagS := S, mtype := code }
  | .reservedCmd6 => commandRequest 6#3 Operands.zero
  | .reservedCmd7 => commandRequest 7#3 Operands.zero
  | .decodeHdrNode b => ⟨.headerDecode, { Operands.zero with input := b }⟩
  | .decodeHdrSession b => ⟨.headerDecode, { Operands.zero with input := b }⟩
  | .encodeHdrNode version mp messageType seq length => headerEncodeRequest ⟨version, mp, messageType, seq, none⟩ length
  | .encodeHdrSession version mp messageType seq ses length =>
    headerEncodeRequest ⟨version, mp, messageType, seq, some ses⟩ length
  | .decodeIEList b total depth base =>
    ⟨.listDecode, { Operands.zero with input := b, total := total, depth := depth, offset := base }⟩
  | .encodeIEList ies depth off => ⟨.listEncode, { Operands.zero with ies := ies, depth := depth, offset := off }⟩
  | .decodeValue t v depth ieOff =>
    ⟨.valueDecode, { Operands.zero with code := t, input := v, depth := depth, offset := ieOff }⟩
  | .encodeValue ie depth o =>
    ⟨.valueEncode, { Operands.zero with code := ie.type, value := ie.value, depth := depth, offset := o }⟩
  | .decodeCause v ieOff => ieDecodeRequest 19#16 v 0 ieOff
  | .encodeCause c => ⟨.ieEncode, { Operands.zero with code := 19#16, cause := c }⟩
  | .decodeFTEID v ieOff => ieDecodeRequest 21#16 v 0 ieOff
  | .encodeFTEID f o => ⟨.ieEncode, { Operands.zero with code := 21#16, fteid := f, offset := o }⟩
  | .decodeNodeID v ieOff => ieDecodeRequest 60#16 v 0 ieOff
  | .encodeNodeID n => ⟨.ieEncode, { Operands.zero with code := 60#16, nodeId := n }⟩
  | .decodeFSEID v ieOff => ieDecodeRequest 57#16 v 0 ieOff
  | .encodeFSEID x o => ⟨.ieEncode, { Operands.zero with code := 57#16, fseid := x, offset := o }⟩
  | .decodeGroupedCreatePDR v depth ieOff => ieDecodeRequest 1#16 v depth ieOff
  | .decodeGroupedPDI v depth ieOff => ieDecodeRequest 2#16 v depth ieOff
  | .encodeGroupedCreatePDR children depth o =>
    ⟨.ieEncode, { Operands.zero with code := 1#16, ies := children, depth := depth, offset := o }⟩
  | .encodeGroupedPDI children depth o =>
    ⟨.ieEncode, { Operands.zero with code := 2#16, ies := children, depth := depth, offset := o }⟩
  | .decodeUnrecognized v => ieDecodeRequest 0#16 v 0 0
  | .encodeUnrecognized raw => ⟨.ieEncode, { Operands.zero with code := 0#16, input := raw }⟩
  | .nodeIdV4 v ieOff => nodeIdRequest v ieOff
  | .nodeIdV6 v ieOff => nodeIdRequest v ieOff
  | .nodeIdFQDN v ieOff => nodeIdRequest v ieOff
  | .nodeIdOther _ v ieOff => nodeIdRequest v ieOff
  | .kindNode1 => kindRequest false 1#8
  | .kindNode2 => kindRequest false 2#8
  | .kindNode3 => kindRequest false 3#8
  | .kindNode4 => kindRequest false 4#8
  | .kindNode5 => kindRequest false 5#8
  | .kindNode6 => kindRequest false 6#8
  | .kindNode7 => kindRequest false 7#8
  | .kindNode8 => kindRequest false 8#8
  | .kindNode9 => kindRequest false 9#8
  | .kindNode10 => kindRequest false 10#8
  | .kindNode11 => kindRequest false 11#8
  | .kindNode12 => kindRequest false 12#8
  | .kindNode13 => kindRequest false 13#8
  | .kindNode14 => kindRequest false 14#8
  | .kindNode15 => kindRequest false 15#8
  | .kindSession50 => kindRequest true 50#8
  | .kindSession51 => kindRequest true 51#8
  | .kindSession52 => kindRequest true 52#8
  | .kindSession53 => kindRequest true 53#8
  | .kindSession54 => kindRequest true 54#8
  | .kindSession55 => kindRequest true 55#8
  | .kindSession56 => kindRequest true 56#8
  | .kindSession57 => kindRequest true 57#8
  | .kindUnknown S code => kindRequest S code

/-- The type codes of the table select in `reg` what they select under `CFG_REF` (R9). -/
def Machine.Registry.hasRefCodes (reg : Registry) : Bool :=
  reg.kindAt 0#16 == none && reg.kindAt 1#16 == some .grouped && reg.kindAt 2#16 == some .grouped
    && reg.kindAt 19#16 == some .cause && reg.kindAt 21#16 == some .fteid
    && reg.kindAt 57#16 == some .fseid && reg.kindAt 60#16 == some .nodeId

/-! ### Table words -/

/-- Why a bare word is no row of `spec/opcode_table.json`. -/
inductive Reject where
  /-- The word does not fit the given number of bits. -/
  | wordTooWide
  /-- No row of the table has this many bits. -/
  | noSuchWidth
  /-- A command word has three bits (R83); a wider one is no command. -/
  | noSuchCommand
  /-- A type code the reference registry leaves empty: no row of the table has the word. -/
  | noSuchRow
deriving DecidableEq, Repr

/-- The request a table word stands for, operand ports zero. The table's rows of 8 bits or fewer are read as
command codes; its 16-bit rows as the IE type codes of `CFG_REF` on decode, and otherwise as message kind
selectors `(S << 8) | messageType`. Words that several rows share are read as the first of these levels that
has them (assumption 6). -/
def tableRequest (nbits w : Nat) : Except Reject Request :=
  if 2 ^ nbits ≤ w then .error .wordTooWide
  else if nbits = 0 then .error .noSuchWidth
  else if nbits ≤ 8 then
    if w < 8 then .ok (commandRequest (BitVec.ofNat 3 w) Operands.zero) else .error .noSuchCommand
  else if nbits ≤ 16 then
    if (refRegistry.lookup w).isSome then .ok (ieDecodeRequest (BitVec.ofNat 16 w) [] 0 0)
    else if w < 512 then .ok (kindRequest (decide (256 ≤ w)) (BitVec.ofNat 8 w))
    else .error .noSuchRow
  else .error .noSuchWidth

/-- The instruction of a table word, or the name of what is wrong with it. -/
def decodeWord (nbits w : Nat) : Except Reject Instr :=
  (tableRequest nbits w).map (decodeRequest refRegistry)

/-- The instruction this decoder reads from a table word, `none` where it rejects the word. -/
def decodeTableWord (nbits w : Nat) : Option Instr :=
  match decodeWord nbits w with
  | .ok i => some i
  | .error _ => none

end Sys2Proof
end

