-- ==== Sys2Proof/Machine/State.lean ====
section
/-! DEFINITION. The state of one lane of the block with the registry it uses (`spec/10_state.md` R21 to
R34), the reasons a step can stop, and the state after reset. Plain data throughout. -/

namespace Sys2Proof.Machine

/-- `PHASE`, 1 bit: INIT (0) or RUN (1) (R28, R255). -/
inductive Phase where
  | init | run
deriving DecidableEq, Repr

/-- `STATUS` (R30). Its physical packing is left open by the spec (D7). -/
structure Status where
  code   : BitVec 4
  uv     : Bool
  uk     : Bool
  offset : Nat
deriving DecidableEq, Repr

/-- The working registers of one command (R22, R23, R24). -/
structure Work where
  /-- `CUR`, the parse cursor, the block's program counter, 17 bits (R22). -/
  cur   : BitVec 17
  /-- `DEPTH`, the number of grouped IEs enclosing the list in process (R23). -/
  depth : Nat
  /-- `WIN[0..]`, the stack of window ends; `win[d]` belongs to the list at depth d (R23). -/
  win   : List (BitVec 17)
  /-- `OCUR`, the number of octets emitted so far (R24). -/
  ocur  : Nat
  /-- `PATCH[0..]`, the stack of offsets of length fields not yet known (R24). -/
  patch : List Nat
deriving DecidableEq, Repr

/-- The result the last command delivered to the host (R15, R16, R83). -/
inductive CmdResult where
  /-- Nothing has been delivered since reset. -/
  | none
  /-- REG_WRITE or REG_LOCK succeeded; they have no result value (R83). -/
  | done
  | decoded (r : DecodeOk)
  | encoded (out : Bytes)
  /-- CLASSIFY's result with the 8-bit code of R211. -/
  | classified (k : MessageKind) (code : BitVec 8)
  | err (e : Err)
deriving DecidableEq, Repr

/-- The value an internal operation hands to the operation that called it (R16). It is the model's own
register: the host never sees it. -/
inductive Bus where
  | none
  | header (d : DecodedHeader)
  | octets (b : Bytes)
  | list (ies : IEList)
  | ie (x : IE)
  | value (v : Value)
  | kind (k : MessageKind)
deriving DecidableEq, Repr

/-- Reasons the machine stops with a fault: there is none. The block's errors are results a command ends
with, after which the block is ready for the next command (R246, R248), so an error is a next state and
never a stop. -/
inductive Fault where
deriving DecidableEq, Repr

/-- Reasons an instruction is refused. -/
inductive Refusal where
  /-- Raised by a refused arm of `Machine/Dispatch.lean` for an instruction that has no meaning yet; no arm
  is one. Safe: the model stops where the block goes on. -/
  | notModelled (mnemonic : String)
deriving DecidableEq, Repr

/-- The state of the block: one lane and the registry (R21, R256). -/
structure State where
  phase    : Phase
  registry : Registry
  status   : Status
  cfg      : Cfg
  work     : Work
  /-- `OUT`, the output byte string of an ENCODE (R33). -/
  out      : Bytes
  /-- The result the host reads (R33, R233). -/
  result   : CmdResult
  /-- The result of the last internal operation; the model's own. -/
  bus      : Bus
  /-- Requests issued and not yet started, oldest first; the head's `input` port is `IN` (R33, D1). -/
  pending  : List Request
  /-- Counter of the free values drawn so far; the model's own (assumption 4). -/
  free     : Nat
deriving DecidableEq, Repr

/-- `STATUS` all zero (R34). -/
def Status.zero : Status := ⟨0, false, false, 0⟩

/-- The working registers at reset. The spec leaves them unspecified (R34); the zeros are a DESIGN CHOICE
(assumption 3) that no statement rests on. -/
def Work.reset : Work := ⟨0, 0, [], 0, []⟩

/-- The block right after reset (R34, R280): phase INIT, registry empty, STATUS zero, CFG the constants of
R8; nothing issued and nothing delivered. -/
def State.reset : State where
  phase := .init
  registry := []
  status := Status.zero
  cfg := Cfg.default
  work := Work.reset
  out := []
  result := .none
  bus := .none
  pending := []
  free := 0

end Sys2Proof.Machine
end

