-- ==== Sys2Proof/Machine/Ops.lean ====
section
/-! DEFINITION. The shared operations over the state: completing a command, refusing one, raising an error
(the block's exceptions, `spec/60_exceptions.md` R246), the registers a command leaves unspecified (R25),
the hand-over of an internal operation's result (R16), and reset as an event (R280).

There is no return from an exception: an error ends the command, control goes nowhere, and the block is
ready for the next command with no action by the host (R246, R248). -/

namespace Sys2Proof.Machine

/-- The type of every meaning's answer. -/
abbrev Answer := Host.Outcome State Fault Refusal

/-- `STATUS` after an error: its code, UV and UK 0, its offset (R30, R246). -/
def Err.status (e : Err) : Status := ⟨errCode e.kind, false, false, e.off⟩

/-- The end of a command: `STATUS` is written and the result delivered (R30, R233). -/
def complete (r : CmdResult) (st : Status) (s : State) : State :=
  { s with status := st, result := r }

/-- A command refused before it starts, changing nothing but `STATUS` and the result (R165, R170). -/
def refuse (k : ErrKind) (s : State) : State :=
  complete (.err ⟨k, 0⟩) (Err.status ⟨k, 0⟩) s

/-- The working registers become unspecified, which they are whenever a DECODE or ENCODE is over (R25,
R246, U15): each takes a free value. Nothing is handed over any more, so the bus is emptied (assumption 11). -/
def unspecifyWork (s : State) : State :=
  { s with
    work := { cur := Config.freeCur s.free, depth := Config.freeDepth s.free, win := Config.freeWin s.free,
              ocur := Config.freeOcur s.free, patch := Config.freePatch s.free }
    bus := .none
    free := s.free + 1 }

/-- The content of `OUT` after an ENCODE error is not delivered and unspecified (R60, U15). -/
def unspecifyOut (s : State) : State :=
  { s with out := Config.freeOut s.free, free := s.free + 1 }

/-- `raise K(off)` (R15, R246): the command ends with `Err(K, off)` as its result,
`STATUS <- (CODE of K, 0, 0, off)`, and the working registers become unspecified. Phase and registry are
untouched, and no part of a result is delivered. -/
def raise (e : Err) (s : State) : State :=
  complete (.err e) (Err.status e) (unspecifyWork s)

/-- `raise` on the encode side, where `OUT` becomes unspecified as well (R60). -/
def raiseEncode (e : Err) (s : State) : State := raise e (unspecifyOut s)

/-- An internal operation hands its `Ok` value to its caller (R16). Run by itself it does so in either phase
(assumption 20). -/
def deliver (b : Bus) (s : State) : State := { s with bus := b }

/-- `CUR <- v` (R15, R22). -/
def setCur (v : Nat) (s : State) : State :=
  { s with work := { s.work with cur := BitVec.ofNat 17 v } }

/-- The answer of a decode-side internal operation: its `Ok` value on the bus, or the error raised. -/
def answerDecode {α : Type} (ok : α → State → State) (r : Except Err α) (s : State) : Answer :=
  match r with
  | .ok x => .next (ok x s)
  | .error e => .next (raise e s)

/-- The answer of an encode-side internal operation. -/
def answerEncode {α : Type} (ok : α → State → State) (r : Except Err α) (s : State) : Answer :=
  match r with
  | .ok x => .next (ok x s)
  | .error e => .next (raiseEncode e s)

/-- Reset as an event (R280): the state of R34 with the same `CFG` (R29). A command in progress is
abandoned and no result is delivered; requests not yet started are dropped with it. The working registers are
unspecified and `OUT` has no reset value (R34, D32): both take free values (assumption 10). -/
def hardReset (s : State) : State :=
  unspecifyWork (unspecifyOut { State.reset with cfg := s.cfg, free := s.free })

end Sys2Proof.Machine
end

