-- ==== Sys2Proof/Machine/Header.lean ====
section
/-! DEFINITION. The message header codec (`spec/40_header.md` R121 to R125; formats R80, R81, R91) and the
meanings of its four rows. Spare bits are ignored on decode and zero on encode (R94). -/

namespace Sys2Proof.Machine

/-- `HeaderSize(h)`: 16 with a session, 8 without (R121). -/
def headerSize (h : Header) : Nat := if h.session.isSome then 16 else 8

/-- `HeaderRest(h) = HeaderSize(h) - 4` (R121). -/
def headerRest (h : Header) : Nat := headerSize h - 4

/-- `DecodeHeader` routed to HDR_NODE (R122, R80). -/
def decodeHdrNodeForm (b : Bytes) : Except Err DecodedHeader :=
  if b.length < 4 then .error ⟨.truncatedHeader, 0⟩
  else if b.length < 8 then .error ⟨.truncatedHeader, 0⟩
  else .ok { hdr := { version := hdrVersion (u8 b 0), mp := hdrMP (u8 b 0), messageType := u8 b 1,
                      sequenceNumber := u24 b 4, session := none }
             length := u16 b 2
             size := 8 }

/-- `DecodeHeader` routed to HDR_SESSION (R122, R81). The priority nibble is read whatever MP is (R124). -/
def decodeHdrSessionForm (b : Bytes) : Except Err DecodedHeader :=
  if b.length < 4 then .error ⟨.truncatedHeader, 0⟩
  else if b.length < 16 then .error ⟨.truncatedHeader, 0⟩
  else .ok { hdr := { version := hdrVersion (u8 b 0), mp := hdrMP (u8 b 0), messageType := u8 b 1,
                      sequenceNumber := u24 b 12,
                      session := some { seid := u64 b 4, priority := hdrPriority (u8 b 15) } }
             length := u16 b 2
             size := 16 }

/-- `DecodeHeader(b)` (R122): the four-octet check, then the shape that bit 0 of octet 0 selects. `length`
is not validated here (R123). -/
def decodeHeader (b : Bytes) : Except Err DecodedHeader :=
  if b.length < 4 then .error ⟨.truncatedHeader, 0⟩
  else if selectS b then decodeHdrSessionForm b
  else decodeHdrNodeForm b

/-- `EncodeHeader` of the shape without a session (R125, R91). -/
def encodeHdrNodeForm (version : BitVec 3) (mp : Bool) (messageType : BitVec 8) (seq : BitVec 24)
    (length : BitVec 16) : Bytes :=
  [hdrByte0 version mp false, messageType] ++ beBytes 2 length.toNat ++ beBytes 3 seq.toNat ++ [0#8]

/-- `EncodeHeader` of the shape with a session (R125, R91). -/
def encodeHdrSessionForm (version : BitVec 3) (mp : Bool) (messageType : BitVec 8) (seq : BitVec 24)
    (ses : Session) (length : BitVec 16) : Bytes :=
  [hdrByte0 version mp true, messageType] ++ beBytes 2 length.toNat ++ beBytes 8 ses.seid.toNat
    ++ beBytes 3 seq.toNat ++ [hdrByte15 ses.priority]

/-- `EncodeHeader(h, length)` (R125); it cannot fail. -/
def encodeHeader (h : Header) (length : BitVec 16) : Bytes :=
  match h.session with
  | none => encodeHdrNodeForm h.version h.mp h.messageType h.sequenceNumber length
  | some ses => encodeHdrSessionForm h.version h.mp h.messageType h.sequenceNumber ses length

/-- A decoded header on the bus, and `CUR <- size` (R122). -/
def deliverHeader (d : DecodedHeader) (s : State) : State := setCur d.size (deliver (.header d) s)

/-- DECODE_HDR_NODE (R122). -/
def execDecodeHdrNode (b : Bytes) (s : State) : Answer :=
  answerDecode deliverHeader (decodeHdrNodeForm b) s

/-- DECODE_HDR_SESSION (R122). -/
def execDecodeHdrSession (b : Bytes) (s : State) : Answer :=
  answerDecode deliverHeader (decodeHdrSessionForm b) s

/-- ENCODE_HDR_NODE (R125). -/
def execEncodeHdrNode (version : BitVec 3) (mp : Bool) (messageType : BitVec 8) (seq : BitVec 24)
    (length : BitVec 16) (s : State) : Answer :=
  .next (deliver (.octets (encodeHdrNodeForm version mp messageType seq length)) s)

/-- ENCODE_HDR_SESSION (R125). -/
def execEncodeHdrSession (version : BitVec 3) (mp : Bool) (messageType : BitVec 8) (seq : BitVec 24)
    (ses : Session) (length : BitVec 16) (s : State) : Answer :=
  .next (deliver (.octets (encodeHdrSessionForm version mp messageType seq ses length)) s)

end Sys2Proof.Machine
end

