-- ==== Sys2Proof/Machine/Values.lean ====
section
/-! DEFINITION. The value codecs that hold no nested list: Unrecognized, Cause, F-TEID, Node ID, F-SEID
(`spec/43_ie_values.md` R175 to R195; formats R84 to R87, R89), and the meanings of their rows. In every
decoder `v` is exactly the IE's value octets and `ieOff` the offset of the IE's first octet; in every
encoder `o` is the offset of the IE's first octet in `OUT`. None of them moves `CUR` (R141). -/

namespace Sys2Proof.Machine

/-- The error of a layout that does not fit the IE's length (R177). -/
def badLayout (ieOff : Nat) : Err := ⟨.invalidConditionalLayout, ieOff⟩

/-- `DecodeCause` (R178). -/
def decodeCause (v : Bytes) (ieOff : Nat) : Except Err CauseValue :=
  if v.length < 1 then .error (badLayout ieOff)
  else .ok { cause := u8 v 0, tail := v.drop 1 }

/-- `EncodeCause` (R179). -/
def encodeCause (c : CauseValue) : Bytes := [c.cause] ++ c.tail

/-- `NeedFTEID` (R183). -/
def needFTEID (v4 v6 ch chid : Bool) : Nat :=
  1 + (if ch then 0 else 4) + (if v4 && !ch then 4 else 0) + (if v6 && !ch then 16 else 0)
    + (if chid then 1 else 0)

/-- `DecodeFTEID` (R182). The flag positions come from `CFG`; other bits of the flags octet are ignored. -/
def decodeFTEID (cfg : Cfg) (v : Bytes) (ieOff : Nat) : Except Err FTEID :=
  if v.length < 1 then .error (badLayout ieOff)
  else
    let f := u8 v 0
    let v4 := f.getLsbD cfg.fteidFlagPos.v4
    let v6 := f.getLsbD cfg.fteidFlagPos.v6
    let ch := f.getLsbD cfg.fteidFlagPos.ch
    let chid := f.getLsbD cfg.fteidFlagPos.chid
    if v.length < needFTEID v4 v6 ch chid then .error (badLayout ieOff)
    else
      let p1 := if ch then 1 else 5
      let p2 := if v4 && !ch then p1 + 4 else p1
      let p3 := if v6 && !ch then p2 + 16 else p2
      let p4 := if chid then p3 + 1 else p3
      .ok { v4 := v4, v6 := v6, ch := ch, chid := chid
            teid := if ch then none else some (u32 v 1)
            ipv4 := if v4 && !ch then some (octetsAt 4 v p1) else none
            ipv6 := if v6 && !ch then some (octetsAt 16 v p2) else none
            chooseId := if chid then some (u8 v p3) else none
            tail := v.drop p4 }

/-- `ConsistentFTEID` (R185). -/
def consistentFTEID (f : FTEID) : Bool :=
  f.teid.isSome == !f.ch && f.ipv4.isSome == (f.v4 && !f.ch) && f.ipv6.isSome == (f.v6 && !f.ch)
    && f.chooseId.isSome == f.chid

/-- The octets of a field that may be absent. -/
def optBytes {α : Type} (enc : α → Bytes) : Option α → Bytes
  | none => []
  | some x => enc x

/-- `EncodeFTEID` (R184). -/
def encodeFTEID (cfg : Cfg) (f : FTEID) (o : Nat) : Except Err Bytes :=
  if consistentFTEID f = false then .error ⟨.inconsistentIEValue, o⟩
  else .ok ([fteidFlags cfg.fteidFlagPos f.v4 f.v6 f.ch f.chid]
    ++ optBytes (fun t => beBytes 4 t.toNat) f.teid ++ optBytes Octets.bytes f.ipv4
    ++ optBytes Octets.bytes f.ipv6 ++ optBytes (fun c => [c]) f.chooseId ++ f.tail)

/-- The IPv4 form of a Node ID (R188, nodeType 0). -/
def decodeNodeIdV4 (v : Bytes) (ieOff : Nat) : Except Err NodeIdValue :=
  if v.length < 5 then .error (badLayout ieOff) else .ok (.v4 (octetsAt 4 v 1) (v.drop 5))

/-- The IPv6 form of a Node ID (R188, nodeType 1). -/
def decodeNodeIdV6 (v : Bytes) (ieOff : Nat) : Except Err NodeIdValue :=
  if v.length < 17 then .error (badLayout ieOff) else .ok (.v6 (octetsAt 16 v 1) (v.drop 17))

/-- The FQDN form of a Node ID, which takes the whole remainder (R188, nodeType 2). -/
def decodeNodeIdFQDN (v : Bytes) (ieOff : Nat) : Except Err NodeIdValue :=
  if v.length < 1 then .error (badLayout ieOff) else .ok (.fqdn (v.drop 1))

/-- The unlisted forms of a Node ID (R188, nodeType 3..15). -/
def decodeNodeIdOther (t : OtherType) (v : Bytes) (ieOff : Nat) : Except Err NodeIdValue :=
  if v.length < 1 then .error (badLayout ieOff) else .ok (.other t (v.drop 1))

/-- `DecodeNodeID` (R188); bits 7:4 of octet 0 are ignored. -/
def decodeNodeID (v : Bytes) (ieOff : Nat) : Except Err NodeIdValue :=
  if v.length < 1 then .error (badLayout ieOff)
  else match nodeForm (nodeNibble (u8 v 0)) with
    | .v4 => decodeNodeIdV4 v ieOff
    | .v6 => decodeNodeIdV6 v ieOff
    | .fqdn => decodeNodeIdFQDN v ieOff
    | .other t => decodeNodeIdOther t v ieOff

/-- `EncodeNodeID` (R189); it cannot fail. -/
def encodeNodeID : NodeIdValue → Bytes
  | .v4 addr tail => [0x00#8] ++ addr.bytes ++ tail
  | .v6 addr tail => [0x01#8] ++ addr.bytes ++ tail
  | .fqdn name => [0x02#8] ++ name
  | .other t tail => [t.code.setWidth 8] ++ tail

/-- `need` of an F-SEID: 9 + 4*V4 + 16*V6 (R193). -/
def needFSEID (v4 v6 : Bool) : Nat := 9 + (if v4 then 4 else 0) + (if v6 then 16 else 0)

/-- `DecodeFSEID` (R193). -/
def decodeFSEID (v : Bytes) (ieOff : Nat) : Except Err FSEID :=
  if v.length < 1 then .error (badLayout ieOff)
  else
    let v4 := fseidV4 (u8 v 0)
    let v6 := fseidV6 (u8 v 0)
    if v.length < needFSEID v4 v6 then .error (badLayout ieOff)
    else
      let p2 := if v4 then 13 else 9
      let p3 := if v6 then p2 + 16 else p2
      .ok { v4 := v4, v6 := v6, seid := u64 v 1
            ipv4 := if v4 then some (octetsAt 4 v 9) else none
            ipv6 := if v6 then some (octetsAt 16 v p2) else none
            tail := v.drop p3 }

/-- `ConsistentFSEID` (R195). -/
def consistentFSEID (x : FSEID) : Bool := x.ipv4.isSome == x.v4 && x.ipv6.isSome == x.v6

/-- `EncodeFSEID` (R194). -/
def encodeFSEID (x : FSEID) (o : Nat) : Except Err Bytes :=
  if consistentFSEID x = false then .error ⟨.inconsistentIEValue, o⟩
  else .ok ([fseidFlags x.v4 x.v6] ++ beBytes 8 x.seid.toNat ++ optBytes Octets.bytes x.ipv4
    ++ optBytes Octets.bytes x.ipv6 ++ x.tail)

/-! ### The meanings of their rows -/

/-- A decoded value on the bus. -/
def deliverValue (v : Value) (s : State) : State := deliver (.value v) s

/-- Encoded octets on the bus. -/
def deliverOctets (b : Bytes) (s : State) : State := deliver (.octets b) s

/-- DECODE_CAUSE (R178). -/
def execDecodeCause (v : Bytes) (ieOff : Nat) (s : State) : Answer :=
  answerDecode (fun c => deliverValue (.cause c)) (decodeCause v ieOff) s

/-- ENCODE_CAUSE (R179). -/
def execEncodeCause (c : CauseValue) (s : State) : Answer := .next (deliverOctets (encodeCause c) s)

/-- DECODE_FTEID (R182). -/
def execDecodeFTEID (v : Bytes) (ieOff : Nat) (s : State) : Answer :=
  answerDecode (fun f => deliverValue (.fteid f)) (decodeFTEID s.cfg v ieOff) s

/-- ENCODE_FTEID (R184). -/
def execEncodeFTEID (f : FTEID) (o : Nat) (s : State) : Answer :=
  answerEncode deliverOctets (encodeFTEID s.cfg f o) s

/-- DECODE_NODEID (R188). -/
def execDecodeNodeID (v : Bytes) (ieOff : Nat) (s : State) : Answer :=
  answerDecode (fun n => deliverValue (.nodeId n)) (decodeNodeID v ieOff) s

/-- ENCODE_NODEID (R189). -/
def execEncodeNodeID (n : NodeIdValue) (s : State) : Answer := .next (deliverOctets (encodeNodeID n) s)

/-- DECODE_FSEID (R193). -/
def execDecodeFSEID (v : Bytes) (ieOff : Nat) (s : State) : Answer :=
  answerDecode (fun x => deliverValue (.fseid x)) (decodeFSEID v ieOff) s

/-- ENCODE_FSEID (R194). -/
def execEncodeFSEID (x : FSEID) (o : Nat) (s : State) : Answer :=
  answerEncode deliverOctets (encodeFSEID x o) s

/-- DECODE_UNRECOGNIZED (R176): the octets are carried whole and never inspected. -/
def execDecodeUnrecognized (v : Bytes) (s : State) : Answer := .next (deliverValue (.unrecognized v) s)

/-- ENCODE_UNRECOGNIZED (R176). The variant check that can refuse such a value is EncodeValue's (R164). -/
def execEncodeUnrecognized (raw : Bytes) (s : State) : Answer := .next (deliverOctets raw s)

/-- NODEID_V4 (R188). -/
def execNodeIdV4 (v : Bytes) (ieOff : Nat) (s : State) : Answer :=
  answerDecode (fun n => deliverValue (.nodeId n)) (decodeNodeIdV4 v ieOff) s

/-- NODEID_V6 (R188). -/
def execNodeIdV6 (v : Bytes) (ieOff : Nat) (s : State) : Answer :=
  answerDecode (fun n => deliverValue (.nodeId n)) (decodeNodeIdV6 v ieOff) s

/-- NODEID_FQDN (R188). -/
def execNodeIdFQDN (v : Bytes) (ieOff : Nat) (s : State) : Answer :=
  answerDecode (fun n => deliverValue (.nodeId n)) (decodeNodeIdFQDN v ieOff) s

/-- NODEID_OTHER (R188). -/
def execNodeIdOther (t : OtherType) (v : Bytes) (ieOff : Nat) (s : State) : Answer :=
  answerDecode (fun n => deliverValue (.nodeId n)) (decodeNodeIdOther t v ieOff) s

end Sys2Proof.Machine
end

