-- ==== Sys2Proof/Machine/IEList.lean ====
section
/-! DEFINITION. The IE list codec, the registry dispatch in both directions, grouped IEs and the length
field calculator (`spec/41_ie_list.md` R140 to R149, `spec/42_registry.md` R162 to R164,
`spec/43_ie_values.md` R197, R198, `spec/45_codec_top.md` R229), and the meanings of their rows.

Every length and offset is an unbounded natural (R149). The decoder's recursion is on a budget that the
window itself provides: a loop turn uses at least 4 octets of the window, and a nested list has a window
at least 4 smaller than its own list's (R143, R144), so a budget of `total` is never exhausted. -/

namespace Sys2Proof.Machine

/-- `DecodeGrouped` (R197), given the decoder of its inner list. The depth check comes first. -/
def decodeGroupedWith (list : Bytes → Nat → Nat → Nat → Except Err IEList) (cfg : Cfg) (v : Bytes)
    (depth ieOff : Nat) : Except Err IEList :=
  if cfg.maxDepth < depth + 1 then .error ⟨.depthExceeded, ieOff⟩
  else list v v.length (depth + 1) (ieOff + 4)

/-- The value part of `DecodeValue` (R162), given the decoder of nested lists. -/
def decodeValueWith (list : Bytes → Nat → Nat → Nat → Except Err IEList) (cfg : Cfg) (reg : Registry)
    (t : BitVec 16) (v : Bytes) (depth ieOff : Nat) : Except Err Value :=
  match reg.kindAt t with
  | none => .ok (.unrecognized v)
  | some .cause => (decodeCause v ieOff).map .cause
  | some .fteid => (decodeFTEID cfg v ieOff).map .fteid
  | some .nodeId => (decodeNodeID v ieOff).map .nodeId
  | some .fseid => (decodeFSEID v ieOff).map .fseid
  | some .grouped => (decodeGroupedWith list cfg v depth ieOff).map .grouped

/-- The loop of `DecodeIEList` (R140) with a budget. `b` and `total` are what is left of the byte string
and of the window, and `pos` is `base + pos` of the rule, the content of `CUR` (R141). -/
def decodeIEListFuel (cfg : Cfg) (reg : Registry) : Nat → Bytes → Nat → Nat → Nat → Except Err IEList
  | 0, _, _, _, _ => .ok .nil
  | n + 1, b, total, depth, pos =>
    if total = 0 then .ok .nil
    else if b.length < 4 then .error ⟨.truncatedIE, pos⟩
    else if total < 4 then .error ⟨.overrunIE, pos⟩
    else
      let t := u16 b 0
      let L := (u16 b 2).toNat
      if b.length - 4 < L then .error ⟨.truncatedIE, pos⟩
      else if total - 4 < L then .error ⟨.overrunIE, pos⟩
      else
        match decodeValueWith (decodeIEListFuel cfg reg n) cfg reg t (slice b 4 L) depth pos with
        | .error e => .error e
        | .ok v =>
          match decodeIEListFuel cfg reg n (b.drop (4 + L)) (total - (4 + L)) depth (pos + 4 + L) with
          | .error e => .error e
          | .ok rest => .ok (.cons t v rest)

/-- `DecodeIEList(b, total, depth, base)` (R140). -/
def decodeIEList (cfg : Cfg) (reg : Registry) (b : Bytes) (total depth base : Nat) : Except Err IEList :=
  decodeIEListFuel cfg reg total b total depth base

/-- `DecodeGrouped(v, depth, ieOff)` (R197). -/
def decodeGrouped (cfg : Cfg) (reg : Registry) (v : Bytes) (depth ieOff : Nat) : Except Err IEList :=
  decodeGroupedWith (decodeIEList cfg reg) cfg v depth ieOff

/-- `DecodeValue(t, v, depth, ieOff)` (R162). -/
def decodeValue (cfg : Cfg) (reg : Registry) (t : BitVec 16) (v : Bytes) (depth ieOff : Nat) : Except Err IE :=
  (decodeValueWith (decodeIEList cfg reg) cfg reg t v depth ieOff).map (fun x => ⟨t, x⟩)

mutual
/-- `EncodeValue` on the IE `(t, v)` (R164), with `EncodeGrouped` (R198) in its last case: the variant check
against the registry first, then the value encoder. -/
def encodeValueAt (cfg : Cfg) (reg : Registry) (t : BitVec 16) (v : Value) (depth o : Nat) : Except Err Bytes :=
  if variantOf v ≠ reg.kindAt t then .error ⟨.inconsistentIEValue, o⟩
  else match v with
    | .unrecognized raw => .ok raw
    | .cause c => .ok (encodeCause c)
    | .fteid f => encodeFTEID cfg f o
    | .nodeId n => .ok (encodeNodeID n)
    | .fseid x => encodeFSEID x o
    | .grouped children =>
      if cfg.maxDepth < depth + 1 then .error ⟨.depthExceeded, o⟩
      else encodeIEList cfg reg children (depth + 1) (o + 4)
/-- `EncodeIEList(ies, depth, off)` (R145). -/
def encodeIEList (cfg : Cfg) (reg : Registry) (ies : IEList) (depth off : Nat) : Except Err Bytes :=
  match ies with
  | .nil => .ok []
  | .cons t v rest =>
    match encodeValueAt cfg reg t v depth off with
    | .error e => .error e
    | .ok s =>
      if 65535 < s.length then .error ⟨.lengthOverflow, off⟩
      else
        match encodeIEList cfg reg rest depth (off + 4 + s.length) with
        | .error e => .error e
        | .ok r => .ok (beBytes 2 t.toNat ++ beBytes 2 s.length ++ s ++ r)
end

/-- `EncodeValue(ie, depth, o)` (R164). -/
def encodeValue (cfg : Cfg) (reg : Registry) (ie : IE) (depth o : Nat) : Except Err Bytes :=
  encodeValueAt cfg reg ie.type ie.value depth o

/-- `EncodeGrouped(g, depth, o)` (R198). -/
def encodeGrouped (cfg : Cfg) (reg : Registry) (children : IEList) (depth o : Nat) : Except Err Bytes :=
  if cfg.maxDepth < depth + 1 then .error ⟨.depthExceeded, o⟩
  else encodeIEList cfg reg children (depth + 1) (o + 4)

/-! ### The length field calculator (R146, R148) -/

/-- `ValueSize` of a Node ID (R148). -/
def nodeIdSize : NodeIdValue → Nat
  | .v4 _ tail => 5 + tail.length
  | .v6 _ tail => 17 + tail.length
  | .fqdn name => 1 + name.length
  | .other _ tail => 1 + tail.length

mutual
/-- `ValueSize` (R148). -/
def valueSize : Value → Nat
  | .unrecognized raw => raw.length
  | .cause c => 1 + c.tail.length
  | .fteid f => needFTEID f.v4 f.v6 f.ch f.chid + f.tail.length
  | .nodeId n => nodeIdSize n
  | .fseid x => needFSEID x.v4 x.v6 + x.tail.length
  | .grouped children => listSize children
/-- `ListSize`, the sum of `IESize = 4 + ValueSize` (R148). -/
def listSize : IEList → Nat
  | .nil => 0
  | .cons _ v rest => (4 + valueSize v) + listSize rest
end

mutual
/-- The conditions of R229 on one IE in a list at a depth. -/
def encodableValue (cfg : Cfg) (reg : Registry) (t : BitVec 16) (v : Value) (depth : Nat) : Bool :=
  (variantOf v == reg.kindAt t) && decide (valueSize v ≤ 65535) &&
    match v with
    | .unrecognized _ => true
    | .cause _ => true
    | .fteid f => consistentFTEID f
    | .nodeId _ => true
    | .fseid x => consistentFSEID x
    | .grouped children => decide (depth < cfg.maxDepth) && encodableList cfg reg children (depth + 1)
/-- The conditions of R229 on every IE of a list, at every depth. -/
def encodableList (cfg : Cfg) (reg : Registry) (ies : IEList) (depth : Nat) : Bool :=
  match ies with
  | .nil => true
  | .cons t v rest => encodableValue cfg reg t v depth && encodableList cfg reg rest depth
end

/-! ### The meanings of their rows

DESIGN CHOICE (assumption 20): a row run by itself has no phase gate. The spec reaches these rows only from a DECODE or
an ENCODE in RUN, on a locked registry (R172, R283); run by itself a row works in INIT too, on the registry as it is. -/

/-- A decoded list on the bus; `CUR` stands at the end of the list's window (R141, R143). -/
def deliverList (stop : Nat) (ies : IEList) (s : State) : State := setCur stop (deliver (.list ies) s)

/-- A decoded grouped value on the bus; `CUR` stands at the end of the value, where its inner list ended
(R141, R197). -/
def deliverGrouped (stop : Nat) (ies : IEList) (s : State) : State :=
  setCur stop (deliverValue (.grouped ies) s)

/-- A decoded IE on the bus. A grouped value has moved `CUR` through its inner list; no other has moved it
(R141). -/
def deliverIE (stop : Nat) (x : IE) (s : State) : State :=
  match x.value with
  | .grouped _ => setCur stop (deliver (.ie x) s)
  | _ => deliver (.ie x) s

/-- DECODE_IE_LIST (R140); in either phase (assumption 20). -/
def execDecodeIEList (b : Bytes) (total depth base : Nat) (s : State) : Answer :=
  answerDecode (deliverList (base + total)) (decodeIEList s.cfg s.registry b total depth base) s

/-- ENCODE_IE_LIST (R145); in either phase (assumption 20). -/
def execEncodeIEList (ies : IEList) (depth off : Nat) (s : State) : Answer :=
  answerEncode deliverOctets (encodeIEList s.cfg s.registry ies depth off) s

/-- DECODE_VALUE (R162); in either phase (assumption 20). -/
def execDecodeValue (t : BitVec 16) (v : Bytes) (depth ieOff : Nat) (s : State) : Answer :=
  answerDecode (deliverIE (ieOff + 4 + v.length)) (decodeValue s.cfg s.registry t v depth ieOff) s

/-- ENCODE_VALUE (R164); in either phase (assumption 20). -/
def execEncodeValue (ie : IE) (depth o : Nat) (s : State) : Answer :=
  answerEncode deliverOctets (encodeValue s.cfg s.registry ie depth o) s

/-- DECODE_GROUPED_CREATE_PDR (R197); in either phase (assumption 20). -/
def execDecodeGroupedCreatePDR (v : Bytes) (depth ieOff : Nat) (s : State) : Answer :=
  answerDecode (deliverGrouped (ieOff + 4 + v.length)) (decodeGrouped s.cfg s.registry v depth ieOff) s

/-- DECODE_GROUPED_PDI (R197); in either phase (assumption 20). -/
def execDecodeGroupedPDI (v : Bytes) (depth ieOff : Nat) (s : State) : Answer :=
  answerDecode (deliverGrouped (ieOff + 4 + v.length)) (decodeGrouped s.cfg s.registry v depth ieOff) s

/-- ENCODE_GROUPED_CREATE_PDR (R198); in either phase (assumption 20). -/
def execEncodeGroupedCreatePDR (children : IEList) (depth o : Nat) (s : State) : Answer :=
  answerEncode deliverOctets (encodeGrouped s.cfg s.registry children depth o) s

/-- ENCODE_GROUPED_PDI (R198); in either phase (assumption 20). -/
def execEncodeGroupedPDI (children : IEList) (depth o : Nat) (s : State) : Answer :=
  answerEncode deliverOctets (encodeGrouped s.cfg s.registry children depth o) s

end Sys2Proof.Machine
end

