-- ==== Sys2Proof/Machine/Kind.lean ====
section
/-! DEFINITION. Message kind labelling (`spec/44_message_kind.md` R210, R211, R213) and the meanings of the
message kind rows. The two code ranges come from `CFG` (R8). -/

namespace Sys2Proof.Machine

/-- `Classify(S, code)` (R210). -/
def classify (cfg : Cfg) (S : Bool) (code : BitVec 8) : MessageKind :=
  if S = false ∧ cfg.nodeLo.toNat ≤ code.toNat ∧ code.toNat ≤ cfg.nodeHi.toNat then .node code
  else if S = true ∧ cfg.sessionLo.toNat ≤ code.toNat ∧ code.toNat ≤ cfg.sessionHi.toNat then .session code
  else .unknown

/-- The kind of a Message (R213). -/
def messageKind (cfg : Cfg) (m : Message) : MessageKind := classify cfg m.isSession m.hdr.messageType

/-- The 2-bit kind of CLASSIFY's result: 0 Unknown, 1 Node, 2 Session (R211). -/
def kindBits : MessageKind → BitVec 2
  | .unknown => 0
  | .node _ => 1
  | .session _ => 2

/-- The operation of every message kind row: the label of its selector `(S, messageType)`, on the bus
(R93, R210). It consumes nothing and cannot fail. -/
def labelOp (S : Bool) (code : BitVec 8) (s : State) : Answer :=
  .next (deliver (.kind (classify s.cfg S code)) s)

/-- KIND_NODE_1 (R210). -/
def execKindNode1 (s : State) : Answer := labelOp false 1#8 s
/-- KIND_NODE_2 (R210). -/
def execKindNode2 (s : State) : Answer := labelOp false 2#8 s
/-- KIND_NODE_3 (R210). -/
def execKindNode3 (s : State) : Answer := labelOp false 3#8 s
/-- KIND_NODE_4 (R210). -/
def execKindNode4 (s : State) : Answer := labelOp false 4#8 s
/-- KIND_NODE_5 (R210). -/
def execKindNode5 (s : State) : Answer := labelOp false 5#8 s
/-- KIND_NODE_6 (R210). -/
def execKindNode6 (s : State) : Answer := labelOp false 6#8 s
/-- KIND_NODE_7 (R210). -/
def execKindNode7 (s : State) : Answer := labelOp false 7#8 s
/-- KIND_NODE_8 (R210). -/
def execKindNode8 (s : State) : Answer := labelOp false 8#8 s
/-- KIND_NODE_9 (R210). -/
def execKindNode9 (s : State) : Answer := labelOp false 9#8 s
/-- KIND_NODE_10 (R210). -/
def execKindNode10 (s : State) : Answer := labelOp false 10#8 s
/-- KIND_NODE_11 (R210). -/
def execKindNode11 (s : State) : Answer := labelOp false 11#8 s
/-- KIND_NODE_12 (R210). -/
def execKindNode12 (s : State) : Answer := labelOp false 12#8 s
/-- KIND_NODE_13 (R210). -/
def execKindNode13 (s : State) : Answer := labelOp false 13#8 s
/-- KIND_NODE_14 (R210). -/
def execKindNode14 (s : State) : Answer := labelOp false 14#8 s
/-- KIND_NODE_15 (R210). -/
def execKindNode15 (s : State) : Answer := labelOp false 15#8 s
/-- KIND_SESSION_50 (R210). -/
def execKindSession50 (s : State) : Answer := labelOp true 50#8 s
/-- KIND_SESSION_51 (R210). -/
def execKindSession51 (s : State) : Answer := labelOp true 51#8 s
/-- KIND_SESSION_52 (R210). -/
def execKindSession52 (s : State) : Answer := labelOp true 52#8 s
/-- KIND_SESSION_53 (R210). -/
def execKindSession53 (s : State) : Answer := labelOp true 53#8 s
/-- KIND_SESSION_54 (R210). -/
def execKindSession54 (s : State) : Answer := labelOp true 54#8 s
/-- KIND_SESSION_55 (R210). -/
def execKindSession55 (s : State) : Answer := labelOp true 55#8 s
/-- KIND_SESSION_56 (R210). -/
def execKindSession56 (s : State) : Answer := labelOp true 56#8 s
/-- KIND_SESSION_57 (R210). -/
def execKindSession57 (s : State) : Answer := labelOp true 57#8 s
/-- KIND_UNKNOWN (R210): every other selector. -/
def execKindUnknown (S : Bool) (code : BitVec 8) (s : State) : Answer := labelOp S code s

end Sys2Proof.Machine
end

