-- ==== Sys2Proof/Machine/Codec.lean ====
section
/-! DEFINITION. The two top-level operations as the pure functions of `spec/45_codec_top.md` (R221 to R224),
which are their normative meaning (`spec/10_state.md`, opening of section 2). The phase gate and `STATUS`
are the commands' (`Machine/Commands.lean`); `Machine/Micro.lean` computes the same on the working
registers. -/

namespace Sys2Proof.Machine

/-- The body of DECODE (R221) after the phase gate. -/
def decodeMessage (cfg : Cfg) (reg : Registry) (input : Bytes) : Except Err DecodeOk :=
  match decodeHeader input with
  | .error e => .error e
  | .ok d =>
    let rest := d.size - 4
    if d.length.toNat < rest then .error ⟨.truncatedHeader, 0⟩
    else
      match decodeIEList cfg reg (input.drop d.size) (d.length.toNat - rest) 0 d.size with
      | .error e => .error e
      | .ok ies =>
        let msg : Message := { hdr := d.hdr, ies := ies }
        let k := messageKind cfg msg
        .ok { msg := msg, length := d.length, kind := k, consumed := 4 + d.length.toNat
              uv := reportUV cfg msg.hdr.version, uk := reportUK k }

/-- `MsgLength(m)` (R148, R224). -/
def msgLength (m : Message) : Nat := headerRest m.hdr + listSize m.ies

/-- The body of ENCODE (R223, R224) after the phase gate. -/
def encodeMessage (cfg : Cfg) (reg : Registry) (m : Message) : Except Err Bytes :=
  let hsize := headerSize m.hdr
  match encodeIEList cfg reg m.ies 0 hsize with
  | .error e => .error e
  | .ok body =>
    let L := (hsize - 4) + body.length
    if 65535 < L then .error ⟨.lengthOverflow, 0⟩
    else .ok (encodeHeader m.hdr (BitVec.ofNat 16 L) ++ body)

/-- The conditions under which ENCODE succeeds in the RUN phase (R229). -/
def encodable (cfg : Cfg) (reg : Registry) (m : Message) : Bool :=
  encodableList cfg reg m.ies 0 && decide (msgLength m ≤ 65535)

/-! ### Canonical buffers (R227, R228) -/

/-- The spare bits of octet 0 of an IE value, by kind: F-TEID 7:4, Node ID 7:4, F-SEID 7:2 (R228). -/
def spareMask : Option Kind → Byte
  | some .fteid => 0xF0
  | some .nodeId => 0xF0
  | some .fseid => 0xFC
  | _ => 0x00

/-- An IE value with the spare bits of its octet 0 cleared. -/
def clearOctet0 (mask : Byte) : Bytes → Bytes
  | [] => []
  | x :: xs => (x &&& ~~~mask) :: xs

/-- The IE list in `b` with every spare bit DECODE ignores cleared, at every depth (R227, R228). -/
def clearListFuel (reg : Registry) : Nat → Bytes → Bytes
  | 0, b => b
  | n + 1, b =>
    if b.length < 4 then b
    else
      let k := reg.kindAt (u16 b 0)
      let L := (u16 b 2).toNat
      let v := slice b 4 L
      let v' := if k = some .grouped then clearListFuel reg n v else clearOctet0 (spareMask k) v
      b.take 4 ++ v' ++ clearListFuel reg n (b.drop (4 + L))

/-- A whole message with every spare bit DECODE ignores cleared (R227, R228): header byte 0 bits 4:2, byte 7
if S = 0, byte 15 bits 3:0 if S = 1, and the flags octets of the body. -/
def clearSpare (reg : Registry) (msg : Bytes) : Bytes :=
  let size := if selectS msg then 16 else 8
  clearOctet0 0x1C (msg.take (size - 1))
    ++ (if selectS msg then [u8 msg 15 &&& 0xF0] else [0x00#8])
    ++ clearListFuel reg (msg.length) (msg.drop size)

/-- `Canonical(IN)` for the `consumed` octets of a message: every spare bit DECODE ignored is zero (R228). -/
def canonical (reg : Registry) (msg : Bytes) : Bool := clearSpare reg msg == msg

end Sys2Proof.Machine
end

