-- ==== Sys2Proof/Machine/Micro.lean ====
section
/-! DEFINITION. The reference micro-architecture of DECODE and ENCODE: the two operations on the working
registers `CUR`, `DEPTH`, `WIN[]`, `OCUR`, `PATCH[]` and on `OUT` (`spec/10_state.md` R22 to R24,
`spec/41_ie_list.md` R141, R146, `spec/45_codec_top.md` R224, `spec/70_reset_and_hazards.md` R285, R286).
It is what the DECODE and ENCODE commands run; an error leaves the registers unspecified, so only a success
returns them. -/

namespace Sys2Proof.Machine

/-- `WIN[DEPTH]`, the end of the list in process (R23). -/
def Work.stop (w : Work) : Nat := (w.win.getD w.depth 0).toNat

/-- `CUR <- v` (R22). -/
def Work.jump (w : Work) (v : Nat) : Work := { w with cur := BitVec.ofNat 17 v }

/-- Entering a grouped IE whose value starts at `first` and ends before `stop`: push `WIN`, `DEPTH` one
more (R23). -/
def Work.enter (w : Work) (first stop : Nat) : Work :=
  { w with cur := BitVec.ofNat 17 first, depth := w.depth + 1, win := w.win ++ [BitVec.ofNat 17 stop] }

/-- Finishing a grouped IE's list: pop `WIN`, `DEPTH` one less (R23). -/
def Work.leave (w : Work) : Work := { w with depth := w.depth - 1, win := w.win.dropLast }

/-- The list in process, from `CUR` to `WIN[DEPTH]` (R140 to R142 on the registers). The byte string a list
may read ends with `IN` at depth 0 and with the grouped value, that is at `WIN[DEPTH]`, inside a grouped IE
(D13). The budget is the window of the outermost list (R143, R144). -/
def microDecodeList (cfg : Cfg) (reg : Registry) (input : Bytes) : Nat → Work → Except Err (IEList × Work)
  | 0, w => .ok (.nil, w)
  | n + 1, w =>
    let pos := w.cur.toNat
    let stop := w.stop
    let bufEnd := if w.depth = 0 then input.length else stop
    if stop ≤ pos then .ok (.nil, w)
    else if bufEnd - pos < 4 then .error ⟨.truncatedIE, pos⟩
    else if stop - pos < 4 then .error ⟨.overrunIE, pos⟩
    else
      let t := u16 input pos
      let L := (u16 input (pos + 2)).toNat
      if bufEnd - (pos + 4) < L then .error ⟨.truncatedIE, pos⟩
      else if stop - (pos + 4) < L then .error ⟨.overrunIE, pos⟩
      else if reg.kindAt t = some .grouped then
        if cfg.maxDepth < w.depth + 1 then .error ⟨.depthExceeded, pos⟩
        else
          match microDecodeList cfg reg input n (w.enter (pos + 4) (pos + 4 + L)) with
          | .error e => .error e
          | .ok (children, w1) =>
            match microDecodeList cfg reg input n (w1.leave.jump (pos + 4 + L)) with
            | .error e => .error e
            | .ok (rest, w2) => .ok (.cons t (.grouped children) rest, w2)
      else
        match decodeValue cfg reg t (slice input (pos + 4) L) w.depth pos with
        | .error e => .error e
        | .ok x =>
          match microDecodeList cfg reg input n (w.jump (pos + 4 + L)) with
          | .error e => .error e
          | .ok (rest, w2) => .ok (.cons t x.value rest, w2)

/-- DECODE on the working registers (R221): `CUR` from 0 to the header's size, the length check, the body in
`WIN[0]` at depth 0. The result's `consumed` is the final value of `CUR` (R25). -/
def microDecode (cfg : Cfg) (reg : Registry) (input : Bytes) (w : Work) : Except Err (DecodeOk × Work) :=
  match decodeHeader input with
  | .error e => .error e
  | .ok d =>
    let w1 := (w.jump 0).jump d.size
    if d.length.toNat < d.size - 4 then .error ⟨.truncatedHeader, 0⟩
    else
      let total := d.length.toNat - (d.size - 4)
      let w2 := { w1 with depth := 0, win := [BitVec.ofNat 17 (w1.cur.toNat + total)] }
      match microDecodeList cfg reg input total w2 with
      | .error e => .error e
      | .ok (ies, w3) =>
        let msg : Message := { hdr := d.hdr, ies := ies }
        let k := messageKind cfg msg
        .ok ({ msg := msg, length := d.length, kind := k, consumed := w3.cur.toNat
               uv := reportUV cfg msg.hdr.version, uk := reportUK k }, w3)

/-- `Emit(s)`: append to `OUT`, add to `OCUR` (R57). -/
def emit (s : Bytes) (p : Bytes × Work) : Bytes × Work :=
  (p.1 ++ s, { p.2 with ocur := p.2.ocur + s.length })

/-- Push the offset of a length field not yet known (R24). -/
def pushPatch (q : Nat) (p : Bytes × Work) : Bytes × Work :=
  (p.1, { p.2 with patch := p.2.patch ++ [q] })

/-- The length the innermost open length field counts: `OCUR - (patch offset + 2)` (R24, R146). -/
def patchLength (p : Bytes × Work) : Nat := p.2.ocur - (p.2.patch.getLastD 0 + 2)

/-- Pop the innermost length field and write the count into it (R146). -/
def popPatch (p : Bytes × Work) : Bytes × Work :=
  (memWrite p.1 (p.2.patch.getLastD 0) 2 (patchLength p), { p.2 with patch := p.2.patch.dropLast })

mutual
/-- `EncodeValue` emitting into `OUT` (R164, R198 on the registers); `o` is where the IE started. -/
def microEncodeValue (cfg : Cfg) (reg : Registry) (t : BitVec 16) (v : Value) (o : Nat) (p : Bytes × Work) :
    Except Err (Bytes × Work) :=
  if variantOf v ≠ reg.kindAt t then .error ⟨.inconsistentIEValue, o⟩
  else match v with
    | .unrecognized raw => .ok (emit raw p)
    | .cause c => .ok (emit (encodeCause c) p)
    | .fteid f => (encodeFTEID cfg f o).map (fun b => emit b p)
    | .nodeId n => .ok (emit (encodeNodeID n) p)
    | .fseid x => (encodeFSEID x o).map (fun b => emit b p)
    | .grouped children =>
      if cfg.maxDepth < p.2.depth + 1 then .error ⟨.depthExceeded, o⟩
      else
        match microEncodeList cfg reg children (p.1, { p.2 with depth := p.2.depth + 1 }) with
        | .error e => .error e
        | .ok q => .ok (q.1, { q.2 with depth := q.2.depth - 1 })
/-- `EncodeIEList` emitting into `OUT` with back-patched length fields (R145, R146): the type, two zero
octets whose offset is pushed, the value, then the count written back. -/
def microEncodeList (cfg : Cfg) (reg : Registry) (ies : IEList) (p : Bytes × Work) :
    Except Err (Bytes × Work) :=
  match ies with
  | .nil => .ok p
  | .cons t v rest =>
    let o := p.2.ocur
    let p1 := emit (beBytes 2 t.toNat) p
    match microEncodeValue cfg reg t v o (emit [0#8, 0#8] (pushPatch p1.2.ocur p1)) with
    | .error e => .error e
    | .ok q =>
      if 65535 < patchLength q then .error ⟨.lengthOverflow, o⟩
      else microEncodeList cfg reg rest (popPatch q)
end

/-- ENCODE on the working registers (R223, R224): the header with a zero length field at `PATCH[0] = 2`, the
body, and the header's length written back. -/
def microEncode (cfg : Cfg) (reg : Registry) (m : Message) (w : Work) : Except Err (Bytes × Work) :=
  let start := emit (encodeHeader m.hdr 0#16) ([], { w with ocur := 0, depth := 0, patch := [2] })
  match microEncodeList cfg reg m.ies start with
  | .error e => .error e
  | .ok q => if 65535 < patchLength q then .error ⟨.lengthOverflow, 0⟩ else .ok (popPatch q)

end Sys2Proof.Machine
end

