-- ==== Sys2Proof/Machine/Commands.lean ====
section
/-! DEFINITION. The meanings of the eight host commands (`spec/42_registry.md` R165 to R172,
`spec/44_message_kind.md` R211, `spec/45_codec_top.md` R221, R223). -/

namespace Sys2Proof.Machine

/-- NOP: changes nothing, not even `STATUS` (R169). -/
def execNop (s : State) : Answer := .next s

/-- REG_WRITE (R165): the checks in the order written, then the entry. -/
def execRegWrite (code : BitVec 16) (kind : BitVec 3) (name : String) (s : State) : Answer :=
  match kindOfCode kind with
  | none => .next (refuse .illegalCommand s)
  | some k =>
    if s.phase = .run then .next (refuse .registryLocked s)
    else if (s.registry.at code).isSome then .next (refuse .registryConflict s)
    else .next (complete .done Status.zero { s with registry := s.registry.set code.toNat ⟨k, name⟩ })

/-- REG_LOCK (R167): never fails, idempotent. -/
def execRegLock (s : State) : Answer := .next (complete .done Status.zero { s with phase := .run })

/-- DECODE (R221) with the phase gate of R172. It runs on the working registers, which are unspecified once
it is over (R25). -/
def execDecode (input : Bytes) (s : State) : Answer :=
  match s.phase with
  | .init => .next (raise ⟨.notInitialised, 0⟩ s)
  | .run =>
    match microDecode s.cfg s.registry input s.work with
    | .error e => .next (raise e s)
    | .ok (r, w) =>
      .next (complete (.decoded r) ⟨0, r.uv, r.uk, 0⟩ (unspecifyWork { s with work := w }))

/-- ENCODE (R223) with the phase gate of R172. -/
def execEncode (m : Message) (s : State) : Answer :=
  match s.phase with
  | .init => .next (raiseEncode ⟨.notInitialised, 0⟩ s)
  | .run =>
    match microEncode s.cfg s.registry m s.work with
    | .error e => .next (raiseEncode e s)
    | .ok (out, w) =>
      .next (complete (.encoded out) Status.zero (unspecifyWork { s with work := w, out := out }))

/-- CLASSIFY (R211): works in both phases, never fails. -/
def execClassify (S : Bool) (code : BitVec 8) (s : State) : Answer :=
  .next (complete (.classified (classify s.cfg S code) code) Status.zero s)

/-- Reserved command code 6 (R170). -/
def execReservedCmd6 (s : State) : Answer := .next (refuse .illegalCommand s)

/-- Reserved command code 7 (R170). -/
def execReservedCmd7 (s : State) : Answer := .next (refuse .illegalCommand s)

end Sys2Proof.Machine
end

