-- ==== Sys2Proof/Machine/Dispatch.lean ====
section
/-! DEFINITION. `exec`: one arm per instruction, each one call of its meaning. -/

namespace Sys2Proof.Machine

def exec (i : Instr) (s : State) : Host.Outcome State Fault Refusal :=
  match i with
  | .nop => Sys2Proof.Machine.execNop s
  | .regWrite code kind name => Sys2Proof.Machine.execRegWrite code kind name s
  | .regLock => Sys2Proof.Machine.execRegLock s
  | .decode input => Sys2Proof.Machine.execDecode input s
  | .encode m => Sys2Proof.Machine.execEncode m s
  | .classify S code => Sys2Proof.Machine.execClassify S code s
  | .reservedCmd6 => Sys2Proof.Machine.execReservedCmd6 s
  | .reservedCmd7 => Sys2Proof.Machine.execReservedCmd7 s
  | .decodeHdrNode b => Sys2Proof.Machine.execDecodeHdrNode b s
  | .decodeHdrSession b => Sys2Proof.Machine.execDecodeHdrSession b s
  | .encodeHdrNode version mp messageType seq length => Sys2Proof.Machine.execEncodeHdrNode version mp messageType seq length s
  | .encodeHdrSession version mp messageType seq ses length => Sys2Proof.Machine.execEncodeHdrSession version mp messageType seq ses length s
  | .decodeIEList b total depth base => Sys2Proof.Machine.execDecodeIEList b total depth base s
  | .encodeIEList ies depth off => Sys2Proof.Machine.execEncodeIEList ies depth off s
  | .decodeValue t v depth ieOff => Sys2Proof.Machine.execDecodeValue t v depth ieOff s
  | .encodeValue ie depth o => Sys2Proof.Machine.execEncodeValue ie depth o s
  | .decodeCause v ieOff => Sys2Proof.Machine.execDecodeCause v ieOff s
  | .encodeCause c => Sys2Proof.Machine.execEncodeCause c s
  | .decodeFTEID v ieOff => Sys2Proof.Machine.execDecodeFTEID v ieOff s
  | .encodeFTEID f o => Sys2Proof.Machine.execEncodeFTEID f o s
  | .decodeNodeID v ieOff => Sys2Proof.Machine.execDecodeNodeID v ieOff s
  | .encodeNodeID n => Sys2Proof.Machine.execEncodeNodeID n s
  | .decodeFSEID v ieOff => Sys2Proof.Machine.execDecodeFSEID v ieOff s
  | .encodeFSEID x o => Sys2Proof.Machine.execEncodeFSEID x o s
  | .decodeGroupedCreatePDR v depth ieOff => Sys2Proof.Machine.execDecodeGroupedCreatePDR v depth ieOff s
  | .decodeGroupedPDI v depth ieOff => Sys2Proof.Machine.execDecodeGroupedPDI v depth ieOff s
  | .encodeGroupedCreatePDR children depth o => Sys2Proof.Machine.execEncodeGroupedCreatePDR children depth o s
  | .encodeGroupedPDI children depth o => Sys2Proof.Machine.execEncodeGroupedPDI children depth o s
  | .decodeUnrecognized v => Sys2Proof.Machine.execDecodeUnrecognized v s
  | .encodeUnrecognized raw => Sys2Proof.Machine.execEncodeUnrecognized raw s
  | .nodeIdV4 v ieOff => Sys2Proof.Machine.execNodeIdV4 v ieOff s
  | .nodeIdV6 v ieOff => Sys2Proof.Machine.execNodeIdV6 v ieOff s
  | .nodeIdFQDN v ieOff => Sys2Proof.Machine.execNodeIdFQDN v ieOff s
  | .nodeIdOther nodeType v ieOff => Sys2Proof.Machine.execNodeIdOther nodeType v ieOff s
  | .kindNode1 => Sys2Proof.Machine.execKindNode1 s
  | .kindNode2 => Sys2Proof.Machine.execKindNode2 s
  | .kindNode3 => Sys2Proof.Machine.execKindNode3 s
  | .kindNode4 => Sys2Proof.Machine.execKindNode4 s
  | .kindNode5 => Sys2Proof.Machine.execKindNode5 s
  | .kindNode6 => Sys2Proof.Machine.execKindNode6 s
  | .kindNode7 => Sys2Proof.Machine.execKindNode7 s
  | .kindNode8 => Sys2Proof.Machine.execKindNode8 s
  | .kindNode9 => Sys2Proof.Machine.execKindNode9 s
  | .kindNode10 => Sys2Proof.Machine.execKindNode10 s
  | .kindNode11 => Sys2Proof.Machine.execKindNode11 s
  | .kindNode12 => Sys2Proof.Machine.execKindNode12 s
  | .kindNode13 => Sys2Proof.Machine.execKindNode13 s
  | .kindNode14 => Sys2Proof.Machine.execKindNode14 s
  | .kindNode15 => Sys2Proof.Machine.execKindNode15 s
  | .kindSession50 => Sys2Proof.Machine.execKindSession50 s
  | .kindSession51 => Sys2Proof.Machine.execKindSession51 s
  | .kindSession52 => Sys2Proof.Machine.execKindSession52 s
  | .kindSession53 => Sys2Proof.Machine.execKindSession53 s
  | .kindSession54 => Sys2Proof.Machine.execKindSession54 s
  | .kindSession55 => Sys2Proof.Machine.execKindSession55 s
  | .kindSession56 => Sys2Proof.Machine.execKindSession56 s
  | .kindSession57 => Sys2Proof.Machine.execKindSession57 s
  | .kindUnknown S code => Sys2Proof.Machine.execKindUnknown S code s

end Sys2Proof.Machine
end

