-- ==== Sys2Proof/Machine/Step.lean ====
section
/-! DEFINITION. One step of the block. There is no program memory (R33, R34): the block executes nothing
until a command arrives, and takes the requests in the order issued. -/

namespace Sys2Proof.Machine

/-- One step: the oldest request is taken from the port, decoded, and executed whole; with none waiting the
block stays as it is (R34, R60, R233; assumption 5). -/
def step (s : State) : Host.Outcome State Fault Refusal :=
  match s.pending with
  | [] => .next s
  | r :: rest => exec (decodeRequest s.registry r) { s with pending := rest }

/-- The entry the reference image gives a type code is put in the registry if the request of a table word is
selected through it. -/
def loadSelector (r : Request) (reg : Registry) : Registry :=
  match r.level with
  | .ieDecode =>
    match refRegistry.at r.ops.code with
    | some e => reg.set r.ops.code.toNat e
    | none => reg
  | _ => reg

/-- `s` with the request of a table word at the head of the port, so that the next step runs it. A word that
is read as an IE type code is selected through the registry, so its entry of `CFG_REF` is loaded with it; a
word that is no row leaves `s` as it is. -/
def State.withFetchWord (s : State) (nbits w : Nat) : State :=
  match tableRequest nbits w with
  | .ok r => { s with pending := r :: s.pending, registry := loadSelector r s.registry }
  | .error _ => s

/-- The host issues a command: it joins the port behind the requests already there (R83). -/
def State.issue (s : State) (r : Request) : State := { s with pending := s.pending ++ [r] }

end Sys2Proof.Machine
end

