-- ==== Sys2Proof/Safety.lean ====
section
/-! DEFINITION. The invariant of the block: what holds of its state at reset and after every step. -/

namespace Sys2Proof.Machine

/-- `STATUS` as R30, R241 and R246 allow it: a code 0..11; no offset on success; no report flag on an error. -/
def Status.wf (st : Status) : Bool :=
  decide (st.code.toNat ≤ 11) && (st.code != 0 || st.offset == 0) && (st.code == 0 || (!st.uv && !st.uk))

/-- `STATUS` and the delivered result say the same (R26, R30, R221, R246): on an error its code and offset, on
a DECODE its report flags, else all zero. -/
def agrees (st : Status) : CmdResult → Bool
  | .none => st == Status.zero
  | .done => st == Status.zero
  | .decoded r => st == ⟨0, r.uv, r.uk, 0⟩
  | .encoded _ => st == Status.zero
  | .classified _ _ => st == Status.zero
  | .err e => st == Err.status e

/-- A delivered DECODE result is what R221 makes of its Message and length: `consumed`, `kind`, UV, UK. -/
def resultWf (cfg : Cfg) : CmdResult → Bool
  | .decoded r => r.consumed == 4 + r.length.toNat && r.kind == messageKind cfg r.msg
      && r.uv == reportUV cfg r.msg.hdr.version && r.uk == reportUK r.kind
  | _ => true

/-- The invariant: the registry table in canonical form, `STATUS` well-formed and in agreement with the
result, the result well-formed, the F-TEID flag positions injective (R8). -/
def State.Inv (s : State) : Prop :=
  Memory.wf s.registry = true ∧ Status.wf s.status = true ∧ agrees s.status s.result = true
    ∧ resultWf s.cfg s.result = true ∧ s.cfg.fteidFlagPos.injective = true

/-- The eight host commands (R83); every other instruction is an internal operation. -/
def isCommand : Instr → Bool
  | .nop => true
  | .regWrite _ _ _ => true
  | .regLock => true
  | .decode _ => true
  | .encode _ => true
  | .classify _ _ => true
  | .reservedCmd6 => true
  | .reservedCmd7 => true
  | _ => false

mutual
/-- The number of grouped IEs nested in a value, itself included (R23). -/
def valueNesting : Value → Nat
  | .grouped children => 1 + listNesting children
  | .unrecognized _ => 0
  | .cause _ => 0
  | .fteid _ => 0
  | .nodeId _ => 0
  | .fseid _ => 0
/-- The greatest number of grouped IEs nested in one another in a list (R23). -/
def listNesting : IEList → Nat
  | .nil => 0
  | .cons _ v rest => max (valueNesting v) (listNesting rest)
end

end Sys2Proof.Machine
end

