-- ==== Sys2Proof/WellFormed.lean ====
section
/-! DEFINITION. Well-formed instructions. Field widths are in the types (`spec/00_scope.md` R10); what is
left to check is that an internal operation's operands are ones a DECODE can give it: the octet that selected
its row agrees with it, and its octets lie within the 4 + 65535 octets a message can have (R22, R82, R92). -/

namespace Sys2Proof

open Sys2Proof.Machine

/-- One past the last offset a DECODE can read: 4 + 65535 (R22). -/
def maxOffset : Nat := 65539

/-- `v` is the value of an IE at `ieOff`: its length fits the length field, and it ends within a message. -/
def valueFits (v : Bytes) (ieOff : Nat) : Bool :=
  decide (v.length ≤ 65535) && decide (ieOff + 4 + v.length ≤ maxOffset)

/-- Octet 0 of `v` is there and selects the Node ID sub-format. -/
def selectsForm (v : Bytes) (f : NodeForm) : Bool :=
  decide (1 ≤ v.length) && (nodeForm (nodeNibble (u8 v 0)) == f)

/-- Well-formedness of an instruction. -/
def wellFormed : Instr → Bool
  | .nop => true
  | .regWrite _ _ _ => true
  | .regLock => true
  | .decode _ => true
  | .encode _ => true
  | .classify _ _ => true
  | .reservedCmd6 => true
  | .reservedCmd7 => true
  | .decodeHdrNode b => !selectS b
  | .decodeHdrSession b => selectS b
  | .encodeHdrNode _ _ _ _ _ => true
  | .encodeHdrSession _ _ _ _ _ _ => true
  | .decodeIEList _ total _ base => decide (base + total ≤ maxOffset)
  | .encodeIEList _ _ _ => true
  | .decodeValue _ v _ ieOff => valueFits v ieOff
  | .encodeValue _ _ _ => true
  | .decodeCause v ieOff => valueFits v ieOff
  | .encodeCause _ => true
  | .decodeFTEID v ieOff => valueFits v ieOff
  | .encodeFTEID _ _ => true
  | .decodeNodeID v ieOff => valueFits v ieOff
  | .encodeNodeID _ => true
  | .decodeFSEID v ieOff => valueFits v ieOff
  | .encodeFSEID _ _ => true
  | .decodeGroupedCreatePDR v _ ieOff => valueFits v ieOff
  | .decodeGroupedPDI v _ ieOff => valueFits v ieOff
  | .encodeGroupedCreatePDR _ _ _ => true
  | .encodeGroupedPDI _ _ _ => true
  | .decodeUnrecognized v => decide (v.length ≤ 65535)
  | .encodeUnrecognized _ => true
  | .nodeIdV4 v ieOff => valueFits v ieOff && selectsForm v .v4
  | .nodeIdV6 v ieOff => valueFits v ieOff && selectsForm v .v6
  | .nodeIdFQDN v ieOff => valueFits v ieOff && selectsForm v .fqdn
  | .nodeIdOther t v ieOff => valueFits v ieOff && selectsForm v (.other t)
  | .kindNode1 => true
  | .kindNode2 => true
  | .kindNode3 => true
  | .kindNode4 => true
  | .kindNode5 => true
  | .kindNode6 => true
  | .kindNode7 => true
  | .kindNode8 => true
  | .kindNode9 => true
  | .kindNode10 => true
  | .kindNode11 => true
  | .kindNode12 => true
  | .kindNode13 => true
  | .kindNode14 => true
  | .kindNode15 => true
  | .kindSession50 => true
  | .kindSession51 => true
  | .kindSession52 => true
  | .kindSession53 => true
  | .kindSession54 => true
  | .kindSession55 => true
  | .kindSession56 => true
  | .kindSession57 => true
  | .kindUnknown S code => kindInstr S code == .kindUnknown S code

end Sys2Proof
end

