-- ==== Sys2Proof/Certificates/Slice0/Obligations.lean ====
section
/-! DEFINITION. The statements about the block, each from a rule of `spec/`. `exec i s = .next t` says that
instruction `i` completes in state `s` with the state `t`; `{ s with ... }` names every field that changes, so it
is the frame as well. A statement about an internal row says what the row does run by itself, in either phase;
that it runs in INIT, where the spec never runs it, is the model's choice (assumption 20). -/

open Sys2Proof Sys2Proof.Machine

/-! ### Reset, the step, and whole-machine rules -/

/-- Reset as an event (R280, R34): phase INIT, every registry entry empty, STATUS zero, CFG unchanged, no result
delivered; `State.reset` is such a state with the CFG of R8; and nothing is executed until a command arrives. The
model's choices in it: that a step with no request waiting changes nothing (assumption 5), that the result register
holds `none` (assumption 9), and that reset is a function that drops the waiting requests (assumption 10). -/
def Obligations.ResetGivesInitialState : Prop :=
  (∀ s : State, (hardReset s).phase = .init ∧ (∀ t : Nat, (hardReset s).registry.lookup t = none) ∧
    (hardReset s).status = ⟨0#4, false, false, 0⟩ ∧ (hardReset s).cfg = s.cfg ∧ (hardReset s).result = .none) ∧
  State.reset.phase = .init ∧ (∀ t : Nat, State.reset.registry.lookup t = none) ∧
    State.reset.status = ⟨0#4, false, false, 0⟩ ∧ State.reset.cfg.supportedVersion = 1#3 ∧
    State.reset.cfg.maxDepth = 16 ∧ State.reset.cfg.fteidFlagPos = { chid := 0, ch := 1, v6 := 2, v4 := 3 } ∧
    (State.reset.cfg.nodeLo, State.reset.cfg.nodeHi) = (1#8, 15#8) ∧
    (State.reset.cfg.sessionLo, State.reset.cfg.sessionHi) = (50#8, 57#8) ∧
  step State.reset = .next State.reset ∧ ∀ s : State, step (hardReset s) = .next (hardReset s)

/-- A step takes the oldest request, decodes it under the registry, and runs exactly the instruction decoded; with
no request waiting nothing changes (the idle step is the model's choice, assumption 5). -/
def Obligations.StepRunsDecodedRequest : Prop :=
  (∀ (s : State) (r : Request) (rest : List Request), s.pending = r :: rest →
    step s = exec (decodeRequest s.registry r) { s with pending := rest }) ∧
  (∀ (s : State) (i : Instr) (rest : List Request), wellFormed i = true → s.registry.hasRefCodes = true →
    s.pending = encodeRequest i :: rest → step s = exec i { s with pending := rest }) ∧
  (∀ s : State, s.pending = [] → step s = .next s)

/-- The request of every well-formed instruction decodes to that instruction with every operand, under every
registry that gives the table's type codes the kinds of `CFG_REF` (R9, R83, R93). -/
def Obligations.RequestDecodesToItsInstruction : Prop :=
  ∀ (i : Instr) (reg : Registry), wellFormed i = true → reg.hasRefCodes = true →
    decodeRequest reg (encodeRequest i) = i

/-- A few words of the table: command codes of R83, a message kind selector of each range, and type codes of `CFG_REF`
(the codes are the spec's general knowledge, G1; assumption 14). Rows of several levels share words, so how a bare word
is read is the model's choice (assumption 6). -/
def Obligations.TableWordsDecode : Prop :=
  decodeTableWord 8 0 = some .nop ∧ decodeTableWord 8 2 = some .regLock ∧
  decodeTableWord 8 6 = some .reservedCmd6 ∧ decodeTableWord 8 7 = some .reservedCmd7 ∧
  decodeTableWord 16 5 = some .kindNode5 ∧ decodeTableWord 16 0x132 = some .kindSession50 ∧
  decodeTableWord 16 0x13 = some (.decodeCause [] 0) ∧ decodeTableWord 16 0x15 = some (.decodeFTEID [] 0) ∧
  decodeTableWord 16 0x3C = some (.decodeNodeID [] 0) ∧ decodeTableWord 16 0x39 = some (.decodeFSEID [] 0)

/-- The invariant holds after reset. -/
def Obligations.InvariantAtReset : Prop := State.reset.Inv

/-- Every step keeps the invariant: the registry table stays canonical, STATUS well-formed (R30, R241) and in
agreement with the delivered result (R221, R246), the result what R221 makes of its Message, the flag positions
injective (R8). -/
def Obligations.StepKeepsInvariant : Prop :=
  ∀ s t : State, s.Inv → step s = .next t → t.Inv

/-- Every step ends in a next state: no error of the block stops it (R246, R248). -/
def Obligations.StepNeverStops : Prop :=
  ∀ s : State, ∃ t, step s = .next t

/-- In RUN no instruction changes the registry or leaves RUN, and a REG_WRITE with a valid kind is refused with
RegistryLocked, changing only STATUS and the result (R166). -/
def Obligations.RunFreezesRegistry : Prop :=
  (∀ (i : Instr) (s t : State), s.phase = .run → exec i s = .next t → t.registry = s.registry ∧ t.phase = .run) ∧
  (∀ (code : BitVec 16) (kind : BitVec 3) (name : String) (s : State), s.phase = .run →
    1 ≤ kind.toNat → kind.toNat ≤ 5 →
    exec (.regWrite code kind name) s =
      .next { s with status := ⟨9#4, false, false, 0⟩, result := .err ⟨.registryLocked, 0⟩ })

/-- Only REG_LOCK changes the phase, and only from INIT to RUN (R28, R255). -/
def Obligations.OnlyLockChangesPhase : Prop :=
  ∀ (i : Instr) (s t : State), exec i s = .next t → t.phase ≠ s.phase →
    i = .regLock ∧ s.phase = .init ∧ t.phase = .run

/-- CFG holds the five constants of R8; no instruction writes it, and reset leaves it as it is (R29). -/
def Obligations.NoInstructionWritesCfg : Prop :=
  (∀ (i : Instr) (s t : State), exec i s = .next t → t.cfg = s.cfg) ∧
  (∀ s t : State, step s = .next t → t.cfg = s.cfg) ∧ (∀ s : State, (hardReset s).cfg = s.cfg) ∧
  State.reset.cfg = { supportedVersion := 1, maxDepth := 16, fteidFlagPos := { chid := 0, ch := 1, v6 := 2, v4 := 3 },
                      nodeLo := 1, nodeHi := 15, sessionLo := 50, sessionHi := 57 }

/-- Only a REG_WRITE accepted in INIT changes a registry entry, and it changes the one it names, from empty, to an
entry of its kind and name (R165, R168, R246). -/
def Obligations.OnlyRegWriteChangesRegistry : Prop :=
  ∀ (i : Instr) (s t : State) (c : Nat), exec i s = .next t → t.registry.lookup c ≠ s.registry.lookup c →
    ∃ (code : BitVec 16) (kind : BitVec 3) (name : String) (k : Kind), i = .regWrite code kind name ∧ s.phase = .init ∧
      c = code.toNat ∧ s.registry.lookup c = none ∧ kindOfCode kind = some k ∧ t.registry.lookup c = some ⟨k, name⟩

/-- Error delivery (R246) from a state in which STATUS agrees with the result: when an instruction ends with an
error as the delivered result, STATUS is the error's code, UV 0, UK 0, the error's offset, and phase,
registry, CFG and waiting requests are untouched. -/
def Obligations.ErrorsAreDelivered : Prop :=
  ∀ (i : Instr) (s t : State) (e : Err), s.Inv → exec i s = .next t → t.result = .err e →
    t.status = ⟨errCode e.kind, false, false, e.off⟩ ∧ t.phase = s.phase ∧ t.registry = s.registry ∧ t.cfg = s.cfg ∧
    t.pending = s.pending

/-- Report flags are set by DECODE alone (R26). -/
def Obligations.ReportFlagsOnlyFromDecode : Prop :=
  ∀ (i : Instr) (s t : State), exec i s = .next t → t.status ≠ s.status →
    (t.status.uv = true ∨ t.status.uk = true) → ∃ input, i = .decode input

/-- An internal operation run by itself either hands its value over, changing nothing but the bus and CUR, or ends with
an error delivered as R246 delivers a command's. The bus, what may move CUR, and that an error empties the bus are the
model's own (assumption 11); that the error of an internal operation run by itself is delivered like a command's is the
model's reading (assumption 18). -/
def Obligations.InternalOperationFrame : Prop :=
  ∀ (i : Instr) (s t : State), isCommand i = false → exec i s = .next t →
    (∃ (b : Bus) (v : BitVec 17), t = { s with bus := b, work := { s.work with cur := v } }) ∨
    (∃ e : Err, t.result = .err e ∧ t.status = ⟨errCode e.kind, false, false, e.off⟩ ∧ t.phase = s.phase ∧
      t.registry = s.registry ∧ t.cfg = s.cfg ∧ t.pending = s.pending ∧ t.bus = .none)

/-- A decode-side internal operation leaves OUT alone, on success and on error (R33, R60). -/
def Obligations.DecodeSideLeavesOut : Prop :=
  ∀ (s t : State) (v : Bytes) (x : BitVec 16) (n d o : Nat) (nt : OtherType),
    (exec (.decode v) s = .next t ∨ exec (.decodeHdrNode v) s = .next t ∨ exec (.decodeHdrSession v) s = .next t ∨
      exec (.decodeIEList v n d o) s = .next t ∨ exec (.decodeValue x v d o) s = .next t ∨
      exec (.decodeCause v o) s = .next t ∨ exec (.decodeFTEID v o) s = .next t ∨
      exec (.decodeNodeID v o) s = .next t ∨ exec (.decodeFSEID v o) s = .next t ∨
      exec (.decodeGroupedCreatePDR v d o) s = .next t ∨ exec (.decodeGroupedPDI v d o) s = .next t ∨
      exec (.decodeUnrecognized v) s = .next t ∨ exec (.nodeIdV4 v o) s = .next t ∨
      exec (.nodeIdV6 v o) s = .next t ∨ exec (.nodeIdFQDN v o) s = .next t ∨
      exec (.nodeIdOther nt v o) s = .next t) →
    t.out = s.out ∧ t.pending = s.pending ∧ t.phase = s.phase ∧ t.registry = s.registry ∧ t.cfg = s.cfg

/-! ### The host commands -/

/-- NOP is command 0 and changes nothing, not even STATUS (R169). -/
def Obligations.NopChangesNothing : Prop :=
  (∀ s : State, exec .nop s = .next s) ∧
  (∀ (reg : Registry) (ops : Operands), decodeRequest reg ⟨.command 0#3, ops⟩ = .nop)

/-- REG_WRITE, command 1 (R165): the checks in the order written, each refusal changing only STATUS and the result;
the write otherwise, to the entry it names and no other. No command clears or replaces an entry. -/
def Obligations.RegWriteOutcomes : Prop :=
  (∀ (reg : Registry) (ops : Operands),
    decodeRequest reg ⟨.command 1#3, ops⟩ = .regWrite ops.code ops.kind ops.name) ∧
  (∀ (i : Instr) (s t : State) (c : Nat), exec i s = .next t → s.registry.lookup c ≠ none →
    t.registry.lookup c = s.registry.lookup c) ∧
  ∀ (code : BitVec 16) (kind : BitVec 3) (name : String) (s : State),
    (¬ (1 ≤ kind.toNat ∧ kind.toNat ≤ 5) →
      exec (.regWrite code kind name) s =
        .next { s with status := ⟨11#4, false, false, 0⟩, result := .err ⟨.illegalCommand, 0⟩ }) ∧
    (1 ≤ kind.toNat → kind.toNat ≤ 5 → s.phase = .run →
      exec (.regWrite code kind name) s =
        .next { s with status := ⟨9#4, false, false, 0⟩, result := .err ⟨.registryLocked, 0⟩ }) ∧
    (1 ≤ kind.toNat → kind.toNat ≤ 5 → s.phase = .init → s.registry.lookup code.toNat ≠ none →
      exec (.regWrite code kind name) s =
        .next { s with status := ⟨10#4, false, false, 0⟩, result := .err ⟨.registryConflict, 0⟩ }) ∧
    (1 ≤ kind.toNat → kind.toNat ≤ 5 → s.phase = .init → s.registry.lookup code.toNat = none →
      ∃ (k : Kind) (reg : Registry),
        exec (.regWrite code kind name) s =
          .next { s with registry := reg, status := ⟨0#4, false, false, 0⟩, result := .done } ∧
        ((kind = 1#3 ∧ k = .cause) ∨ (kind = 2#3 ∧ k = .fteid) ∨ (kind = 3#3 ∧ k = .nodeId) ∨
          (kind = 4#3 ∧ k = .fseid) ∨ (kind = 5#3 ∧ k = .grouped)) ∧
        reg.lookup code.toNat = some ⟨k, name⟩ ∧
        ∀ c : Nat, c ≠ code.toNat → reg.lookup c = s.registry.lookup c)

/-- REG_LOCK is command 2: the phase becomes RUN and STATUS all zero, and in RUN nothing but STATUS and the result
changes (R167). -/
def Obligations.RegLockEntersRun : Prop :=
  (∀ s : State, exec .regLock s =
    .next { s with phase := .run, status := ⟨0#4, false, false, 0⟩, result := .done }) ∧
  (∀ s : State, s.phase = .run →
    exec .regLock s = .next { s with status := ⟨0#4, false, false, 0⟩, result := .done }) ∧
  (∀ (reg : Registry) (ops : Operands), decodeRequest reg ⟨.command 2#3, ops⟩ = .regLock)

/-- Command codes 6 and 7, and a REG_WRITE with a reserved kind, are refused with IllegalCommand in either phase and
nothing else changes (R170). -/
def Obligations.ReservedEncodingsRefused : Prop :=
  ∀ s : State,
    exec .reservedCmd6 s = .next { s with status := ⟨11#4, false, false, 0⟩, result := .err ⟨.illegalCommand, 0⟩ } ∧
    exec .reservedCmd7 s = .next { s with status := ⟨11#4, false, false, 0⟩, result := .err ⟨.illegalCommand, 0⟩ } ∧
    (∀ (reg : Registry) (ops : Operands), decodeRequest reg ⟨.command 6#3, ops⟩ = .reservedCmd6 ∧
      decodeRequest reg ⟨.command 7#3, ops⟩ = .reservedCmd7) ∧
    (∀ (code : BitVec 16) (kind : BitVec 3) (name : String), kind = 0#3 ∨ kind = 6#3 ∨ kind = 7#3 →
      exec (.regWrite code kind name) s =
        .next { s with status := ⟨11#4, false, false, 0⟩, result := .err ⟨.illegalCommand, 0⟩ })

/-- In INIT, DECODE and ENCODE end with NotInitialised at offset 0 and read nothing of their operand: the state they
leave is the same whatever it is; CLASSIFY works in both phases and its result does not depend on the registry
(R172). -/
def Obligations.CodecsGatedByPhase : Prop :=
  (∀ s : State, s.phase = .init → ∃ t u : State,
    (∀ input, exec (.decode input) s = .next t) ∧ (∀ m, exec (.encode m) s = .next u) ∧
    t.status = ⟨8#4, false, false, 0⟩ ∧ t.result = .err ⟨.notInitialised, 0⟩ ∧ t.phase = .init ∧
    t.registry = s.registry ∧ t.cfg = s.cfg ∧ t.out = s.out ∧ t.pending = s.pending ∧
    u.status = ⟨8#4, false, false, 0⟩ ∧ u.result = .err ⟨.notInitialised, 0⟩ ∧ u.phase = .init ∧
    u.registry = s.registry ∧ u.cfg = s.cfg ∧ u.pending = s.pending) ∧
  (∀ (S : Bool) (code : BitVec 8), ∃ f : Cfg → CmdResult, ∀ s : State,
    exec (.classify S code) s = .next { s with status := ⟨0#4, false, false, 0⟩, result := f s.cfg })

/-- CLASSIFY (R210, R211): Node with S clear and the code in the node range, Session with S set and the code in the
session range, Unknown otherwise; STATUS all zero, nothing else changes, in both phases. That the 8-bit code beside
an Unknown kind is the operand is the model's reading (assumption 8). -/
def Obligations.ClassifyLabels : Prop :=
  ∀ (S : Bool) (code : BitVec 8) (s : State), ∃ k : MessageKind,
    exec (.classify S code) s =
      .next { s with status := ⟨0#4, false, false, 0⟩, result := .classified k code } ∧
    (k = .node code ↔ S = false ∧ s.cfg.nodeLo.toNat ≤ code.toNat ∧ code.toNat ≤ s.cfg.nodeHi.toNat) ∧
    (k = .session code ↔ S = true ∧ s.cfg.sessionLo.toNat ≤ code.toNat ∧ code.toNat ≤ s.cfg.sessionHi.toNat) ∧
    (k = .node code ∨ k = .session code ∨ k = .unknown) ∧
    (kindBits k = 1#2 ↔ k = .node code) ∧ (kindBits k = 2#2 ↔ k = .session code) ∧ (kindBits k = 0#2 ↔ k = .unknown)

/-- The message kind rows (R210) under the ranges of R8: each labels its own selector, and KIND_UNKNOWN labels a
selector no other row has. -/
def Obligations.KindRowsLabelTheirSelector : Prop :=
  ∀ s : State, s.cfg.nodeLo = 1#8 → s.cfg.nodeHi = 15#8 → s.cfg.sessionLo = 50#8 → s.cfg.sessionHi = 57#8 →
    exec .kindNode1 s = .next { s with bus := .kind (.node 1#8) } ∧
    exec .kindNode2 s = .next { s with bus := .kind (.node 2#8) } ∧
    exec .kindNode3 s = .next { s with bus := .kind (.node 3#8) } ∧
    exec .kindNode4 s = .next { s with bus := .kind (.node 4#8) } ∧
    exec .kindNode5 s = .next { s with bus := .kind (.node 5#8) } ∧
    exec .kindNode6 s = .next { s with bus := .kind (.node 6#8) } ∧
    exec .kindNode7 s = .next { s with bus := .kind (.node 7#8) } ∧
    exec .kindNode8 s = .next { s with bus := .kind (.node 8#8) } ∧
    exec .kindNode9 s = .next { s with bus := .kind (.node 9#8) } ∧
    exec .kindNode10 s = .next { s with bus := .kind (.node 10#8) } ∧
    exec .kindNode11 s = .next { s with bus := .kind (.node 11#8) } ∧
    exec .kindNode12 s = .next { s with bus := .kind (.node 12#8) } ∧
    exec .kindNode13 s = .next { s with bus := .kind (.node 13#8) } ∧
    exec .kindNode14 s = .next { s with bus := .kind (.node 14#8) } ∧
    exec .kindNode15 s = .next { s with bus := .kind (.node 15#8) } ∧
    exec .kindSession50 s = .next { s with bus := .kind (.session 50#8) } ∧
    exec .kindSession51 s = .next { s with bus := .kind (.session 51#8) } ∧
    exec .kindSession52 s = .next { s with bus := .kind (.session 52#8) } ∧
    exec .kindSession53 s = .next { s with bus := .kind (.session 53#8) } ∧
    exec .kindSession54 s = .next { s with bus := .kind (.session 54#8) } ∧
    exec .kindSession55 s = .next { s with bus := .kind (.session 55#8) } ∧
    exec .kindSession56 s = .next { s with bus := .kind (.session 56#8) } ∧
    exec .kindSession57 s = .next { s with bus := .kind (.session 57#8) } ∧
    ∀ (S : Bool) (code : BitVec 8), wellFormed (.kindUnknown S code) = true →
      exec (.kindUnknown S code) s = .next { s with bus := .kind .unknown }

/-! ### The message header -/

/-- DECODE_HDR_NODE (R80, R122) on a buffer of 8 octets or more with the S bit clear: the fields of HDR_NODE, the
spare bits ignored, CUR at 8. Multi-octet fields are big-endian. -/
def Obligations.DecodeHdrNodeResult : Prop :=
  ∀ (s : State) (b0 mt l1 l2 q1 q2 q3 spare : Byte) (rest : Bytes), b0.getLsbD 0 = false →
    exec (.decodeHdrNode (b0 :: mt :: l1 :: l2 :: q1 :: q2 :: q3 :: spare :: rest)) s =
      .next { s with
        bus := .header { hdr := { version := b0.extractLsb' 5 3, mp := b0.getLsbD 1, messageType := mt,
                                  sequenceNumber := q1 ++ q2 ++ q3, session := none }
                         length := l1 ++ l2
                         size := 8 }
        work := { s.work with cur := 8#17 } }

/-- DECODE_HDR_SESSION (R81, R122, R124) on a buffer of 16 octets or more with the S bit set: the fields of
HDR_SESSION, the priority nibble whatever MP is, CUR at 16. -/
def Obligations.DecodeHdrSessionResult : Prop :=
  ∀ (s : State) (b0 mt l1 l2 s1 s2 s3 s4 s5 s6 s7 s8 q1 q2 q3 b15 : Byte) (rest : Bytes), b0.getLsbD 0 = true →
    exec (.decodeHdrSession (b0 :: mt :: l1 :: l2 :: s1 :: s2 :: s3 :: s4 :: s5 :: s6 :: s7 :: s8 :: q1 :: q2 :: q3 ::
        b15 :: rest)) s =
      .next { s with
        bus := .header { hdr := { version := b0.extractLsb' 5 3, mp := b0.getLsbD 1, messageType := mt,
                                  sequenceNumber := q1 ++ q2 ++ q3
                                  session := some { seid := s1 ++ s2 ++ s3 ++ s4 ++ s5 ++ s6 ++ s7 ++ s8
                                                    priority := b15.extractLsb' 4 4 } }
                         length := l1 ++ l2
                         size := 16 }
        work := { s.work with cur := 16#17 } }

/-- ENCODE_HDR_NODE and ENCODE_HDR_SESSION (R91, R125): the octets of R80 and R81 with every spare bit zero; neither
can fail, and nothing else changes. -/
def Obligations.EncodeHdrResult : Prop :=
  ∀ (s : State) (version : BitVec 3) (mp : Bool) (mt : BitVec 8) (seq : BitVec 24) (seid : BitVec 64)
    (priority : BitVec 4) (length : BitVec 16),
    exec (.encodeHdrNode version mp mt seq length) s =
      .next { s with bus := .octets ([version ++ 0#3 ++ BitVec.ofBool mp ++ 0#1, mt] ++
        [length.extractLsb' 8 8, length.extractLsb' 0 8] ++
        [seq.extractLsb' 16 8, seq.extractLsb' 8 8, seq.extractLsb' 0 8, 0#8]) } ∧
    exec (.encodeHdrSession version mp mt seq ⟨seid, priority⟩ length) s =
      .next { s with bus := .octets ([version ++ 0#3 ++ BitVec.ofBool mp ++ 1#1, mt] ++
        [length.extractLsb' 8 8, length.extractLsb' 0 8] ++
        [seid.extractLsb' 56 8, seid.extractLsb' 48 8, seid.extractLsb' 40 8, seid.extractLsb' 32 8] ++
        [seid.extractLsb' 24 8, seid.extractLsb' 16 8, seid.extractLsb' 8 8, seid.extractLsb' 0 8] ++
        [seq.extractLsb' 16 8, seq.extractLsb' 8 8, seq.extractLsb' 0 8, priority ++ 0#4]) }

/-- TruncatedHeader (R122, R222, R241): DECODE in RUN on a buffer shorter than the shape its S bit selects, and when the
header's length is smaller than the header's own remainder, 4 or 12; and the two header rows on a buffer shorter than
their own shape. That a header row run by itself reads its own shape whatever the S bit of its operand is, is the model's
choice (assumption 19). -/
def Obligations.ShortHeadersRefused : Prop :=
  (∀ (s : State) (b : Bytes), b.length < 8 → ∃ t, exec (.decodeHdrNode b) s = .next t ∧
    t.status = ⟨1#4, false, false, 0⟩ ∧ t.result = .err ⟨.truncatedHeader, 0⟩) ∧
  (∀ (s : State) (b : Bytes), b.length < 16 → ∃ t, exec (.decodeHdrSession b) s = .next t ∧
    t.status = ⟨1#4, false, false, 0⟩ ∧ t.result = .err ⟨.truncatedHeader, 0⟩) ∧
  (∀ (s : State) (b : Bytes), s.phase = .run →
    (b.length < 4 ∨ ((u8 b 0).getLsbD 0 = false ∧ b.length < 8) ∨ ((u8 b 0).getLsbD 0 = true ∧ b.length < 16)) → ∃ t,
    exec (.decode b) s = .next t ∧ t.status = ⟨1#4, false, false, 0⟩ ∧ t.result = .err ⟨.truncatedHeader, 0⟩) ∧
  (∀ (s : State) (b0 mt l1 l2 : Byte) (rest : Bytes), s.phase = .run →
    l1.toNat * 256 + l2.toNat < (if b0.getLsbD 0 then 12 else 4) → ∃ t,
    exec (.decode (b0 :: mt :: l1 :: l2 :: rest)) s = .next t ∧
    t.status = ⟨1#4, false, false, 0⟩ ∧ t.result = .err ⟨.truncatedHeader, 0⟩)

/-- Header shape switch (R124): with S clear no octet at offset 8 or above affects the decoded header, with S set
none at 16 or above. -/
def Obligations.HeaderShapeFixesWhatIsRead : Prop :=
  ∀ (b rest : Bytes) (d : DecodedHeader), decodeHeader b = .ok d →
    d.size = (if (u8 b 0).getLsbD 0 then 16 else 8) ∧ decodeHeader (b.take d.size ++ rest) = .ok d

/-- The header codec round trip (R126), both ways; `clearSpare` on a bare header clears the spare bits of R80 and
R81. -/
def Obligations.HeaderRoundTrip : Prop :=
  (∀ (h : Header) (length : BitVec 16) (rest : Bytes),
    decodeHeader (encodeHeader h length ++ rest) = .ok { hdr := h, length := length, size := headerSize h }) ∧
  (∀ (b : Bytes) (d : DecodedHeader), decodeHeader b = .ok d →
    encodeHeader d.hdr d.length = clearSpare [] (b.take d.size) ∧
    (encodeHeader d.hdr d.length = b.take d.size ↔ canonical [] (b.take d.size) = true))

/-! ### The value codecs -/

/-- Cause and Unrecognized values (R176, R178, R179): octet 0 is the cause and the rest is kept as tail; an
unrecognized value is carried whole. Every cause value is accepted; R181 calls 0, 1 and 64 to 77 meaningful and no
others. -/
def Obligations.CauseAndUnrecognizedResults : Prop :=
  ∀ (s : State) (c : Byte) (tail raw : Bytes) (off : Nat),
    exec (.decodeCause (c :: tail) off) s = .next { s with bus := .value (.cause ⟨c, tail⟩) } ∧
    exec (.encodeCause ⟨c, tail⟩) s = .next { s with bus := .octets (c :: tail) } ∧
    exec (.decodeUnrecognized raw) s = .next { s with bus := .value (.unrecognized raw) } ∧
    exec (.encodeUnrecognized raw) s = .next { s with bus := .octets raw } ∧
    (causeMeaningful c = true ↔ (c = 0#8 ∨ c = 1#8 ∨ (64 ≤ c.toNat ∧ c.toNat ≤ 77)))

/-- DECODE_FTEID (R85, R182, R185) on a value long enough for its flags: the flags are the bits at `FTEID_FLAG_POS`
(other bits of octet 0 ignored), the value is consistent with them, and its fields follow one another in the order
TEID, IPv4, IPv6, choose-id, tail, making up the whole value. -/
def Obligations.DecodeFTEIDResult : Prop :=
  ∀ (s : State) (x : Byte) (body : Bytes) (off : Nat),
    needFTEID (x.getLsbD s.cfg.fteidFlagPos.v4) (x.getLsbD s.cfg.fteidFlagPos.v6) (x.getLsbD s.cfg.fteidFlagPos.ch)
      (x.getLsbD s.cfg.fteidFlagPos.chid) ≤ body.length + 1 →
    ∃ f : FTEID, exec (.decodeFTEID (x :: body) off) s = .next { s with bus := .value (.fteid f) } ∧
      f.v4 = x.getLsbD s.cfg.fteidFlagPos.v4 ∧ f.v6 = x.getLsbD s.cfg.fteidFlagPos.v6 ∧
      f.ch = x.getLsbD s.cfg.fteidFlagPos.ch ∧ f.chid = x.getLsbD s.cfg.fteidFlagPos.chid ∧
      (f.teid.isSome = true ↔ f.ch = false) ∧ (f.ipv4.isSome = true ↔ f.v4 = true ∧ f.ch = false) ∧
      (f.ipv6.isSome = true ↔ f.v6 = true ∧ f.ch = false) ∧ (f.chooseId.isSome = true ↔ f.chid = true) ∧
      body = optBytes (fun t => beBytes 4 t.toNat) f.teid ++ optBytes Octets.bytes f.ipv4
        ++ optBytes Octets.bytes f.ipv6 ++ optBytes (fun c => [c]) f.chooseId ++ f.tail

/-- ENCODE_FTEID (R91, R184): a consistent value gives a flags octet with each flag at its position of
`FTEID_FLAG_POS` and every other bit zero, then the present fields in order, `ValueSize` octets in all; an
inconsistent one is refused with InconsistentIEValue at the IE's offset. -/
def Obligations.EncodeFTEIDResult : Prop :=
  ∀ (s : State) (f : FTEID) (o : Nat), s.cfg.fteidFlagPos.injective = true →
    (consistentFTEID f = true → ∃ (flags : Byte) (body : Bytes),
      exec (.encodeFTEID f o) s = .next { s with bus := .octets (flags :: body) } ∧
      body = optBytes (fun t => beBytes 4 t.toNat) f.teid ++ optBytes Octets.bytes f.ipv4
        ++ optBytes Octets.bytes f.ipv6 ++ optBytes (fun c => [c]) f.chooseId ++ f.tail ∧
      (flags :: body).length = valueSize (.fteid f) ∧
      flags.getLsbD s.cfg.fteidFlagPos.v4 = f.v4 ∧ flags.getLsbD s.cfg.fteidFlagPos.v6 = f.v6 ∧
      flags.getLsbD s.cfg.fteidFlagPos.ch = f.ch ∧ flags.getLsbD s.cfg.fteidFlagPos.chid = f.chid ∧
      ∀ i : Nat, i ≠ s.cfg.fteidFlagPos.v4 → i ≠ s.cfg.fteidFlagPos.v6 → i ≠ s.cfg.fteidFlagPos.ch →
        i ≠ s.cfg.fteidFlagPos.chid → flags.getLsbD i = false) ∧
    (consistentFTEID f = false → ∃ t, exec (.encodeFTEID f o) s = .next t ∧
      t.status = ⟨5#4, false, false, o⟩ ∧ t.result = .err ⟨.inconsistentIEValue, o⟩ ∧
      t.phase = s.phase ∧ t.registry = s.registry)

/-- DECODE_NODEID and the four sub-format rows (R86, R188): the low nibble of octet 0 selects the form, the high
nibble is ignored; IPv4 and IPv6 addresses leave a tail, a name takes the remainder, an unlisted type leaves
everything as tail. A sub-format row run by itself on a value without an octet 0 ends with InvalidConditionalLayout as
DecodeNodeID does, which is the model's reading (assumption 18). -/
def Obligations.DecodeNodeIDResult : Prop :=
  ∀ (s : State) (x : Byte) (off : Nat) (a4 : Octets 4) (a6 : Octets 16) (nt : OtherType) (tail : Bytes),
    (x.extractLsb' 0 4 = 0#4 →
      exec (.decodeNodeID (x :: (a4.bytes ++ tail)) off) s = .next { s with bus := .value (.nodeId (.v4 a4 tail)) } ∧
      exec (.nodeIdV4 (x :: (a4.bytes ++ tail)) off) s = .next { s with bus := .value (.nodeId (.v4 a4 tail)) }) ∧
    (x.extractLsb' 0 4 = 1#4 →
      exec (.decodeNodeID (x :: (a6.bytes ++ tail)) off) s = .next { s with bus := .value (.nodeId (.v6 a6 tail)) } ∧
      exec (.nodeIdV6 (x :: (a6.bytes ++ tail)) off) s = .next { s with bus := .value (.nodeId (.v6 a6 tail)) }) ∧
    (x.extractLsb' 0 4 = 2#4 →
      exec (.decodeNodeID (x :: tail) off) s = .next { s with bus := .value (.nodeId (.fqdn tail)) } ∧
      exec (.nodeIdFQDN (x :: tail) off) s = .next { s with bus := .value (.nodeId (.fqdn tail)) }) ∧
    (x.extractLsb' 0 4 = nt.code →
      exec (.decodeNodeID (x :: tail) off) s = .next { s with bus := .value (.nodeId (.other nt tail)) } ∧
      exec (.nodeIdOther nt (x :: tail) off) s = .next { s with bus := .value (.nodeId (.other nt tail)) }) ∧
    (∀ i : Instr, i = .nodeIdV4 [] off ∨ i = .nodeIdV6 [] off ∨ i = .nodeIdFQDN [] off ∨ i = .nodeIdOther nt [] off →
      ∃ t, exec i s = .next t ∧ t.status = ⟨4#4, false, false, off⟩ ∧ t.result = .err ⟨.invalidConditionalLayout, off⟩)

/-- ENCODE_NODEID (R189): the node type in the low nibble, the spare nibble zero, then the payload, `ValueSize`
octets in all; it cannot fail. -/
def Obligations.EncodeNodeIDResult : Prop :=
  ∀ (s : State) (a4 : Octets 4) (a6 : Octets 16) (nt : OtherType) (tail : Bytes),
    exec (.encodeNodeID (.v4 a4 tail)) s = .next { s with bus := .octets (0x00#8 :: (a4.bytes ++ tail)) } ∧
    exec (.encodeNodeID (.v6 a6 tail)) s = .next { s with bus := .octets (0x01#8 :: (a6.bytes ++ tail)) } ∧
    exec (.encodeNodeID (.fqdn tail)) s = .next { s with bus := .octets (0x02#8 :: tail) } ∧
    exec (.encodeNodeID (.other nt tail)) s = .next { s with bus := .octets ((0#4 ++ nt.code) :: tail) } ∧
    ∀ n : NodeIdValue, ∃ b, exec (.encodeNodeID n) s = .next { s with bus := .octets b } ∧
      b.length = valueSize (.nodeId n)

/-- DECODE_FSEID (R87, R193, R195) on a value long enough for its flags: V4 is bit 1 and V6 bit 0 of octet 0 (other
bits ignored), and the SEID, the IPv4 address, the IPv6 address and the tail make up the rest of the value. -/
def Obligations.DecodeFSEIDResult : Prop :=
  ∀ (s : State) (x : Byte) (body : Bytes) (off : Nat),
    9 + (if x.getLsbD 1 then 4 else 0) + (if x.getLsbD 0 then 16 else 0) ≤ body.length + 1 →
    ∃ f : FSEID, exec (.decodeFSEID (x :: body) off) s = .next { s with bus := .value (.fseid f) } ∧
      f.v4 = x.getLsbD 1 ∧ f.v6 = x.getLsbD 0 ∧
      (f.ipv4.isSome = true ↔ f.v4 = true) ∧ (f.ipv6.isSome = true ↔ f.v6 = true) ∧
      body = beBytes 8 f.seid.toNat ++ optBytes Octets.bytes f.ipv4 ++ optBytes Octets.bytes f.ipv6 ++ f.tail

/-- ENCODE_FSEID (R91, R194): a consistent value gives `(V4 << 1) | V6`, the SEID big-endian, and the present
addresses in order, 9 + 4 V4 + 16 V6 + tail octets in all; an inconsistent one is refused with
InconsistentIEValue. -/
def Obligations.EncodeFSEIDResult : Prop :=
  ∀ (s : State) (f : FSEID) (o : Nat),
    (consistentFSEID f = true → ∃ body : Bytes,
      exec (.encodeFSEID f o) s =
        .next { s with bus := .octets ((0#6 ++ BitVec.ofBool f.v4 ++ BitVec.ofBool f.v6) :: body) } ∧
      body = beBytes 8 f.seid.toNat ++ optBytes Octets.bytes f.ipv4 ++ optBytes Octets.bytes f.ipv6 ++ f.tail ∧
      1 + body.length = 9 + (if f.v4 then 4 else 0) + (if f.v6 then 16 else 0) + f.tail.length) ∧
    (consistentFSEID f = false → ∃ t, exec (.encodeFSEID f o) s = .next t ∧
      t.status = ⟨5#4, false, false, o⟩ ∧ t.result = .err ⟨.inconsistentIEValue, o⟩ ∧
      t.phase = s.phase ∧ t.registry = s.registry)

/-- InvalidConditionalLayout is raised by a value decoder exactly when the value is shorter than its selector bits
need, with the IE's offset; never for a longer value (R177). `NeedFTEID` is R183's table in all sixteen cases. The rows
of the value decoders, and the address rows of a Node ID on a value that selects them, then end with STATUS
`(4, 0, 0, ieOff)`, and OUT, phase, registry, CFG and waiting requests unchanged. -/
def Obligations.LayoutErrorExactlyWhenShort : Prop :=
  (∀ v4 v6 ch chid : Bool, needFTEID v4 v6 ch chid =
    match v4, v6, ch, chid with
    | false, false, false, false => 5
    | false, false, false, true => 6
    | false, true, false, false => 21
    | false, true, false, true => 22
    | true, false, false, false => 9
    | true, false, false, true => 10
    | true, true, false, false => 25
    | true, true, false, true => 26
    | _, _, true, false => 1
    | _, _, true, true => 2) ∧
  (∀ (cfg : Cfg) (v : Bytes) (off : Nat) (e : Err),
    (decodeCause v off = .error e ↔ v.length < 1 ∧ e = ⟨.invalidConditionalLayout, off⟩) ∧
    (decodeFTEID cfg v off = .error e ↔
      (v.length < 1 ∨ v.length < needFTEID ((u8 v 0).getLsbD cfg.fteidFlagPos.v4)
        ((u8 v 0).getLsbD cfg.fteidFlagPos.v6) ((u8 v 0).getLsbD cfg.fteidFlagPos.ch)
        ((u8 v 0).getLsbD cfg.fteidFlagPos.chid)) ∧ e = ⟨.invalidConditionalLayout, off⟩) ∧
    (decodeNodeID v off = .error e ↔
      (v.length < 1 ∨ (nodeNibble (u8 v 0) = 0#4 ∧ v.length < 5) ∨ (nodeNibble (u8 v 0) = 1#4 ∧ v.length < 17)) ∧
        e = ⟨.invalidConditionalLayout, off⟩) ∧
    (decodeFSEID v off = .error e ↔
      (v.length < 1 ∨ v.length < needFSEID ((u8 v 0).getLsbD 1) ((u8 v 0).getLsbD 0)) ∧
        e = ⟨.invalidConditionalLayout, off⟩)) ∧
  ∀ (s : State) (v : Bytes) (off : Nat) (i : Instr),
    ((i = .decodeCause v off ∧ v.length < 1) ∨
      (i = .decodeFTEID v off ∧ (v.length < 1 ∨ v.length < needFTEID ((u8 v 0).getLsbD s.cfg.fteidFlagPos.v4)
        ((u8 v 0).getLsbD s.cfg.fteidFlagPos.v6) ((u8 v 0).getLsbD s.cfg.fteidFlagPos.ch)
        ((u8 v 0).getLsbD s.cfg.fteidFlagPos.chid))) ∨
      (i = .decodeNodeID v off ∧
        (v.length < 1 ∨ (nodeNibble (u8 v 0) = 0#4 ∧ v.length < 5) ∨ (nodeNibble (u8 v 0) = 1#4 ∧ v.length < 17))) ∨
      (i = .decodeFSEID v off ∧
        (v.length < 1 ∨ v.length < needFSEID ((u8 v 0).getLsbD 1) ((u8 v 0).getLsbD 0))) ∨
      (i = .nodeIdV4 v off ∧ selectsForm v .v4 = true ∧ v.length < 5) ∨
      (i = .nodeIdV6 v off ∧ selectsForm v .v6 = true ∧ v.length < 17)) →
    ∃ t, exec i s = .next t ∧ t.status = ⟨4#4, false, false, off⟩ ∧ t.result = .err ⟨.invalidConditionalLayout, off⟩ ∧
      t.out = s.out ∧ t.phase = s.phase ∧ t.registry = s.registry ∧ t.cfg = s.cfg ∧ t.pending = s.pending

/-- The leaf codecs undo one another (R199): decoding what an encoder produced gives the value back, and encoding
what a decoder produced gives the octets back with the spare bits of octet 0 cleared; no octet is lost. -/
def Obligations.ValueCodecsRoundTrip : Prop :=
  ∀ (cfg : Cfg) (o off : Nat), cfg.fteidFlagPos.injective = true →
    (∀ c : CauseValue, decodeCause (encodeCause c) off = .ok c) ∧
    (∀ (f : FTEID) (b : Bytes), encodeFTEID cfg f o = .ok b → decodeFTEID cfg b off = .ok f) ∧
    (∀ n : NodeIdValue, decodeNodeID (encodeNodeID n) off = .ok n) ∧
    (∀ (f : FSEID) (b : Bytes), encodeFSEID f o = .ok b → decodeFSEID b off = .ok f) ∧
    (∀ (v : Bytes) (c : CauseValue), decodeCause v off = .ok c →
      encodeCause c = v ∧ valueSize (.cause c) = v.length) ∧
    (∀ (v : Bytes) (f : FTEID), decodeFTEID cfg v off = .ok f →
      encodeFTEID cfg f o = .ok (clearOctet0 0xF0#8 v) ∧ valueSize (.fteid f) = v.length) ∧
    (∀ (v : Bytes) (n : NodeIdValue), decodeNodeID v off = .ok n →
      encodeNodeID n = clearOctet0 0xF0#8 v ∧ valueSize (.nodeId n) = v.length) ∧
    (∀ (v : Bytes) (f : FSEID), decodeFSEID v off = .ok f →
      encodeFSEID f o = .ok (clearOctet0 0xFC#8 v) ∧ valueSize (.fseid f) = v.length)

/-! ### IE lists, dispatch, grouped IEs -/

/-- The errors of DecodeIEList (R140, R142, R249, R250), through DECODE_IE_LIST. The bound checks of a turn: prefix
before value, buffer before window, at the offset where the IE starts. An error inside a grouped IE of a turn whose bounds
hold is the list's error, with the inner offset. A later turn's error is the list's error, at the offset that counts the
IEs before it. A window that reaches beyond a buffer of complete IEs gives TruncatedIE where the next prefix would
start. -/
def Obligations.ListBoundChecks : Prop :=
  (∀ (s : State) (b rest : Bytes) (t1 t2 l1 l2 : Byte) (total depth base : Nat), total ≠ 0 →
    (b.length < 4 → ∃ t, exec (.decodeIEList b total depth base) s = .next t ∧
      t.status = ⟨2#4, false, false, base⟩ ∧ t.result = .err ⟨.truncatedIE, base⟩) ∧
    (4 ≤ b.length → total < 4 → ∃ t, exec (.decodeIEList b total depth base) s = .next t ∧
      t.status = ⟨3#4, false, false, base⟩ ∧ t.result = .err ⟨.overrunIE, base⟩) ∧
    (4 ≤ total → rest.length < l1.toNat * 256 + l2.toNat → ∃ t,
      exec (.decodeIEList (t1 :: t2 :: l1 :: l2 :: rest) total depth base) s = .next t ∧
      t.status = ⟨2#4, false, false, base⟩ ∧ t.result = .err ⟨.truncatedIE, base⟩) ∧
    (4 ≤ total → l1.toNat * 256 + l2.toNat ≤ rest.length → total < 4 + (l1.toNat * 256 + l2.toNat) → ∃ t,
      exec (.decodeIEList (t1 :: t2 :: l1 :: l2 :: rest) total depth base) s = .next t ∧
      t.status = ⟨3#4, false, false, base⟩ ∧ t.result = .err ⟨.overrunIE, base⟩)) ∧
  (∀ (s : State) (v rest : Bytes) (t1 t2 l1 l2 : Byte) (total depth base : Nat) (e : Err),
    s.registry.kindAt (t1 ++ t2) = some .grouped → depth < s.cfg.maxDepth →
    v.length = l1.toNat * 256 + l2.toNat → 4 + v.length ≤ total →
    decodeIEList s.cfg s.registry v v.length (depth + 1) (base + 4) = .error e → ∃ t,
      exec (.decodeIEList (t1 :: t2 :: l1 :: l2 :: (v ++ rest)) total depth base) s = .next t ∧
      t.status = ⟨errCode e.kind, false, false, e.off⟩ ∧ t.result = .err e) ∧
  (∀ (s : State) (b1 b2 : Bytes) (ies : IEList) (total depth base : Nat) (e : Err),
    decodeIEList s.cfg s.registry b1 b1.length depth base = .ok ies →
    decodeIEList s.cfg s.registry b2 total depth (base + b1.length) = .error e → ∃ t,
      exec (.decodeIEList (b1 ++ b2) (b1.length + total) depth base) s = .next t ∧
      t.status = ⟨errCode e.kind, false, false, e.off⟩ ∧ t.result = .err e) ∧
  (∀ (s : State) (b : Bytes) (ies : IEList) (total depth base : Nat),
    decodeIEList s.cfg s.registry b b.length depth base = .ok ies → b.length < total → ∃ t,
      exec (.decodeIEList b total depth base) s = .next t ∧
      t.status = ⟨2#4, false, false, base + b.length⟩ ∧ t.result = .err ⟨.truncatedIE, base + b.length⟩)

/-- Inside a grouped IE only TruncatedIE can arise from the loop, never OverrunIE (R142). -/
def Obligations.NoOverrunInsideGrouped : Prop :=
  ∀ (cfg : Cfg) (reg : Registry) (v : Bytes) (depth off : Nat) (e : Err),
    (decodeIEList cfg reg v v.length depth off = .error e → e.kind ≠ .overrunIE) ∧
    (decodeGrouped cfg reg v depth off = .error e → e.kind ≠ .overrunIE)

/-- Exact fill (R143): a decoded list accounts for exactly the octets of its window, all of which are there. Nesting
(R197): it holds no grouped IE deeper than `MAX_DEPTH`. DECODE_IE_LIST completes on it, changing nothing but the bus and
CUR, and CUR ends at the window's end; that CUR stands there after the row run by itself is the model's reading
(assumption 11), and it is said of windows that end within a message (R22; assumption 17). -/
def Obligations.DecodedListFillsWindow : Prop :=
  ∀ (s : State) (b : Bytes) (total depth base : Nat) (ies : IEList),
    decodeIEList s.cfg s.registry b total depth base = .ok ies →
    listSize ies = total ∧ total ≤ b.length ∧ listNesting ies + depth ≤ max depth s.cfg.maxDepth ∧
    ∃ cur : BitVec 17, exec (.decodeIEList b total depth base) s =
        .next { s with bus := .list ies, work := { s.work with cur := cur } } ∧
      (base + total ≤ 65539 → cur.toNat = base + total)

/-- List round trip (R151). Encode first: DECODE_IE_LIST on the octets of an encoded list, with any octets after the
window, gives the list back, changing nothing but the bus and CUR. Decode first: encoding a decoded list succeeds and
gives the window's octets with the spare bits of every flags octet cleared. That CUR stands at the end of the window
after the row run by itself (R141, R143) is the model's reading (assumption 11), said of windows that end within a
message, where CUR never wraps (R22; assumption 17). -/
def Obligations.ListRoundTrip : Prop :=
  (∀ (s : State) (ies : IEList) (depth off base : Nat) (b rest : Bytes), s.cfg.fteidFlagPos.injective = true →
    encodeIEList s.cfg s.registry ies depth off = .ok b →
    ∃ cur : BitVec 17, exec (.decodeIEList (b ++ rest) b.length depth base) s =
        .next { s with bus := .list ies, work := { s.work with cur := cur } } ∧
      (base + b.length ≤ 65539 → cur.toNat = base + b.length)) ∧
  (∀ (s : State) (b : Bytes) (total depth base off : Nat) (ies : IEList), s.cfg.fteidFlagPos.injective = true →
    decodeIEList s.cfg s.registry b total depth base = .ok ies →
    exec (.encodeIEList ies depth off) s =
      .next { s with bus := .octets (clearListFuel s.registry total (b.take total)) })

/-- ENCODE_IE_LIST, ENCODE_VALUE and the encode rows of the grouped IEs complete on every encodable operand, with
exactly the octets R148 counts, and change nothing but the bus (R145, R164, R198). -/
def Obligations.EncodableOperandsComplete : Prop :=
  ∀ (s : State) (ies : IEList) (x : IE) (depth off : Nat),
    (encodableList s.cfg s.registry ies depth = true → ∃ b,
      exec (.encodeIEList ies depth off) s = .next { s with bus := .octets b } ∧ b.length = listSize ies) ∧
    (encodableValue s.cfg s.registry x.type x.value depth = true → ∃ b,
      exec (.encodeValue x depth off) s = .next { s with bus := .octets b } ∧ b.length = valueSize x.value) ∧
    (encodableList s.cfg s.registry ies (depth + 1) = true → depth < s.cfg.maxDepth → ∃ b,
      exec (.encodeGroupedCreatePDR ies depth off) s = .next { s with bus := .octets b } ∧
      exec (.encodeGroupedPDI ies depth off) s = .next { s with bus := .octets b } ∧ b.length = listSize ies)

/-- One IE as EncodeIEList emits it (R145, R146, R150): its type, the exact byte count of its value, the value, then
the rest of the list. -/
def Obligations.EmittedLengthFieldIsValueSize : Prop :=
  ∀ (cfg : Cfg) (reg : Registry) (t : BitVec 16) (v : Value) (rest : IEList) (depth off : Nat) (b : Bytes),
    encodeIEList cfg reg (.cons t v rest) depth off = .ok b → ∃ vb rb : Bytes,
      b = beBytes 2 t.toNat ++ beBytes 2 (valueSize v) ++ vb ++ rb ∧ vb.length = valueSize v ∧
      (u16 b 2).toNat = valueSize v ∧ encodeValueAt cfg reg t v depth off = .ok vb ∧
      encodeIEList cfg reg rest depth (off + 4 + valueSize v) = .ok rb

/-- An IE whose type has no registry entry is a normal, lossless path in both directions (R162, R163, R164). -/
def Obligations.UnregisteredTypesPassThrough : Prop :=
  ∀ (s : State) (t : BitVec 16) (raw : Bytes) (depth off : Nat), s.registry.kindAt t = none →
    exec (.decodeValue t raw depth off) s = .next { s with bus := .ie ⟨t, .unrecognized raw⟩ } ∧
    exec (.encodeValue ⟨t, .unrecognized raw⟩ depth off) s = .next { s with bus := .octets raw }

/-- DECODE_VALUE undoes ENCODE_VALUE for every kind (R162, R164, R199): the registry opens the octets as the variant
they were encoded from; a grouped value leaves CUR at its end, no other moves it (R141). Where CUR stands after the row
run by itself is the model's reading (assumption 11), said of values that end within a message (R22; assumption 17). -/
def Obligations.EncodedValueDecodes : Prop :=
  ∀ (s : State) (x : IE) (depth o ieOff : Nat) (b : Bytes), s.cfg.fteidFlagPos.injective = true →
    encodeValue s.cfg s.registry x depth o = .ok b → ∃ t,
    exec (.decodeValue x.type b depth ieOff) s = .next t ∧
    ((∃ children, x.value = .grouped children) → ∃ cur : BitVec 17,
      t = { s with bus := .ie x, work := { s.work with cur := cur } } ∧
      (ieOff + 4 + b.length ≤ 65539 → cur.toNat = ieOff + 4 + b.length)) ∧
    ((∀ children, x.value ≠ .grouped children) → t = { s with bus := .ie x })

/-- EncodeValue's variant check (R164): a value whose variant is not the one the registry has for its type is refused
with InconsistentIEValue at the IE's offset, before anything else about it. -/
def Obligations.WrongVariantRefused : Prop :=
  ∀ (s : State) (x : IE) (depth o : Nat), variantOf x.value ≠ s.registry.kindAt x.type → ∃ t,
    exec (.encodeValue x depth o) s = .next t ∧ t.status = ⟨5#4, false, false, o⟩ ∧
    t.result = .err ⟨.inconsistentIEValue, o⟩ ∧ t.phase = s.phase ∧ t.registry = s.registry

/-- The depth limit (R197, R198): in a list at depth `MAX_DEPTH` or more a grouped IE is refused with DepthExceeded at
its own offset before any octet or child of it is looked at, on decode and on encode, for both grouped rows. -/
def Obligations.DepthLimit : Prop :=
  ∀ (s : State) (v : Bytes) (children : IEList) (depth off : Nat) (i : Instr), s.cfg.maxDepth ≤ depth →
    (i = .decodeGroupedCreatePDR v depth off ∨ i = .decodeGroupedPDI v depth off ∨
      i = .encodeGroupedCreatePDR children depth off ∨ i = .encodeGroupedPDI children depth off) →
    ∃ t, exec i s = .next t ∧ t.status = ⟨6#4, false, false, off⟩ ∧ t.result = .err ⟨.depthExceeded, off⟩ ∧
      t.phase = s.phase ∧ t.registry = s.registry

/-- DECODE_GROUPED (R197) below the depth limit on the octets of an encoded list: the children come back, with CUR at
the end of the value (R141), for both grouped rows. Where CUR stands after the row run by itself is the model's reading
(assumption 11), said of values that end within a message (R22; assumption 17). -/
def Obligations.EncodedGroupDecodes : Prop :=
  ∀ (s : State) (children : IEList) (depth o ieOff : Nat) (b : Bytes), s.cfg.fteidFlagPos.injective = true →
    depth < s.cfg.maxDepth → encodeIEList s.cfg s.registry children (depth + 1) o = .ok b →
    ∃ cur : BitVec 17, (ieOff + 4 + b.length ≤ 65539 → cur.toNat = ieOff + 4 + b.length) ∧
      exec (.decodeGroupedCreatePDR b depth ieOff) s =
        .next { s with bus := .value (.grouped children), work := { s.work with cur := cur } } ∧
      exec (.decodeGroupedPDI b depth ieOff) s =
        .next { s with bus := .value (.grouped children), work := { s.work with cur := cur } }

/-! ### DECODE and ENCODE -/

/-- DECODE in RUN (R221, R222, R246): when the header is there, its length covers its own remainder, and the body
decodes in the window that leaves, DECODE completes with the outputs of R221 and STATUS `(0, UV, UK, 0)`; when
DecodeHeader ends with an error, or DecodeIEList does, DECODE delivers that error with its offset. In every case OUT,
phase, registry, CFG and the requests behind it are unchanged. -/
def Obligations.DecodeResult : Prop :=
  (∀ (s : State) (input : Bytes) (d : DecodedHeader) (ies : IEList), s.phase = .run → decodeHeader input = .ok d →
    d.size - 4 ≤ d.length.toNat →
    decodeIEList s.cfg s.registry (input.drop d.size) (d.length.toNat - (d.size - 4)) 0 d.size = .ok ies →
    ∃ (t : State) (k : MessageKind), exec (.decode input) s = .next t ∧
      k = classify s.cfg d.hdr.session.isSome d.hdr.messageType ∧
      t.result = .decoded { msg := { hdr := d.hdr, ies := ies }, length := d.length, kind := k
                            consumed := 4 + d.length.toNat
                            uv := decide (d.hdr.version ≠ s.cfg.supportedVersion), uk := decide (k = .unknown) } ∧
      t.status = ⟨0#4, decide (d.hdr.version ≠ s.cfg.supportedVersion), decide (k = .unknown), 0⟩ ∧
      t.out = s.out ∧ t.phase = s.phase ∧ t.registry = s.registry ∧ t.cfg = s.cfg ∧ t.pending = s.pending) ∧
  (∀ (s : State) (input : Bytes) (e : Err), s.phase = .run →
    (decodeHeader input = .error e ∨ ∃ d : DecodedHeader, decodeHeader input = .ok d ∧ d.size - 4 ≤ d.length.toNat ∧
      decodeIEList s.cfg s.registry (input.drop d.size) (d.length.toNat - (d.size - 4)) 0 d.size = .error e) →
    ∃ t, exec (.decode input) s = .next t ∧ t.status = ⟨errCode e.kind, false, false, e.off⟩ ∧ t.result = .err e ∧
      t.out = s.out ∧ t.phase = s.phase ∧ t.registry = s.registry ∧ t.cfg = s.cfg ∧ t.pending = s.pending)

/-- ENCODE in RUN succeeds exactly on the encodable Messages (R229), and then completes with `OUT` delivered, STATUS
all zero, and phase, registry, CFG and pending requests unchanged (R223). -/
def Obligations.EncodeSucceedsExactly : Prop :=
  ∀ (s : State) (m : Message), s.phase = .run →
    ((∃ t out, exec (.encode m) s = .next t ∧ t.result = .encoded out) ↔ encodable s.cfg s.registry m = true) ∧
    (encodable s.cfg s.registry m = true → ∃ t out, exec (.encode m) s = .next t ∧ t.result = .encoded out ∧
      t.out = out ∧ t.status = ⟨0#4, false, false, 0⟩ ∧ t.phase = s.phase ∧ t.registry = s.registry ∧
      t.cfg = s.cfg ∧ t.pending = s.pending)

/-- Round trip, encode first (R226): when ENCODE of `m` delivers `OUT`, DECODE of `OUT` in any state with the same
registry and CFG in RUN completes and delivers `m` with the outputs R226 lists, and changes nothing else the spec
defines. -/
def Obligations.DecodeUndoesEncode : Prop :=
  ∀ (s t s' : State) (m : Message) (out : Bytes), s.cfg.fteidFlagPos.injective = true → s.phase = .run →
    exec (.encode m) s = .next t → t.result = .encoded out →
    s'.phase = .run → s'.cfg = s.cfg → s'.registry = s.registry →
    ∃ (t' : State) (k : MessageKind), exec (.decode out) s' = .next t' ∧
      k = classify s.cfg m.isSession m.hdr.messageType ∧
      t'.result = .decoded { msg := m, length := BitVec.ofNat 16 (out.length - 4), kind := k, consumed := out.length,
                             uv := decide (m.hdr.version ≠ s.cfg.supportedVersion), uk := decide (k = .unknown) } ∧
      t'.status = ⟨0#4, decide (m.hdr.version ≠ s.cfg.supportedVersion), decide (k = .unknown), 0⟩ ∧
      t'.phase = s'.phase ∧ t'.registry = s'.registry ∧ t'.cfg = s'.cfg ∧ t'.out = s'.out ∧ t'.pending = s'.pending

/-- Round trip, decode first (R227, R228): when DECODE of `IN` delivers a Message, ENCODE of it succeeds with
`consumed` octets, equal to `IN[0 : consumed]` with the spare bits cleared; and equal to `IN` exactly when the buffer
is canonical and has no octets after the message. -/
def Obligations.EncodeUndoesDecode : Prop :=
  ∀ (s t : State) (input : Bytes) (r : DecodeOk), s.cfg.fteidFlagPos.injective = true → s.phase = .run →
    exec (.decode input) s = .next t → t.result = .decoded r →
    ∃ u out, exec (.encode r.msg) s = .next u ∧ u.result = .encoded out ∧ out.length = r.consumed ∧
      out = clearSpare s.registry (input.take r.consumed) ∧
      (out = input ↔ canonical s.registry (input.take r.consumed) = true ∧ input.length = r.consumed)

/-- The header length invariant (R225): after a successful ENCODE octets 2 and 3 of OUT hold `len(OUT) - 4`, which is
`MsgLength(m)`; after a successful DECODE the delivered length is `MsgLength` of the delivered Message. -/
def Obligations.HeaderLengthInvariant : Prop :=
  (∀ (s t : State) (m : Message) (out : Bytes), s.phase = .run → exec (.encode m) s = .next t →
    t.result = .encoded out → (u16 out 2).toNat = out.length - 4 ∧ out.length - 4 = msgLength m ∧ 4 ≤ out.length) ∧
  (∀ (s t : State) (input : Bytes) (r : DecodeOk), s.phase = .run → exec (.decode input) s = .next t →
    t.result = .decoded r → r.length.toNat = msgLength r.msg)

/-- DECODE reads no octet at or beyond `4 + length` (R230). When it delivers a Message, the message lies inside the
buffer and replacing everything after it, by any number of octets, changes nothing. However it ends, with a Message or
with an error, the content of the octets at or beyond `4 + length` changes nothing, their number being the same. -/
def Obligations.DecodeReadsOnlyTheMessage : Prop :=
  (∀ (s t : State) (input extra : Bytes) (r : DecodeOk), s.phase = .run → exec (.decode input) s = .next t →
    t.result = .decoded r →
    r.consumed = 4 + r.length.toNat ∧ r.consumed ≤ input.length ∧
    ∃ u, exec (.decode (input.take r.consumed ++ extra)) s = .next u ∧ u.result = .decoded r ∧ u.status = t.status) ∧
  (∀ (s : State) (message extra extra' : Bytes), s.phase = .run → message.length = 4 + (u16 message 2).toNat →
    extra.length = extra'.length → ∃ t u,
    exec (.decode (message ++ extra)) s = .next t ∧ exec (.decode (message ++ extra')) s = .next u ∧
    t.result = u.result ∧ t.status = u.status)

/-- The result of a DECODE or an ENCODE depends only on its input, the phase, CFG, and the kinds in the registry: not
on display names, working registers, STATUS, OUT or any earlier command (R25, R64, R168). -/
def Obligations.ResultsDependOnlyOnRegistryKinds : Prop :=
  ∀ (s s' : State) (i : Instr), (∃ input, i = .decode input) ∨ (∃ m, i = .encode m) →
    s.phase = s'.phase → s.cfg = s'.cfg → (∀ t : BitVec 16, s.registry.kindAt t = s'.registry.kindAt t) →
    ∃ t t', exec i s = .next t ∧ exec i s' = .next t' ∧ t.result = t'.result ∧ t.status = t'.status

/-- The report flags of a DECODE (R26, R231): UV says the version is not the supported one and UK that the kind is
Unknown; and neither changes anything else: with any other version and message type in the same octets DECODE
delivers the same Message but for those two fields, and consumes the same octets. -/
def Obligations.ReportsDoNotStopDecode : Prop :=
  ∀ (s t : State) (b0 mt : Byte) (rest : Bytes) (r : DecodeOk), s.phase = .run →
    exec (.decode (b0 :: mt :: rest)) s = .next t → t.result = .decoded r →
    r.uv = decide (r.msg.hdr.version ≠ s.cfg.supportedVersion) ∧
    r.uk = decide (classify s.cfg r.msg.isSession r.msg.hdr.messageType = .unknown) ∧
    t.status = ⟨0#4, r.uv, r.uk, 0⟩ ∧
    ∀ (b0' mt' : Byte), b0'.getLsbD 0 = b0.getLsbD 0 → b0'.getLsbD 1 = b0.getLsbD 1 → ∃ (u : State) (r' : DecodeOk),
      exec (.decode (b0' :: mt' :: rest)) s = .next u ∧ u.result = .decoded r' ∧
      r'.msg = { r.msg with hdr := { r.msg.hdr with version := b0'.extractLsb' 5 3, messageType := mt' } } ∧
      r'.length = r.length ∧ r'.consumed = r.consumed

/-- Which errors each side can end with, by kind and by `STATUS.CODE` (R241): DECODE codes 1 to 4, 6 and 8; ENCODE codes
5 to 8; and the offset of a DECODE error is at most 65539 (R247). -/
def Obligations.ErrorKindsBySide : Prop :=
  (∀ (s t : State) (input : Bytes) (e : Err), exec (.decode input) s = .next t → t.result = .err e →
    e.kind ∈ [.truncatedHeader, .truncatedIE, .overrunIE, .invalidConditionalLayout, .depthExceeded, .notInitialised] ∧
    t.status.code ∈ [1#4, 2#4, 3#4, 4#4, 6#4, 8#4] ∧ e.off ≤ 65539) ∧
  (∀ (s t : State) (m : Message) (e : Err), exec (.encode m) s = .next t → t.result = .err e →
    e.kind ∈ [.inconsistentIEValue, .depthExceeded, .lengthOverflow, .notInitialised] ∧
    t.status.code ∈ [5#4, 6#4, 7#4, 8#4])

/-- The working registers of DECODE (R22, R23, R25): whatever they held, the register version delivers what the pure
function of R221 does, its errors and their offsets included; on success CUR ends one past the message, which is
`consumed`, with DEPTH back at 0 and the body's window alone on the stack. -/
def Obligations.DecodeRegistersAtEnd : Prop :=
  ∀ (cfg : Cfg) (reg : Registry) (input : Bytes) (w : Work),
    (microDecode cfg reg input w).map (fun x => x.1) = decodeMessage cfg reg input ∧
    ∀ (r : DecodeOk) (w' : Work), microDecode cfg reg input w = .ok (r, w') →
      w'.cur.toNat = r.consumed ∧ r.consumed = 4 + r.length.toNat ∧
      w'.depth = 0 ∧ w'.win = [BitVec.ofNat 17 r.consumed] ∧ w'.ocur = w.ocur ∧ w'.patch = w.patch

/-- The working registers of ENCODE (R24, R146, R224): whatever they held, back-patching delivers what the pure function
of R223 does, its errors and their offsets included; on success OCUR ends at the number of octets emitted, every length
field has been patched, and DEPTH is back at 0. -/
def Obligations.EncodeRegistersAtEnd : Prop :=
  ∀ (cfg : Cfg) (reg : Registry) (m : Message) (w : Work),
    (microEncode cfg reg m w).map (fun x => x.1) = encodeMessage cfg reg m ∧
    ∀ (out : Bytes) (w' : Work), microEncode cfg reg m w = .ok (out, w') →
      w'.ocur = out.length ∧ w'.patch = [] ∧ w'.depth = 0 ∧ w'.cur = w.cur ∧ w'.win = w.win

/-- The errors of ENCODE (R145, R146, R223, R224, R247, R250). ENCODE_IE_LIST ends with the error of the first IE, after
the IEs that encode, whose value does not; or with LengthOverflow, STATUS `(7, 0, 0, off)`, where that IE's value has
more than 65535 octets; `off` counts the IEs before it. A grouped value's error is its children's, which start 4 octets
on. ENCODE in RUN delivers the error of its IE list; and when every IE is encodable and `MsgLength` is more than 65535 it
ends with STATUS `(7, 0, 0, 0)`. Phase, registry, CFG and waiting requests are unchanged. -/
def Obligations.EncodeReportsFirstError : Prop :=
  (∀ (s : State) (before after : IEList) (ty : BitVec 16) (v : Value) (depth off : Nat) (b : Bytes),
    encodeIEList s.cfg s.registry before depth off = .ok b →
    (∀ e : Err, encodeValueAt s.cfg s.registry ty v depth (off + b.length) = .error e → ∃ t,
      exec (.encodeIEList (before.append (.cons ty v after)) depth off) s = .next t ∧
      t.status = ⟨errCode e.kind, false, false, e.off⟩ ∧ t.result = .err e ∧
      t.phase = s.phase ∧ t.registry = s.registry ∧ t.cfg = s.cfg ∧ t.pending = s.pending) ∧
    (∀ vb : Bytes, encodeValueAt s.cfg s.registry ty v depth (off + b.length) = .ok vb → 65535 < vb.length → ∃ t,
      exec (.encodeIEList (before.append (.cons ty v after)) depth off) s = .next t ∧
      t.status = ⟨7#4, false, false, off + b.length⟩ ∧ t.result = .err ⟨.lengthOverflow, off + b.length⟩ ∧
      t.phase = s.phase ∧ t.registry = s.registry ∧ t.cfg = s.cfg ∧ t.pending = s.pending)) ∧
  (∀ (s : State) (ty : BitVec 16) (children : IEList) (depth o : Nat) (e : Err),
    s.registry.kindAt ty = some .grouped → depth < s.cfg.maxDepth →
    encodeIEList s.cfg s.registry children (depth + 1) (o + 4) = .error e → ∃ t,
      exec (.encodeValue ⟨ty, .grouped children⟩ depth o) s = .next t ∧
      t.status = ⟨errCode e.kind, false, false, e.off⟩ ∧ t.result = .err e) ∧
  (∀ (s : State) (m : Message), s.phase = .run →
    (∀ e : Err, encodeIEList s.cfg s.registry m.ies 0 (headerSize m.hdr) = .error e → ∃ t,
      exec (.encode m) s = .next t ∧ t.status = ⟨errCode e.kind, false, false, e.off⟩ ∧ t.result = .err e ∧
      t.phase = s.phase ∧ t.registry = s.registry ∧ t.cfg = s.cfg ∧ t.pending = s.pending) ∧
    (encodableList s.cfg s.registry m.ies 0 = true → 65535 < msgLength m → ∃ t,
      exec (.encode m) s = .next t ∧ t.status = ⟨7#4, false, false, 0⟩ ∧ t.result = .err ⟨.lengthOverflow, 0⟩ ∧
      t.phase = s.phase ∧ t.registry = s.registry ∧ t.cfg = s.cfg ∧ t.pending = s.pending))
end

