-- ==== Sys2Proof/Laws/Bytes.lean ====
section
/-! SUPPORT. Laws of the read and write primitives (`spec/20_memory.md` R56, R57). -/

namespace Sys2Proof.Machine

@[simp] theorem beNat_nil : beNat [] = 0 := rfl

theorem beNat_cons (x : Byte) (xs : Bytes) : beNat (x :: xs) = x.toNat * 256 ^ xs.length + beNat xs := rfl

theorem beNat_lt (b : Bytes) : beNat b < 256 ^ b.length := by
  induction b with
  | nil => simp
  | cons x xs ih =>
    have hx : x.toNat < 256 := x.isLt
    rw [beNat_cons, List.length_cons, pow_succ]
    nlinarith [Nat.pos_of_ne_zero (show (256 ^ xs.length) ≠ 0 by positivity)]

@[simp] theorem beBytes_length (n v : Nat) : (beBytes n v).length = n := by
  induction n with
  | zero => rfl
  | succ n ih => simp [beBytes, ih]

theorem beNat_beBytes (n v : Nat) : beNat (beBytes n v) = v % 256 ^ n := by
  induction n with
  | zero => simp [beBytes, Nat.mod_one]
  | succ n ih =>
    have h256 : (2 : Nat) ^ (8 * n) = 256 ^ n := by rw [pow_mul]; norm_num
    rw [beBytes, beNat_cons, ih, beBytes_length, BitVec.toNat_ofNat, Nat.shiftRight_eq_div_pow, h256,
      show (256 : Nat) ^ (n + 1) = 256 ^ n * 256 from pow_succ 256 n, @Nat.mod_mul (256 ^ n) 256 v, Nat.add_comm,
      Nat.mul_comm (256 ^ n)]

/-- Writing then reading an integer that fits gives it back (R57). -/
theorem beNat_beBytes_of_lt {n v : Nat} (h : v < 256 ^ n) : beNat (beBytes n v) = v := by
  rw [beNat_beBytes, Nat.mod_eq_of_lt h]

theorem beBytes_add_mul (n k v : Nat) : beBytes n (k * 256 ^ n + v) = beBytes n v := by
  induction n generalizing k with
  | zero => rfl
  | succ n ih =>
    have h256 : (2 : Nat) ^ (8 * n) = 256 ^ n := by rw [pow_mul]; norm_num
    simp only [beBytes, List.cons.injEq]
    constructor
    · apply BitVec.eq_of_toNat_eq
      rw [BitVec.toNat_ofNat, BitVec.toNat_ofNat, Nat.shiftRight_eq_div_pow, Nat.shiftRight_eq_div_pow, h256,
        show k * 256 ^ (n + 1) + v = v + 256 ^ n * (k * 256) by rw [pow_succ]; ring,
        Nat.add_mul_div_left _ _ (by positivity)]
      omega
    · rw [show k * 256 ^ (n + 1) + v = (k * 256) * 256 ^ n + v by rw [pow_succ]; ring]
      exact ih (k * 256)

/-- Reading then writing gives the octets back (R57). -/
theorem beBytes_beNat (b : Bytes) : beBytes b.length (beNat b) = b := by
  induction b with
  | nil => rfl
  | cons x xs ih =>
    have h256 : (2 : Nat) ^ (8 * xs.length) = 256 ^ xs.length := by rw [pow_mul]; norm_num
    rw [List.length_cons, beBytes, beNat_cons, beBytes_add_mul, ih]
    congr 1
    apply BitVec.eq_of_toNat_eq
    rw [BitVec.toNat_ofNat, Nat.shiftRight_eq_div_pow, h256, Nat.add_comm, Nat.add_mul_div_right _ _ (by positivity),
      Nat.div_eq_of_lt (beNat_lt xs)]
    have := x.isLt
    omega

/-! ### Slices -/

@[simp] theorem slice_length (b : Bytes) (p n : Nat) : (slice b p n).length = min n (b.length - p) := by
  simp [slice]

theorem slice_append_left {a b : Bytes} {p n : Nat} (h : p + n ≤ a.length) : slice (a ++ b) p n = slice a p n := by
  unfold slice
  rw [List.drop_append_of_le_length (by omega), List.take_append_of_le_length (by simp; omega)]

theorem slice_append_right (a b : Bytes) (p n : Nat) : slice (a ++ b) (a.length + p) n = slice b p n := by
  unfold slice
  rw [List.drop_append, List.drop_of_length_le (by omega)]
  simp

theorem slice_slice (b : Bytes) (p q n m : Nat) (h : q + m ≤ n) : slice (slice b p n) q m = slice b (p + q) m := by
  unfold slice
  rw [List.drop_take, List.drop_drop, List.take_take, Nat.min_eq_left (by omega)]

theorem slice_drop (b : Bytes) (k p n : Nat) : slice (b.drop k) p n = slice b (k + p) n := by
  unfold slice
  rw [List.drop_drop]

theorem slice_take (b : Bytes) {e p n : Nat} (h : p + n ≤ e) : slice (b.take e) p n = slice b p n := by
  unfold slice
  rw [List.drop_take, List.take_take, Nat.min_eq_left (by omega)]

theorem u16_take (b : Bytes) {e p : Nat} (h : p + 2 ≤ e) : u16 (b.take e) p = u16 b p := by
  unfold u16 memRead; rw [slice_take b h]

theorem take_drop_slice (b : Bytes) (e p n : Nat) (h : p + n ≤ e) : ((b.take e).drop p).take n = slice b p n :=
  slice_take b h

@[simp] theorem slice_zero_length (b : Bytes) : slice b 0 b.length = b := by simp [slice]

theorem slice_zero_append (a b : Bytes) : slice (a ++ b) 0 a.length = a := by simp [slice]

theorem memRead_append_left {a b : Bytes} {p n : Nat} (h : p + n ≤ a.length) :
    memRead (a ++ b) p n = memRead a p n := by
  unfold memRead; rw [slice_append_left h]

theorem memRead_append_right (a b : Bytes) (p n : Nat) : memRead (a ++ b) (a.length + p) n = memRead b p n := by
  unfold memRead; rw [slice_append_right]

theorem memRead_drop (b : Bytes) (k p n : Nat) : memRead (b.drop k) p n = memRead b (k + p) n := by
  unfold memRead; rw [slice_drop]

theorem u16_drop (b : Bytes) (k p : Nat) : u16 (b.drop k) p = u16 b (k + p) := by
  unfold u16; rw [memRead_drop]

theorem u16_slice (b : Bytes) (p n q : Nat) (h : q + 2 ≤ n) : u16 (slice b p n) q = u16 b (p + q) := by
  unfold u16 memRead; rw [slice_slice b p q n 2 h]

theorem u8_cons_zero (x : Byte) (xs : Bytes) : u8 (x :: xs) 0 = x := by
  simp [u8, memRead, slice, beNat]

/-- A 16-bit field written big-endian reads back (R57). -/
theorem u16_beBytes (v : BitVec 16) (rest : Bytes) : u16 (beBytes 2 v.toNat ++ rest) 0 = v := by
  apply BitVec.eq_of_toNat_eq
  have hv : v.toNat < 256 ^ 2 := v.isLt
  have : slice (beBytes 2 v.toNat ++ rest) 0 2 = beBytes 2 v.toNat := slice_zero_append (beBytes 2 v.toNat) rest
  rw [u16, memRead, this, beNat_beBytes_of_lt hv, BitVec.ofNat_toNat]
  simp

@[simp] theorem octetsAt_bytes {n : Nat} {b : Bytes} {p : Nat} (h : p + n ≤ b.length) :
    (octetsAt n b p).bytes = slice b p n := by
  have hl : (slice b p n).length = n := by simp; omega
  simp [octetsAt, hl]

theorem octetsAt_append (a : Octets n) (pre post : Bytes) : octetsAt n (pre ++ a.bytes ++ post) pre.length = a := by
  have hb : (octetsAt n (pre ++ a.bytes ++ post) pre.length).bytes = a.bytes := by
    rw [octetsAt_bytes (by simp [a.len])]
    have := slice_append_right pre (a.bytes ++ post) 0 n
    rw [Nat.add_zero, ← List.append_assoc] at this
    have hn := slice_zero_append a.bytes post
    rw [a.len] at hn
    rw [this, hn]
  cases a with
  | mk bs hl => cases h : octetsAt n (pre ++ bs ++ post) pre.length with
    | mk b2 l2 => rw [h] at hb; simp at hb; subst hb; rfl

/-! ### `MemWrite` -/

/-- Patching two octets inside an emitted string replaces exactly them (R57). -/
theorem memWrite_append (a old c : Bytes) (n v : Nat) (h : old.length = n) :
    memWrite (a ++ old ++ c) a.length n v = a ++ beBytes n v ++ c := by
  subst h
  have h1 : (a ++ (old ++ c)).take a.length = a := List.take_left' rfl
  have h2 : (a ++ (old ++ c)).drop (a.length + old.length) = c := by
    rw [← List.append_assoc]; exact List.drop_left' (by simp)
  rw [memWrite, List.append_assoc a old c, h1, h2]

@[simp] theorem memWrite_length (out : Bytes) (p n v : Nat) (h : p + n ≤ out.length) :
    (memWrite out p n v).length = out.length := by
  simp [memWrite]; omega

end Sys2Proof.Machine
end

