-- ==== Sys2Proof/Laws/Codec.lean ====
section
/-! SUPPORT. Laws of the codec functions (`Machine/Header.lean`, `Values.lean`, `IEList.lean`, `Codec.lean`):
the budget of the list decoder does not matter, its equation without a budget, and the sizes of what the
encoders produce. -/

namespace Sys2Proof.Machine

/-! ### The budget (R143, R144) -/

/-- The value decoder asks the list decoder about nothing but the value's own octets. -/
theorem decodeValueWith_congr {l1 l2 : Bytes → Nat → Nat → Nat → Except Err IEList} (cfg : Cfg) (reg : Registry)
    (t : BitVec 16) (v : Bytes) (depth ieOff : Nat)
    (h : l1 v v.length (depth + 1) (ieOff + 4) = l2 v v.length (depth + 1) (ieOff + 4)) :
    decodeValueWith l1 cfg reg t v depth ieOff = decodeValueWith l2 cfg reg t v depth ieOff := by
  unfold decodeValueWith decodeGroupedWith
  rw [h]

/-- Any budget of at least the window gives the same result. -/
theorem decodeIEListFuel_eq (cfg : Cfg) (reg : Registry) :
    ∀ (n m : Nat) (b : Bytes) (total depth pos : Nat), total ≤ n → total ≤ m →
      decodeIEListFuel cfg reg n b total depth pos = decodeIEListFuel cfg reg m b total depth pos := by
  intro n
  induction n with
  | zero =>
    intro m b total depth pos hn _
    obtain rfl : total = 0 := by omega
    cases m <;> simp [decodeIEListFuel]
  | succ n ih =>
    intro m b total depth pos hn hm
    cases m with
    | zero =>
      obtain rfl : total = 0 := by omega
      simp [decodeIEListFuel]
    | succ m =>
      simp only [decodeIEListFuel]
      by_cases h0 : total = 0
      · simp [h0]
      by_cases h1 : b.length < 4
      · simp [h0, h1]
      by_cases h2 : total < 4
      · simp [h0, h1, h2]
      by_cases h3 : b.length - 4 < (u16 b 2).toNat
      · simp [h0, h1, h2, h3]
      by_cases h4 : total - 4 < (u16 b 2).toNat
      · simp [h0, h1, h2, h3, h4]
      have hL : (slice b 4 (u16 b 2).toNat).length = (u16 b 2).toNat := by rw [slice_length]; omega
      rw [decodeValueWith_congr cfg reg _ _ depth pos
          (ih m (slice b 4 (u16 b 2).toNat) (slice b 4 (u16 b 2).toNat).length (depth + 1) (pos + 4)
            (by omega) (by omega)),
        ih m (b.drop (4 + (u16 b 2).toNat)) (total - (4 + (u16 b 2).toNat)) depth (pos + 4 + (u16 b 2).toNat)
          (by omega) (by omega)]

/-- With enough budget the loop is `DecodeIEList`. -/
theorem decodeIEListFuel_enough (cfg : Cfg) (reg : Registry) {n total : Nat} (h : total ≤ n) (b : Bytes)
    (depth pos : Nat) : decodeIEListFuel cfg reg n b total depth pos = decodeIEList cfg reg b total depth pos :=
  decodeIEListFuel_eq cfg reg n total b total depth pos h (Nat.le_refl _)

/-! ### `DecodeIEList` turn by turn (R140, R142) -/

theorem decodeIEList_zero (cfg : Cfg) (reg : Registry) (b : Bytes) (depth base : Nat) :
    decodeIEList cfg reg b 0 depth base = .ok .nil := rfl

/-- One turn of the loop of R140, with `DecodeValue` in it and the rest of the list after it. -/
theorem decodeIEList_turn (cfg : Cfg) (reg : Registry) (b : Bytes) (total depth base : Nat) (h : total ≠ 0) :
    decodeIEList cfg reg b total depth base =
      if b.length < 4 then .error ⟨.truncatedIE, base⟩
      else if total < 4 then .error ⟨.overrunIE, base⟩
      else if b.length - 4 < (u16 b 2).toNat then .error ⟨.truncatedIE, base⟩
      else if total - 4 < (u16 b 2).toNat then .error ⟨.overrunIE, base⟩
      else
        match decodeValue cfg reg (u16 b 0) (slice b 4 (u16 b 2).toNat) depth base with
        | .error e => .error e
        | .ok x =>
          match decodeIEList cfg reg (b.drop (4 + (u16 b 2).toNat)) (total - (4 + (u16 b 2).toNat)) depth
              (base + 4 + (u16 b 2).toNat) with
          | .error e => .error e
          | .ok rest => .ok (.cons x.type x.value rest) := by
  obtain ⟨n, rfl⟩ : ∃ n, total = n + 1 := ⟨total - 1, by omega⟩
  rw [decodeIEList, decodeIEListFuel]
  simp only [if_neg h]
  by_cases h1 : b.length < 4
  · simp [h1]
  by_cases h2 : n + 1 < 4
  · simp [h1, h2]
  by_cases h3 : b.length - 4 < (u16 b 2).toNat
  · simp [h1, h2, h3]
  by_cases h4 : n + 1 - 4 < (u16 b 2).toNat
  · simp only [if_neg h1, if_neg h2, if_neg h3, if_pos h4]
  have hL : (slice b 4 (u16 b 2).toNat).length = (u16 b 2).toNat := by rw [slice_length]; omega
  simp only [if_neg h1, if_neg h2, if_neg h3, if_neg h4]
  rw [decodeValueWith_congr cfg reg _ _ depth base
      (decodeIEListFuel_enough cfg reg (n := n) (by omega) (slice b 4 (u16 b 2).toNat) (depth + 1) (base + 4)),
    decodeIEListFuel_enough cfg reg (by omega)]
  unfold decodeValue
  cases decodeValueWith (decodeIEList cfg reg) cfg reg (u16 b 0) (slice b 4 (u16 b 2).toNat) depth base <;> rfl

/-- The list decoder depends on the octets of its window and on how many there are, not on the octets behind the window
(R140, R230). -/
theorem decodeIEList_window (cfg : Cfg) (reg : Registry) (total : Nat) : ∀ (b b' : Bytes) (depth base : Nat),
    b.length = b'.length → b.take total = b'.take total →
    decodeIEList cfg reg b total depth base = decodeIEList cfg reg b' total depth base := by
  induction total using Nat.strongRecOn with
  | ind total ih =>
    intro b b' depth base hl ht
    by_cases h0 : total = 0
    · subst h0; rfl
    rw [decodeIEList_turn cfg reg b total depth base h0, decodeIEList_turn cfg reg b' total depth base h0, ← hl]
    by_cases h1 : b.length < 4
    · simp only [if_pos h1]
    by_cases h2 : total < 4
    · simp only [if_neg h1, if_pos h2]
    have hu : ∀ p, p + 2 ≤ 4 → u16 b' p = u16 b p := fun p hp => by
      rw [← u16_take b (show p + 2 ≤ total by omega), ht, u16_take b' (show p + 2 ≤ total by omega)]
    rw [hu 0 (by omega), hu 2 (by omega)]
    by_cases h3 : b.length - 4 < (u16 b 2).toNat
    · simp only [if_neg h1, if_neg h2, if_pos h3]
    by_cases h4 : total - 4 < (u16 b 2).toNat
    · simp only [if_neg h1, if_neg h2, if_neg h3, if_pos h4]
    have hs : slice b' 4 (u16 b 2).toNat = slice b 4 (u16 b 2).toNat := by
      rw [← slice_take b (show 4 + (u16 b 2).toNat ≤ total by omega), ht,
        slice_take b' (show 4 + (u16 b 2).toNat ≤ total by omega)]
    rw [hs, ih (total - (4 + (u16 b 2).toNat)) (by omega) (b.drop (4 + (u16 b 2).toNat)) (b'.drop (4 + (u16 b 2).toNat))
      depth _ (by simp only [List.length_drop, hl]) (by rw [List.take_drop, List.take_drop,
        show 4 + (u16 b 2).toNat + (total - (4 + (u16 b 2).toNat)) = total by omega, ht])]

/-- A byte string of whole IEs before another (R140): the list decoder goes through the first and on with the second, at
the offset that counts the first (R141). -/
theorem decodeIEList_append (cfg : Cfg) (reg : Registry) (b2 : Bytes) (total depth n : Nat) :
    ∀ (b1 : Bytes) (base : Nat) (ies : IEList), b1.length = n →
    decodeIEList cfg reg b1 b1.length depth base = .ok ies →
    decodeIEList cfg reg (b1 ++ b2) (b1.length + total) depth base =
      (decodeIEList cfg reg b2 total depth (base + b1.length)).map ies.append := by
  induction n using Nat.strongRecOn with
  | ind n ih =>
    intro b1 base ies hn h
    by_cases h0 : b1.length = 0
    · obtain rfl : b1 = [] := List.length_eq_zero_iff.mp h0
      rw [List.length_nil, decodeIEList_zero] at h
      cases h
      simp only [List.nil_append, List.length_nil, Nat.zero_add, Nat.add_zero]
      cases decodeIEList cfg reg b2 total depth base <;> rfl
    rw [decodeIEList_turn cfg reg b1 b1.length depth base h0] at h
    rw [decodeIEList_turn cfg reg (b1 ++ b2) (b1.length + total) depth base (by omega)]
    by_cases h1 : b1.length < 4
    · rw [if_pos h1] at h; cases h
    rw [if_neg h1, if_neg h1] at h
    have hu : ∀ p, p + 2 ≤ 4 → u16 (b1 ++ b2) p = u16 b1 p := fun p hp => by
      unfold u16; rw [memRead_append_left (by omega)]
    rw [hu 0 (by omega), hu 2 (by omega)]
    by_cases h3 : b1.length - 4 < (u16 b1 2).toNat
    · rw [if_pos h3] at h; cases h
    rw [if_neg h3, if_neg h3] at h
    rw [if_neg (by rw [List.length_append]; omega), if_neg (by omega), if_neg (by rw [List.length_append]; omega),
      if_neg (by omega), slice_append_left (by omega)]
    cases hv : decodeValue cfg reg (u16 b1 0) (slice b1 4 (u16 b1 2).toNat) depth base with
    | error e => rw [hv] at h; cases h
    | ok x =>
      rw [hv] at h
      simp only at h ⊢
      have hd : (b1.drop (4 + (u16 b1 2).toNat)).length = b1.length - (4 + (u16 b1 2).toNat) := List.length_drop ..
      rw [← hd] at h
      cases hr : decodeIEList cfg reg (b1.drop (4 + (u16 b1 2).toNat)) (b1.drop (4 + (u16 b1 2).toNat)).length depth
          (base + 4 + (u16 b1 2).toNat) with
      | error e => rw [hr] at h; cases h
      | ok rest =>
        rw [hr] at h
        cases h
        have := ih _ (by rw [hd]; omega) (b1.drop (4 + (u16 b1 2).toNat)) (base + 4 + (u16 b1 2).toNat) rest rfl hr
        rw [List.drop_append_of_le_length (by omega),
          show b1.length + total - (4 + (u16 b1 2).toNat) = (b1.drop (4 + (u16 b1 2).toNat)).length + total by omega, this,
          show base + 4 + (u16 b1 2).toNat + (b1.drop (4 + (u16 b1 2).toNat)).length = base + b1.length by omega]
        cases decodeIEList cfg reg b2 total depth (base + b1.length) <;> rfl

/-- IEs that encode before others (R145): the list encoder goes through the first and on with the others, at the offset
that counts the first. -/
theorem encodeIEList_append (cfg : Cfg) (reg : Registry) (x : IEList) (depth : Nat) (before : IEList) :
    ∀ (off : Nat) (b : Bytes),
    encodeIEList cfg reg before depth off = .ok b →
    encodeIEList cfg reg (before.append x) depth off = (encodeIEList cfg reg x depth (off + b.length)).map (b ++ ·) := by
  match before with
  | .nil =>
    intro off b h
    rw [encodeIEList] at h
    cases h
    rw [IEList.append, List.length_nil, Nat.add_zero]
    cases encodeIEList cfg reg x depth off <;> rfl
  | .cons t v rest =>
    intro off b h
    rw [IEList.append, encodeIEList]
    rw [encodeIEList] at h
    cases hv : encodeValueAt cfg reg t v depth off with
    | error e => rw [hv] at h; cases h
    | ok s =>
      rw [hv] at h
      simp only at h ⊢
      by_cases h1 : 65535 < s.length
      · rw [if_pos h1] at h; cases h
      rw [if_neg h1] at h ⊢
      cases hr : encodeIEList cfg reg rest depth (off + 4 + s.length) with
      | error e => rw [hr] at h; cases h
      | ok r =>
        rw [hr] at h
        cases h
        rw [encodeIEList_append cfg reg x depth rest _ r hr]
        have : off + 4 + s.length + r.length = off + (beBytes 2 t.toNat ++ beBytes 2 s.length ++ s ++ r).length := by
          simp; omega
        rw [this]
        cases encodeIEList cfg reg x depth (off + (beBytes 2 t.toNat ++ beBytes 2 s.length ++ s ++ r).length) <;>
          simp [Except.map]

/-! ### Sizes of encoded values (R148) -/

@[simp] theorem encodeCause_length (c : CauseValue) : (encodeCause c).length = 1 + c.tail.length := by
  simp [encodeCause]; omega

@[simp] theorem encodeNodeID_length (n : NodeIdValue) : (encodeNodeID n).length = nodeIdSize n := by
  cases n with
  | v4 a t => simp [encodeNodeID, nodeIdSize, a.len]; omega
  | v6 a t => simp [encodeNodeID, nodeIdSize, a.len]; omega
  | fqdn x => simp [encodeNodeID, nodeIdSize]; omega
  | other t x => simp [encodeNodeID, nodeIdSize]; omega

/-- `EncodeFTEID` succeeds exactly on consistent values (R184, R185). -/
theorem encodeFTEID_ok_iff (cfg : Cfg) (f : FTEID) (o : Nat) :
    (∃ s, encodeFTEID cfg f o = .ok s) ↔ consistentFTEID f = true := by
  unfold encodeFTEID
  cases consistentFTEID f <;> simp

theorem encodeFTEID_length {cfg : Cfg} {f : FTEID} {o : Nat} {s : Bytes} (h : encodeFTEID cfg f o = .ok s) :
    s.length = needFTEID f.v4 f.v6 f.ch f.chid + f.tail.length := by
  obtain ⟨v4, v6, ch, chid, teid, ipv4, ipv6, cid, tail⟩ := f
  unfold encodeFTEID at h
  split at h
  · cases h
  rename_i hc
  cases h
  cases v4 <;> cases v6 <;> cases ch <;> cases chid <;> cases teid <;> cases ipv4 <;> cases ipv6 <;> cases cid <;>
    simp_all [consistentFTEID, needFTEID, optBytes, Octets.len] <;> omega

/-- `EncodeFSEID` succeeds exactly on consistent values (R194, R195). -/
theorem encodeFSEID_ok_iff (x : FSEID) (o : Nat) :
    (∃ s, encodeFSEID x o = .ok s) ↔ consistentFSEID x = true := by
  unfold encodeFSEID
  cases consistentFSEID x <;> simp

theorem encodeFSEID_length {x : FSEID} {o : Nat} {s : Bytes} (h : encodeFSEID x o = .ok s) :
    s.length = needFSEID x.v4 x.v6 + x.tail.length := by
  obtain ⟨v4, v6, seid, ipv4, ipv6, tail⟩ := x
  unfold encodeFSEID at h
  split at h
  · cases h
  rename_i hc
  cases h
  cases v4 <;> cases v6 <;> cases ipv4 <;> cases ipv6 <;>
    simp_all [consistentFSEID, needFSEID, optBytes, Octets.len] <;> omega

mutual
/-- A successful `EncodeValue` has `ValueSize` octets (R148). -/
theorem encodeValueAt_length (cfg : Cfg) (reg : Registry) (t : BitVec 16) (v : Value) (depth o : Nat) (s : Bytes)
    (h : encodeValueAt cfg reg t v depth o = .ok s) : s.length = valueSize v := by
  rw [encodeValueAt.eq_def] at h
  split at h
  · cases h
  cases v with
  | unrecognized raw => cases h; rfl
  | cause c => cases h; simp [valueSize]
  | fteid f => rw [encodeFTEID_length h, valueSize]
  | nodeId n => cases h; simp [valueSize]
  | fseid x => rw [encodeFSEID_length h, valueSize]
  | grouped l =>
    simp only at h
    split at h
    · cases h
    rw [valueSize]
    exact encodeIEList_length cfg reg l (depth + 1) (o + 4) s h
/-- A successful `EncodeIEList` has `ListSize` octets (R148). -/
theorem encodeIEList_length (cfg : Cfg) (reg : Registry) (l : IEList) (depth off : Nat) (s : Bytes)
    (h : encodeIEList cfg reg l depth off = .ok s) : s.length = listSize l := by
  cases l with
  | nil => rw [encodeIEList] at h; cases h; rfl
  | cons t v rest =>
    rw [encodeIEList] at h
    split at h
    · cases h
    rename_i sv hv
    split at h
    · cases h
    split at h
    · cases h
    rename_i r hr
    cases h
    rw [listSize, ← encodeValueAt_length cfg reg t v depth off sv hv,
      ← encodeIEList_length cfg reg rest depth _ r hr]
    simp; omega
end

/-! ### Headers -/

@[simp] theorem encodeHeader_length (h : Header) (length : BitVec 16) :
    (encodeHeader h length).length = headerSize h := by
  obtain ⟨v, mp, mt, sq, ses⟩ := h
  cases ses <;> simp [encodeHeader, encodeHdrNodeForm, encodeHdrSessionForm, headerSize]

/-- `DecodeHeader` succeeds with size 8 or 16, and only on a buffer that long (R122). -/
theorem decodeHeader_size {b : Bytes} {d : DecodedHeader} (h : decodeHeader b = .ok d) :
    d.size = headerSize d.hdr ∧ d.size ≤ b.length ∧ (d.size = 8 ∨ d.size = 16) := by
  unfold decodeHeader decodeHdrSessionForm decodeHdrNodeForm at h
  split at h
  · cases h
  split at h
  · split at h
    · cases h
    cases h
    simp [headerSize]; omega
  · split at h
    · cases h
    cases h
    simp [headerSize]; omega

/-- A value decoded under a code has the variant the registry has for it (R162). -/
theorem decodeValueWith_variant {list : Bytes → Nat → Nat → Nat → Except Err IEList} {cfg : Cfg} {reg : Registry}
    {t : BitVec 16} {v : Bytes} {depth ieOff : Nat} {x : Value}
    (h : decodeValueWith list cfg reg t v depth ieOff = .ok x) : variantOf x = reg.kindAt t := by
  unfold decodeValueWith at h
  split at h <;> rename_i hk <;> rw [hk]
  · cases h; rfl
  all_goals
    simp only [Except.map] at h
    split at h
    · cases h
    · cases h; rfl

end Sys2Proof.Machine
end

