-- ==== Sys2Proof/Laws/State.lean ====
section
/-! SUPPORT. One lemma per field of State per shared update (`Machine/Ops.lean`), so that no proof unfolds a
record update. -/

namespace Sys2Proof.Machine

@[simp] theorem complete_phase (r : CmdResult) (st : Status) (s : State) : (complete r st s).phase = s.phase := rfl
@[simp] theorem complete_registry (r : CmdResult) (st : Status) (s : State) : (complete r st s).registry = s.registry := rfl
@[simp] theorem complete_status (r : CmdResult) (st : Status) (s : State) : (complete r st s).status = st := rfl
@[simp] theorem complete_cfg (r : CmdResult) (st : Status) (s : State) : (complete r st s).cfg = s.cfg := rfl
@[simp] theorem complete_work (r : CmdResult) (st : Status) (s : State) : (complete r st s).work = s.work := rfl
@[simp] theorem complete_out (r : CmdResult) (st : Status) (s : State) : (complete r st s).out = s.out := rfl
@[simp] theorem complete_result (r : CmdResult) (st : Status) (s : State) : (complete r st s).result = r := rfl
@[simp] theorem complete_bus (r : CmdResult) (st : Status) (s : State) : (complete r st s).bus = s.bus := rfl
@[simp] theorem complete_pending (r : CmdResult) (st : Status) (s : State) : (complete r st s).pending = s.pending := rfl
@[simp] theorem complete_free (r : CmdResult) (st : Status) (s : State) : (complete r st s).free = s.free := rfl

@[simp] theorem refuse_phase (k : ErrKind) (s : State) : (refuse k s).phase = s.phase := rfl
@[simp] theorem refuse_registry (k : ErrKind) (s : State) : (refuse k s).registry = s.registry := rfl
@[simp] theorem refuse_status (k : ErrKind) (s : State) : (refuse k s).status = Err.status ⟨k, 0⟩ := rfl
@[simp] theorem refuse_cfg (k : ErrKind) (s : State) : (refuse k s).cfg = s.cfg := rfl
@[simp] theorem refuse_work (k : ErrKind) (s : State) : (refuse k s).work = s.work := rfl
@[simp] theorem refuse_out (k : ErrKind) (s : State) : (refuse k s).out = s.out := rfl
@[simp] theorem refuse_result (k : ErrKind) (s : State) : (refuse k s).result = .err ⟨k, 0⟩ := rfl
@[simp] theorem refuse_bus (k : ErrKind) (s : State) : (refuse k s).bus = s.bus := rfl
@[simp] theorem refuse_pending (k : ErrKind) (s : State) : (refuse k s).pending = s.pending := rfl
@[simp] theorem refuse_free (k : ErrKind) (s : State) : (refuse k s).free = s.free := rfl

@[simp] theorem unspecifyWork_phase (s : State) : (unspecifyWork s).phase = s.phase := rfl
@[simp] theorem unspecifyWork_registry (s : State) : (unspecifyWork s).registry = s.registry := rfl
@[simp] theorem unspecifyWork_status (s : State) : (unspecifyWork s).status = s.status := rfl
@[simp] theorem unspecifyWork_cfg (s : State) : (unspecifyWork s).cfg = s.cfg := rfl
@[simp] theorem unspecifyWork_work (s : State) : (unspecifyWork s).work = { cur := Config.freeCur s.free, depth := Config.freeDepth s.free, win := Config.freeWin s.free, ocur := Config.freeOcur s.free, patch := Config.freePatch s.free } := rfl
@[simp] theorem unspecifyWork_out (s : State) : (unspecifyWork s).out = s.out := rfl
@[simp] theorem unspecifyWork_result (s : State) : (unspecifyWork s).result = s.result := rfl
@[simp] theorem unspecifyWork_bus (s : State) : (unspecifyWork s).bus = .none := rfl
@[simp] theorem unspecifyWork_pending (s : State) : (unspecifyWork s).pending = s.pending := rfl
@[simp] theorem unspecifyWork_free (s : State) : (unspecifyWork s).free = s.free + 1 := rfl

@[simp] theorem unspecifyOut_phase (s : State) : (unspecifyOut s).phase = s.phase := rfl
@[simp] theorem unspecifyOut_registry (s : State) : (unspecifyOut s).registry = s.registry := rfl
@[simp] theorem unspecifyOut_status (s : State) : (unspecifyOut s).status = s.status := rfl
@[simp] theorem unspecifyOut_cfg (s : State) : (unspecifyOut s).cfg = s.cfg := rfl
@[simp] theorem unspecifyOut_work (s : State) : (unspecifyOut s).work = s.work := rfl
@[simp] theorem unspecifyOut_out (s : State) : (unspecifyOut s).out = Config.freeOut s.free := rfl
@[simp] theorem unspecifyOut_result (s : State) : (unspecifyOut s).result = s.result := rfl
@[simp] theorem unspecifyOut_bus (s : State) : (unspecifyOut s).bus = s.bus := rfl
@[simp] theorem unspecifyOut_pending (s : State) : (unspecifyOut s).pending = s.pending := rfl
@[simp] theorem unspecifyOut_free (s : State) : (unspecifyOut s).free = s.free + 1 := rfl

@[simp] theorem raise_phase (e : Err) (s : State) : (raise e s).phase = s.phase := rfl
@[simp] theorem raise_registry (e : Err) (s : State) : (raise e s).registry = s.registry := rfl
@[simp] theorem raise_status (e : Err) (s : State) : (raise e s).status = Err.status e := rfl
@[simp] theorem raise_cfg (e : Err) (s : State) : (raise e s).cfg = s.cfg := rfl
@[simp] theorem raise_work (e : Err) (s : State) : (raise e s).work = { cur := Config.freeCur s.free, depth := Config.freeDepth s.free, win := Config.freeWin s.free, ocur := Config.freeOcur s.free, patch := Config.freePatch s.free } := rfl
@[simp] theorem raise_out (e : Err) (s : State) : (raise e s).out = s.out := rfl
@[simp] theorem raise_result (e : Err) (s : State) : (raise e s).result = .err e := rfl
@[simp] theorem raise_bus (e : Err) (s : State) : (raise e s).bus = .none := rfl
@[simp] theorem raise_pending (e : Err) (s : State) : (raise e s).pending = s.pending := rfl
@[simp] theorem raise_free (e : Err) (s : State) : (raise e s).free = s.free + 1 := rfl

@[simp] theorem raiseEncode_phase (e : Err) (s : State) : (raiseEncode e s).phase = s.phase := rfl
@[simp] theorem raiseEncode_registry (e : Err) (s : State) : (raiseEncode e s).registry = s.registry := rfl
@[simp] theorem raiseEncode_status (e : Err) (s : State) : (raiseEncode e s).status = Err.status e := rfl
@[simp] theorem raiseEncode_cfg (e : Err) (s : State) : (raiseEncode e s).cfg = s.cfg := rfl
@[simp] theorem raiseEncode_work (e : Err) (s : State) : (raiseEncode e s).work = { cur := Config.freeCur (s.free + 1), depth := Config.freeDepth (s.free + 1), win := Config.freeWin (s.free + 1), ocur := Config.freeOcur (s.free + 1), patch := Config.freePatch (s.free + 1) } := rfl
@[simp] theorem raiseEncode_out (e : Err) (s : State) : (raiseEncode e s).out = Config.freeOut s.free := rfl
@[simp] theorem raiseEncode_result (e : Err) (s : State) : (raiseEncode e s).result = .err e := rfl
@[simp] theorem raiseEncode_bus (e : Err) (s : State) : (raiseEncode e s).bus = .none := rfl
@[simp] theorem raiseEncode_pending (e : Err) (s : State) : (raiseEncode e s).pending = s.pending := rfl
@[simp] theorem raiseEncode_free (e : Err) (s : State) : (raiseEncode e s).free = s.free + 1 + 1 := rfl

@[simp] theorem deliver_phase (b : Bus) (s : State) : (deliver b s).phase = s.phase := rfl
@[simp] theorem deliver_registry (b : Bus) (s : State) : (deliver b s).registry = s.registry := rfl
@[simp] theorem deliver_status (b : Bus) (s : State) : (deliver b s).status = s.status := rfl
@[simp] theorem deliver_cfg (b : Bus) (s : State) : (deliver b s).cfg = s.cfg := rfl
@[simp] theorem deliver_work (b : Bus) (s : State) : (deliver b s).work = s.work := rfl
@[simp] theorem deliver_out (b : Bus) (s : State) : (deliver b s).out = s.out := rfl
@[simp] theorem deliver_result (b : Bus) (s : State) : (deliver b s).result = s.result := rfl
@[simp] theorem deliver_bus (b : Bus) (s : State) : (deliver b s).bus = b := rfl
@[simp] theorem deliver_pending (b : Bus) (s : State) : (deliver b s).pending = s.pending := rfl
@[simp] theorem deliver_free (b : Bus) (s : State) : (deliver b s).free = s.free := rfl

@[simp] theorem setCur_phase (v : Nat) (s : State) : (setCur v s).phase = s.phase := rfl
@[simp] theorem setCur_registry (v : Nat) (s : State) : (setCur v s).registry = s.registry := rfl
@[simp] theorem setCur_status (v : Nat) (s : State) : (setCur v s).status = s.status := rfl
@[simp] theorem setCur_cfg (v : Nat) (s : State) : (setCur v s).cfg = s.cfg := rfl
@[simp] theorem setCur_work (v : Nat) (s : State) : (setCur v s).work = { s.work with cur := BitVec.ofNat 17 v } := rfl
@[simp] theorem setCur_out (v : Nat) (s : State) : (setCur v s).out = s.out := rfl
@[simp] theorem setCur_result (v : Nat) (s : State) : (setCur v s).result = s.result := rfl
@[simp] theorem setCur_bus (v : Nat) (s : State) : (setCur v s).bus = s.bus := rfl
@[simp] theorem setCur_pending (v : Nat) (s : State) : (setCur v s).pending = s.pending := rfl
@[simp] theorem setCur_free (v : Nat) (s : State) : (setCur v s).free = s.free := rfl

@[simp] theorem hardReset_phase (s : State) : (hardReset s).phase = .init := rfl
@[simp] theorem hardReset_registry (s : State) : (hardReset s).registry = [] := rfl
@[simp] theorem hardReset_status (s : State) : (hardReset s).status = Status.zero := rfl
@[simp] theorem hardReset_cfg (s : State) : (hardReset s).cfg = s.cfg := rfl
@[simp] theorem hardReset_work (s : State) : (hardReset s).work = { cur := Config.freeCur (s.free + 1), depth := Config.freeDepth (s.free + 1), win := Config.freeWin (s.free + 1), ocur := Config.freeOcur (s.free + 1), patch := Config.freePatch (s.free + 1) } := rfl
@[simp] theorem hardReset_out (s : State) : (hardReset s).out = Config.freeOut s.free := rfl
@[simp] theorem hardReset_result (s : State) : (hardReset s).result = .none := rfl
@[simp] theorem hardReset_bus (s : State) : (hardReset s).bus = .none := rfl
@[simp] theorem hardReset_pending (s : State) : (hardReset s).pending = [] := rfl
@[simp] theorem hardReset_free (s : State) : (hardReset s).free = s.free + 1 + 1 := rfl

@[simp] theorem Err.status_code (e : Err) : (Err.status e).code = errCode e.kind := rfl
@[simp] theorem Err.status_uv (e : Err) : (Err.status e).uv = false := rfl
@[simp] theorem Err.status_uk (e : Err) : (Err.status e).uk = false := rfl
@[simp] theorem Err.status_offset (e : Err) : (Err.status e).offset = e.off := rfl

/-- Every error has a code of R241, never 0 and never 12..15. -/
theorem errCode_range (k : ErrKind) : 1 ≤ (errCode k).toNat ∧ (errCode k).toNat ≤ 11 := by
  cases k <;> decide

/-- `STATUS` after an error is well-formed (R30, R246). -/
theorem Err.status_wf (e : Err) : Status.wf (Err.status e) = true := by
  obtain ⟨k, off⟩ := e
  cases k <;> simp [Status.wf, Err.status, errCode]

/-- The frame of an internal operation's answer: everything but `work`, `bus` and, on an error, what an error
writes. -/
theorem deliverIE_eq (stop : Nat) (x : IE) (s : State) :
    deliverIE stop x s = setCur stop (deliver (.ie x) s) ∨ deliverIE stop x s = deliver (.ie x) s := by
  unfold deliverIE
  split
  · exact .inl rfl
  · exact .inr rfl

end Sys2Proof.Machine
end

