-- ==== Sys2Proof/Laws/Micro.lean ====
section
/-! SUPPORT. The register-level DECODE and ENCODE of `Machine/Micro.lean` compute the pure functions of
`Machine/Codec.lean` (`spec/10_state.md` section 2: the registers "are the names those functions' loop
variables take in hardware"). -/

namespace Sys2Proof.Machine

/-! ### Decoding -/

/-- The octets the list in process may read: from `CUR` to the end of `IN` at depth 0, else to the end of the
grouped value (R140, D13). -/
def Work.buffer (w : Work) (input : Bytes) : Bytes :=
  (input.take (if w.depth = 0 then input.length else w.stop)).drop w.cur.toNat

/-- The stacks are as deep as `DEPTH` says, `CUR` is inside the window, and a grouped value lies inside `IN`. -/
def Work.ok (w : Work) (input : Bytes) : Prop :=
  w.win.length = w.depth + 1 ∧ w.cur.toNat ≤ w.stop ∧ (w.depth ≠ 0 → w.stop ≤ input.length)

theorem Work.stop_lt (w : Work) : w.stop < 2 ^ 17 := (w.win.getD w.depth 0).isLt

@[simp] theorem Work.jump_stop (w : Work) (v : Nat) : (w.jump v).stop = w.stop := rfl
@[simp] theorem Work.jump_depth (w : Work) (v : Nat) : (w.jump v).depth = w.depth := rfl
@[simp] theorem Work.jump_win (w : Work) (v : Nat) : (w.jump v).win = w.win := rfl

theorem Work.jump_cur (w : Work) {v : Nat} (h : v < 2 ^ 17) : (w.jump v).cur.toNat = v := by
  rw [Work.jump, BitVec.toNat_ofNat, Nat.mod_eq_of_lt h]

theorem Work.enter_stop (w : Work) (first : Nat) {stop : Nat} (hl : w.win.length = w.depth + 1)
    (h : stop < 2 ^ 17) : (w.enter first stop).stop = stop := by
  have h1 : (w.win ++ [BitVec.ofNat 17 stop])[w.depth + 1]? = some (BitVec.ofNat 17 stop) := by
    rw [List.getElem?_append_right (by omega)]; simp [hl]
  simp only [Work.stop, Work.enter, List.getD_eq_getElem?_getD, h1, Option.getD_some, BitVec.toNat_ofNat]
  exact Nat.mod_eq_of_lt h

/-- Leaving a grouped IE undoes entering it, but for `CUR` (R23). -/
theorem Work.enter_jump_leave (w : Work) (first stop v u : Nat) :
    ((w.enter first stop).jump v).leave.jump u = w.jump u := by
  simp [Work.enter, Work.leave, Work.jump]

/-- The list decoder on the registers is `DecodeIEList` on the octets they delimit; on success `CUR` stands at
`WIN[DEPTH]` and the stacks are as before (R141, R143). -/
theorem microDecodeList_eq (cfg : Cfg) (reg : Registry) (input : Bytes) :
    ∀ (n : Nat) (w : Work), w.ok input → w.stop - w.cur.toNat ≤ n →
      microDecodeList cfg reg input n w =
        (decodeIEList cfg reg (w.buffer input) (w.stop - w.cur.toNat) w.depth w.cur.toNat).map
          (fun l => (l, w.jump w.stop)) := by
  intro n
  induction n with
  | zero =>
    intro w hw hn
    have hcur : w.cur.toNat = w.stop := by have := hw.2.1; omega
    have hj : w.jump w.stop = w := by
      rw [Work.jump, ← hcur, BitVec.ofNat_toNat]; simp
    rw [show w.stop - w.cur.toNat = 0 by omega, decodeIEList_zero, hj]
    rfl
  | succ n ih =>
    intro w hw hn
    obtain ⟨hl, hcs, hin⟩ := hw
    have hstop := w.stop_lt
    rw [microDecodeList]
    by_cases h0 : w.stop ≤ w.cur.toNat
    · have hcur : w.cur.toNat = w.stop := by omega
      have hj : w.jump w.stop = w := by
        rw [Work.jump, ← hcur, BitVec.ofNat_toNat]; simp
      simp only [if_pos h0]
      rw [show w.stop - w.cur.toNat = 0 by omega, decodeIEList_zero, hj]
      rfl
    simp only [if_neg h0]
    rw [decodeIEList_turn _ _ _ _ _ _ (by omega)]
    generalize hE : (if w.depth = 0 then input.length else w.stop) = E
    have hEle : E ≤ input.length := by
      by_cases hd : w.depth = 0
      · simp [hd] at hE; omega
      · simp [hd] at hE; have := hin hd; omega
    have hbuf : w.buffer input = (input.take E).drop w.cur.toNat := by rw [Work.buffer, hE]
    have hblen : (w.buffer input).length = E - w.cur.toNat := by
      rw [hbuf, List.length_drop, List.length_take, Nat.min_eq_left hEle]
    rw [hblen]
    by_cases h1 : E - w.cur.toNat < 4
    · simp only [if_pos h1]; rfl
    simp only [if_neg h1]
    by_cases h2 : w.stop - w.cur.toNat < 4
    · simp only [if_pos h2]; rfl
    simp only [if_neg h2]
    have ht : u16 (w.buffer input) 0 = u16 input w.cur.toNat := by
      rw [hbuf, u16_drop, u16_take _ (by omega), Nat.add_zero]
    have hL : u16 (w.buffer input) 2 = u16 input (w.cur.toNat + 2) := by
      rw [hbuf, u16_drop, u16_take _ (by omega)]
    rw [ht, hL]
    generalize u16 input w.cur.toNat = t
    generalize (u16 input (w.cur.toNat + 2)).toNat = L
    rw [show E - (w.cur.toNat + 4) = E - w.cur.toNat - 4 by omega,
      show w.stop - (w.cur.toNat + 4) = w.stop - w.cur.toNat - 4 by omega]
    by_cases h3 : E - w.cur.toNat - 4 < L
    · simp only [if_pos h3]; rfl
    simp only [if_neg h3]
    by_cases h4 : w.stop - w.cur.toNat - 4 < L
    · simp only [if_pos h4]; rfl
    simp only [if_neg h4]
    have hv : slice (w.buffer input) 4 L = slice input (w.cur.toNat + 4) L := by
      rw [hbuf, slice_drop, slice_take _ (by omega)]
    have hvlen : (slice input (w.cur.toNat + 4) L).length = L := by rw [slice_length]; omega
    rw [hv]
    -- the rest of the list, from the registers with `CUR` past this IE
    have hrest : microDecodeList cfg reg input n (w.jump (w.cur.toNat + 4 + L)) =
        (decodeIEList cfg reg ((w.buffer input).drop (4 + L)) (w.stop - w.cur.toNat - (4 + L)) w.depth
          (w.cur.toNat + 4 + L)).map (fun l => (l, w.jump w.stop)) := by
      have hjc : (w.jump (w.cur.toNat + 4 + L)).cur.toNat = w.cur.toNat + 4 + L := Work.jump_cur w (by omega)
      have := ih (w.jump (w.cur.toNat + 4 + L)) ⟨hl, by rw [hjc, Work.jump_stop]; omega, hin⟩
        (by rw [hjc, Work.jump_stop]; omega)
      rw [this, hjc]
      congr 2
      · rw [Work.buffer, hjc, hbuf, List.drop_drop]
        rw [Work.jump_depth, Work.jump_stop, hE]
        congr 1; omega
      · rw [Work.jump_stop]; omega
    by_cases hg : reg.kindAt t = some .grouped
    · simp only [if_pos hg]
      rw [decodeValue, decodeValueWith]
      simp only [hg]
      rw [decodeGroupedWith, hvlen]
      by_cases hd : cfg.maxDepth < w.depth + 1
      · simp only [if_pos hd]; rfl
      simp only [if_neg hd]
      have hes : (w.enter (w.cur.toNat + 4) (w.cur.toNat + 4 + L)).stop = w.cur.toNat + 4 + L :=
        Work.enter_stop w _ hl (by omega)
      have hec : (w.enter (w.cur.toNat + 4) (w.cur.toNat + 4 + L)).cur.toNat = w.cur.toNat + 4 := by
        simp only [Work.enter, BitVec.toNat_ofNat]
        exact Nat.mod_eq_of_lt (by omega)
      rw [ih (w.enter (w.cur.toNat + 4) (w.cur.toNat + 4 + L))
        ⟨by simp [Work.enter, hl], by rw [hec, hes]; omega, fun _ => by rw [hes]; omega⟩
        (by rw [hec, hes]; omega)]
      rw [hec, hes, show w.cur.toNat + 4 + L - (w.cur.toNat + 4) = L by omega]
      have heb : (w.enter (w.cur.toNat + 4) (w.cur.toNat + 4 + L)).buffer input = slice input (w.cur.toNat + 4) L := by
        rw [Work.buffer, hec, hes]
        simp only [Work.enter, Nat.add_eq_zero_iff, one_ne_zero, and_false, if_false]
        rw [slice, List.drop_take]
        congr 1; omega
      rw [heb, show (w.enter (w.cur.toNat + 4) (w.cur.toNat + 4 + L)).depth = w.depth + 1 from rfl]
      cases decodeIEList cfg reg (slice input (w.cur.toNat + 4) L) L (w.depth + 1) (w.cur.toNat + 4) with
      | error e => rfl
      | ok children =>
        simp only [Except.map, Work.enter_jump_leave]
        rw [hrest]
        cases decodeIEList cfg reg ((w.buffer input).drop (4 + L)) (w.stop - w.cur.toNat - (4 + L)) w.depth
          (w.cur.toNat + 4 + L) <;> rfl
    · simp only [if_neg hg]
      cases hx : decodeValue cfg reg t (slice input (w.cur.toNat + 4) L) w.depth w.cur.toNat with
      | error e => rfl
      | ok x =>
        simp only
        have hxt : x.type = t := by
          unfold decodeValue at hx
          cases h : decodeValueWith (decodeIEList cfg reg) cfg reg t (slice input (w.cur.toNat + 4) L) w.depth
              w.cur.toNat with
          | error e => rw [h] at hx; cases hx
          | ok y => rw [h] at hx; cases hx; rfl
        rw [hrest, hxt]
        cases decodeIEList cfg reg ((w.buffer input).drop (4 + L)) (w.stop - w.cur.toNat - (4 + L)) w.depth
          (w.cur.toNat + 4 + L) <;> rfl

/-- DECODE on the working registers delivers what the pure function of R221 does, whatever the registers held
before (R25); it ends with `CUR` one past the message. -/
theorem microDecode_eq (cfg : Cfg) (reg : Registry) (input : Bytes) (w : Work) :
    (microDecode cfg reg input w).map Prod.fst = decodeMessage cfg reg input := by
  unfold microDecode decodeMessage
  cases hd : decodeHeader input with
  | error e => rfl
  | ok d =>
    obtain ⟨_, hlen, hsize⟩ := decodeHeader_size hd
    have hdl : d.length.toNat < 2 ^ 16 := d.length.isLt
    simp only
    by_cases hr : d.length.toNat < d.size - 4
    · simp only [if_pos hr]; rfl
    simp only [if_neg hr]
    have hc1 : ((w.jump 0).jump d.size).cur.toNat = d.size := Work.jump_cur _ (by rcases hsize with h | h <;> omega)
    rw [hc1]
    generalize hw2 : ({ (w.jump 0).jump d.size with
      depth := 0, win := [BitVec.ofNat 17 (d.size + (d.length.toNat - (d.size - 4)))] } : Work) = w2
    have hcur : w2.cur.toNat = d.size := by rw [← hw2]; exact hc1
    have hstop : w2.stop = d.size + (d.length.toNat - (d.size - 4)) := by
      rw [← hw2]
      simp only [Work.stop, List.getD_cons_zero, BitVec.toNat_ofNat]
      exact Nat.mod_eq_of_lt (by rcases hsize with h | h <;> omega)
    have hdepth : w2.depth = 0 := by rw [← hw2]
    have hwin : w2.win.length = w2.depth + 1 := by rw [← hw2]; rfl
    rw [microDecodeList_eq cfg reg input _ w2 ⟨hwin, by omega, fun h => absurd hdepth h⟩ (by omega)]
    have hbuf : w2.buffer input = input.drop d.size := by
      rw [Work.buffer, hdepth, hcur]; simp
    rw [hbuf, hdepth, hcur, hstop, show d.size + (d.length.toNat - (d.size - 4)) - d.size = d.length.toNat - (d.size - 4) by omega]
    cases decodeIEList cfg reg (input.drop d.size) (d.length.toNat - (d.size - 4)) 0 d.size with
    | error e => rfl
    | ok ies =>
      simp only [Except.map]
      rw [Work.jump_cur w2 (by rw [← hstop]; exact w2.stop_lt),
        show d.size + (d.length.toNat - (d.size - 4)) = 4 + d.length.toNat by rcases hsize with h | h <;> omega]

/-! ### Encoding -/

/-- Back-patching an IE's length field gives the bytes of R145. -/
theorem popPatch_emitted (out ty v : Bytes) (w : Work) (patch : List Nat) (hty : ty.length = 2)
    (ho : w.ocur = out.length + 4 + v.length) (hp : w.patch = patch ++ [out.length + 2]) :
    popPatch (out ++ ty ++ [0#8, 0#8] ++ v, w) =
      (out ++ ty ++ beBytes 2 v.length ++ v, { w with patch := patch }) := by
  have hlast : w.patch.getLastD 0 = out.length + 2 := by rw [hp]; simp
  have hlen : patchLength (out ++ ty ++ [0#8, 0#8] ++ v, w) = v.length := by
    simp only [patchLength, hlast, ho]; omega
  rw [popPatch, hlen]
  simp only [hlast]
  have := memWrite_append (out ++ ty) [0#8, 0#8] v 2 v.length rfl
  rw [List.length_append, hty] at this
  rw [this, hp]
  simp

mutual
/-- A value emitted on the registers is `EncodeValue` appended to `OUT`. -/
theorem microEncodeValue_eq (cfg : Cfg) (reg : Registry) (t : BitVec 16) (v : Value) (o : Nat) (p : Bytes × Work)
    (ho : p.2.ocur = o + 4) (hp : p.2.ocur = p.1.length) :
    microEncodeValue cfg reg t v o p =
      (encodeValueAt cfg reg t v p.2.depth o).map
        (fun s => (p.1 ++ s, { p.2 with ocur := p.2.ocur + s.length })) := by
  rw [microEncodeValue.eq_def, encodeValueAt.eq_def]
  split
  · rfl
  cases v with
  | unrecognized raw => rfl
  | cause c => rfl
  | fteid f => rfl
  | nodeId n => rfl
  | fseid x => rfl
  | grouped l =>
    simp only
    split
    · rfl
    rw [microEncodeList_eq cfg reg l (p.1, { p.2 with depth := p.2.depth + 1 }) hp, ← ho]
    simp only
    cases encodeIEList cfg reg l (p.2.depth + 1) p.2.ocur <;> rfl
/-- A list emitted on the registers with back-patching is `EncodeIEList` appended to `OUT`; `DEPTH` and `PATCH`
are as before (R24, R145, R146). -/
theorem microEncodeList_eq (cfg : Cfg) (reg : Registry) (l : IEList) (p : Bytes × Work)
    (hp : p.2.ocur = p.1.length) :
    microEncodeList cfg reg l p =
      (encodeIEList cfg reg l p.2.depth p.2.ocur).map
        (fun s => (p.1 ++ s, { p.2 with ocur := p.2.ocur + s.length })) := by
  cases l with
  | nil => simp [microEncodeList, encodeIEList, Except.map]
  | cons t v rest =>
    obtain ⟨out, w⟩ := p
    simp only at hp
    rw [microEncodeList, encodeIEList]
    simp only
    rw [microEncodeValue_eq cfg reg t v w.ocur _ (by simp [emit, pushPatch]) (by simp [emit, pushPatch, hp])]
    simp only [emit, pushPatch, beBytes_length]
    cases hv : encodeValueAt cfg reg t v w.depth w.ocur with
    | error e => rfl
    | ok s =>
      simp only [Except.map, List.length_cons, List.length_nil]
      have hpl : patchLength (out ++ beBytes 2 t.toNat ++ [0#8, 0#8] ++ s,
          { w with ocur := w.ocur + 2 + (0 + 1 + 1) + s.length, patch := w.patch ++ [w.ocur + 2] }) = s.length := by
        simp [patchLength]
      rw [hpl]
      split
      · rfl
      have hpop := popPatch_emitted out (beBytes 2 t.toNat) s
        { w with ocur := w.ocur + 2 + (0 + 1 + 1) + s.length, patch := w.patch ++ [w.ocur + 2] } w.patch
        (beBytes_length 2 _) (by simp only; omega) (by simp only [hp])
      rw [hpop]
      rw [microEncodeList_eq cfg reg rest _ (by simp; omega)]
      rw [show w.ocur + 2 + (0 + 1 + 1) + s.length = w.ocur + 4 + s.length by omega]
      cases encodeIEList cfg reg rest w.depth (w.ocur + 4 + s.length) with
      | error e => rfl
      | ok r =>
        simp only [Except.map, List.length_append, beBytes_length, List.append_assoc]
        rw [show w.ocur + 4 + s.length + r.length = w.ocur + (2 + (2 + (s.length + r.length))) by omega]
end

/-- The header with its length field still zero is the header with any length but for octets 2 and 3 (R125,
R224). -/
theorem encodeHeader_patch (h : Header) (n : BitVec 16) (body : Bytes) :
    memWrite (encodeHeader h 0#16 ++ body) 2 2 n.toNat = encodeHeader h n ++ body := by
  obtain ⟨v, mp, mt, sq, ses⟩ := h
  cases ses <;> rfl

/-- ENCODE on the working registers delivers what the pure function of R223 does, whatever the registers held
before (R25). -/
theorem microEncode_eq (cfg : Cfg) (reg : Registry) (m : Message) (w : Work) :
    (microEncode cfg reg m w).map Prod.fst = encodeMessage cfg reg m := by
  unfold microEncode encodeMessage
  simp only
  rw [microEncodeList_eq cfg reg m.ies _ (by simp [emit])]
  simp only [emit, List.nil_append, encodeHeader_length, Nat.zero_add]
  cases encodeIEList cfg reg m.ies 0 (headerSize m.hdr) with
  | error e => rfl
  | ok body =>
    have h4 : 4 ≤ headerSize m.hdr := by unfold headerSize; split <;> omega
    have hpl : patchLength (encodeHeader m.hdr 0#16 ++ body,
        { w with ocur := headerSize m.hdr + body.length, depth := 0, patch := [2] }) = headerSize m.hdr - 4 + body.length := by
      simp [patchLength]; omega
    simp only [Except.map, hpl]
    by_cases hlt : 65535 < headerSize m.hdr - 4 + body.length
    · simp only [if_pos hlt]
    simp only [if_neg hlt]
    rw [popPatch, hpl]
    have := encodeHeader_patch m.hdr (BitVec.ofNat 16 (headerSize m.hdr - 4 + body.length)) body
    rw [BitVec.toNat_ofNat, Nat.mod_eq_of_lt (by omega)] at this
    simp only [List.getLastD_cons, List.getLastD_nil, this]

end Sys2Proof.Machine
end

