-- ==== Sys2Proof/Laws/Exec.lean ====
section
/-! SUPPORT. What an instruction and a step can do, said once: the equations of DECODE and ENCODE over the pure
functions, and the inversion lemma `exec_effect` that invariants and frames cite instead of unfolding `exec`. -/

namespace Sys2Proof.Machine

/-! ### DECODE and ENCODE -/

theorem execDecode_init {s : State} (h : s.phase = .init) (input : Bytes) :
    execDecode input s = .next (raise ⟨.notInitialised, 0⟩ s) := by
  unfold execDecode; rw [h]

/-- DECODE in RUN, over the pure function of R221. -/
theorem execDecode_run {s : State} (h : s.phase = .run) (input : Bytes) :
    execDecode input s =
      match decodeMessage s.cfg s.registry input with
      | .error e => .next (raise e s)
      | .ok r => .next (complete (.decoded r) ⟨0, r.uv, r.uk, 0⟩ (unspecifyWork s)) := by
  obtain ⟨_, registry, _, cfg, work, _, _, _, _, _⟩ := s
  cases h
  simp only [execDecode, ← microDecode_eq cfg registry input work]
  cases microDecode cfg registry input work <;> rfl

theorem execEncode_init {s : State} (h : s.phase = .init) (m : Message) :
    execEncode m s = .next (raiseEncode ⟨.notInitialised, 0⟩ s) := by
  unfold execEncode; rw [h]

/-- ENCODE in RUN, over the pure function of R223. -/
theorem execEncode_run {s : State} (h : s.phase = .run) (m : Message) :
    execEncode m s =
      match encodeMessage s.cfg s.registry m with
      | .error e => .next (raiseEncode e s)
      | .ok out => .next (complete (.encoded out) Status.zero (unspecifyWork { s with out := out })) := by
  obtain ⟨_, registry, _, cfg, work, _, _, _, _, _⟩ := s
  cases h
  simp only [execEncode, ← microEncode_eq cfg registry m work]
  cases microEncode cfg registry m work <;> rfl

/-! ### Everything an instruction can do -/

/-- The next states an instruction can answer with, by the shared operation that makes them. -/
inductive Effect (s : State) : State → Prop where
  | same : Effect s s
  | refused (k : ErrKind) : Effect s (refuse k s)
  | raised (e : Err) : Effect s (raise e s)
  | raisedEncode (e : Err) : Effect s (raiseEncode e s)
  | wrote (code : BitVec 16) (k : Kind) (name : String) (hinit : s.phase = .init)
      (hempty : s.registry.at code = none) :
      Effect s (complete .done Status.zero { s with registry := s.registry.set code.toNat ⟨k, name⟩ })
  | locked : Effect s (complete .done Status.zero { s with phase := .run })
  | decoded (input : Bytes) (r : DecodeOk) (hrun : s.phase = .run)
      (h : decodeMessage s.cfg s.registry input = .ok r) :
      Effect s (complete (.decoded r) ⟨0, r.uv, r.uk, 0⟩ (unspecifyWork s))
  | encoded (m : Message) (out : Bytes) (hrun : s.phase = .run)
      (h : encodeMessage s.cfg s.registry m = .ok out) :
      Effect s (complete (.encoded out) Status.zero (unspecifyWork { s with out := out }))
  | classified (S : Bool) (code : BitVec 8) :
      Effect s (complete (.classified (classify s.cfg S code) code) Status.zero s)
  | delivered (b : Bus) : Effect s (deliver b s)
  | deliveredAt (b : Bus) (v : Nat) : Effect s (setCur v (deliver b s))

/-- The answer of a decode-side operation has an effect of the list if its success has. -/
theorem answerDecode_effect {α : Type} {ok : α → State → State} {r : Except Err α} {s : State}
    (h : ∀ x, Effect s (ok x s)) : ∃ t, answerDecode ok r s = .next t ∧ Effect s t := by
  cases r with
  | error e => exact ⟨_, rfl, .raised e⟩
  | ok x => exact ⟨_, rfl, h x⟩

theorem answerEncode_effect {α : Type} {ok : α → State → State} {r : Except Err α} {s : State}
    (h : ∀ x, Effect s (ok x s)) : ∃ t, answerEncode ok r s = .next t ∧ Effect s t := by
  cases r with
  | error e => exact ⟨_, rfl, .raisedEncode e⟩
  | ok x => exact ⟨_, rfl, h x⟩

theorem deliverIE_effect (stop : Nat) (x : IE) (s : State) : Effect s (deliverIE stop x s) := by
  rcases deliverIE_eq stop x s with h | h <;> rw [h]
  · exact .deliveredAt _ _
  · exact .delivered _

theorem execRegWrite_effect (code : BitVec 16) (kind : BitVec 3) (name : String) (s : State) :
    ∃ t, execRegWrite code kind name s = .next t ∧ Effect s t := by
  unfold execRegWrite
  cases kindOfCode kind with
  | none => exact ⟨_, rfl, .refused _⟩
  | some k =>
    simp only
    split
    · exact ⟨_, rfl, .refused _⟩
    rename_i hp
    split
    · exact ⟨_, rfl, .refused _⟩
    rename_i he
    exact ⟨_, rfl, .wrote code k name (by cases h : s.phase <;> simp_all) (by simpa using he)⟩

theorem execDecode_effect (input : Bytes) (s : State) : ∃ t, execDecode input s = .next t ∧ Effect s t := by
  cases hp : s.phase with
  | init => exact ⟨_, execDecode_init hp input, .raised _⟩
  | run =>
    rw [execDecode_run hp]
    cases hd : decodeMessage s.cfg s.registry input with
    | error e => exact ⟨_, rfl, .raised e⟩
    | ok r => exact ⟨_, rfl, .decoded input r hp hd⟩

theorem execEncode_effect (m : Message) (s : State) : ∃ t, execEncode m s = .next t ∧ Effect s t := by
  cases hp : s.phase with
  | init => exact ⟨_, execEncode_init hp m, .raisedEncode _⟩
  | run =>
    rw [execEncode_run hp]
    cases hd : encodeMessage s.cfg s.registry m with
    | error e => exact ⟨_, rfl, .raisedEncode e⟩
    | ok out => exact ⟨_, rfl, .encoded m out hp hd⟩

/-- Every instruction answers a next state, and it is one of those of `Effect`. -/
theorem exec_next_effect (i : Instr) (s : State) : ∃ t, exec i s = .next t ∧ Effect s t := by
  cases i with
  | nop => exact ⟨_, rfl, .same⟩
  | regWrite code kind name => exact execRegWrite_effect code kind name s
  | regLock => exact ⟨_, rfl, .locked⟩
  | decode input => exact execDecode_effect input s
  | encode m => exact execEncode_effect m s
  | classify S code => exact ⟨_, rfl, .classified S code⟩
  | reservedCmd6 => exact ⟨_, rfl, .refused _⟩
  | reservedCmd7 => exact ⟨_, rfl, .refused _⟩
  | decodeHdrNode b => exact answerDecode_effect fun _ => .deliveredAt _ _
  | decodeHdrSession b => exact answerDecode_effect fun _ => .deliveredAt _ _
  | decodeIEList b total depth base => exact answerDecode_effect fun _ => .deliveredAt _ _
  | encodeIEList ies depth off => exact answerEncode_effect fun _ => .delivered _
  | decodeValue t v depth ieOff => exact answerDecode_effect fun x => deliverIE_effect _ x s
  | encodeValue ie depth o => exact answerEncode_effect fun _ => .delivered _
  | decodeCause v ieOff => exact answerDecode_effect fun _ => .delivered _
  | decodeFTEID v ieOff => exact answerDecode_effect fun _ => .delivered _
  | encodeFTEID f o => exact answerEncode_effect fun _ => .delivered _
  | decodeNodeID v ieOff => exact answerDecode_effect fun _ => .delivered _
  | decodeFSEID v ieOff => exact answerDecode_effect fun _ => .delivered _
  | encodeFSEID x o => exact answerEncode_effect fun _ => .delivered _
  | decodeGroupedCreatePDR v depth ieOff => exact answerDecode_effect fun _ => .deliveredAt _ _
  | decodeGroupedPDI v depth ieOff => exact answerDecode_effect fun _ => .deliveredAt _ _
  | encodeGroupedCreatePDR c depth o => exact answerEncode_effect fun _ => .delivered _
  | encodeGroupedPDI c depth o => exact answerEncode_effect fun _ => .delivered _
  | nodeIdV4 v ieOff => exact answerDecode_effect fun _ => .delivered _
  | nodeIdV6 v ieOff => exact answerDecode_effect fun _ => .delivered _
  | nodeIdFQDN v ieOff => exact answerDecode_effect fun _ => .delivered _
  | nodeIdOther t v ieOff => exact answerDecode_effect fun _ => .delivered _
  | _ => exact ⟨_, rfl, .delivered _⟩

/-- The inversion lemma: what a next state of an instruction can be. -/
theorem exec_effect {i : Instr} {s t : State} (h : exec i s = .next t) : Effect s t := by
  obtain ⟨u, hu, he⟩ := exec_next_effect i s
  rw [hu] at h
  cases h
  exact he

/-- The inversion lemma of a step: idle, or the effect of one instruction on the state with its request
taken. -/
theorem step_cases {s t : State} (h : step s = .next t) :
    (s.pending = [] ∧ t = s) ∨
    ∃ r rest, s.pending = r :: rest ∧ exec (decodeRequest s.registry r) { s with pending := rest } = .next t := by
  unfold step at h
  cases hp : s.pending with
  | nil => rw [hp] at h; cases h; exact .inl ⟨rfl, rfl⟩
  | cons r rest => rw [hp] at h; exact .inr ⟨r, rest, rfl, h⟩

end Sys2Proof.Machine
end

