-- ==== Sys2Proof/Laws/PerInstr.lean ====
section
/-! SUPPORT. Statements made per instruction: one lemma per constructor of `Instr`. -/

namespace Sys2Proof

open Sys2Proof.Machine

namespace Laws.RequestRoundTrip

/-- The request of a well-formed instruction decodes to it under every registry in which the type codes of
`opcode_table.json` select what they select under `CFG_REF` (R9, R83, R93). -/
def Statement (i : Instr) : Prop :=
  wellFormed i = true → ∀ reg : Registry, reg.hasRefCodes = true → decodeRequest reg (encodeRequest i) = i

/-- What the type codes of the table select. -/
theorem ref_codes {reg : Registry} (h : reg.hasRefCodes = true) :
    reg.kindAt 0#16 = none ∧ reg.kindAt 1#16 = some .grouped ∧ reg.kindAt 2#16 = some .grouped ∧
      reg.kindAt 19#16 = some .cause ∧ reg.kindAt 21#16 = some .fteid ∧ reg.kindAt 57#16 = some .fseid ∧
      reg.kindAt 60#16 = some .nodeId := by
  simpa [Registry.hasRefCodes, and_assoc] using h

/-- The form a well-formed Node ID operand selects. -/
theorem selects_form {v : Bytes} {f : NodeForm} (h : selectsForm v f = true) : nodeForm (nodeNibble (u8 v 0)) = f := by
  simp only [selectsForm, Bool.and_eq_true, beq_iff_eq] at h
  exact h.2

theorem nop : Statement .nop := fun _ _ _ => rfl

theorem regWrite (code : BitVec 16) (kind : BitVec 3) (name : String) : Statement (.regWrite code kind name) := fun _ _ _ => rfl

theorem regLock : Statement .regLock := fun _ _ _ => rfl

theorem decode (input : Bytes) : Statement (.decode input) := fun _ _ _ => rfl

theorem encode (m : Message) : Statement (.encode m) := fun _ _ _ => rfl

theorem classify (S : Bool) (code : BitVec 8) : Statement (.classify S code) := fun _ _ _ => rfl

theorem reservedCmd6 : Statement .reservedCmd6 := fun _ _ _ => rfl

theorem reservedCmd7 : Statement .reservedCmd7 := fun _ _ _ => rfl

theorem decodeHdrNode (b : Bytes) : Statement (.decodeHdrNode b) := by
  intro h reg _
  simp [wellFormed] at h
  simp [encodeRequest, decodeRequest, Operands.zero, h]

theorem decodeHdrSession (b : Bytes) : Statement (.decodeHdrSession b) := by
  intro h reg _
  simp [wellFormed] at h
  simp [encodeRequest, decodeRequest, Operands.zero, h]

theorem encodeHdrNode (version : BitVec 3) (mp : Bool) (messageType : BitVec 8) (seq : BitVec 24) (length : BitVec 16) : Statement (.encodeHdrNode version mp messageType seq length) := fun _ _ _ => rfl

theorem encodeHdrSession (version : BitVec 3) (mp : Bool) (messageType : BitVec 8) (seq : BitVec 24) (ses : Session) (length : BitVec 16) : Statement (.encodeHdrSession version mp messageType seq ses length) := fun _ _ _ => rfl

theorem decodeIEList (b : Bytes) (total : Nat) (depth : Nat) (base : Nat) : Statement (.decodeIEList b total depth base) := fun _ _ _ => rfl

theorem encodeIEList (ies : IEList) (depth : Nat) (off : Nat) : Statement (.encodeIEList ies depth off) := fun _ _ _ => rfl

theorem decodeValue (t : BitVec 16) (v : Bytes) (depth : Nat) (ieOff : Nat) : Statement (.decodeValue t v depth ieOff) := fun _ _ _ => rfl

theorem encodeValue (ie : IE) (depth : Nat) (o : Nat) : Statement (.encodeValue ie depth o) := fun _ _ _ => rfl

theorem decodeCause (v : Bytes) (ieOff : Nat) : Statement (.decodeCause v ieOff) := by
  intro _ reg hr
  have h := ref_codes hr
  simp [encodeRequest, ieDecodeRequest, decodeRequest, decodeIeDecode, h.2.2.2.1]

theorem encodeCause (c : CauseValue) : Statement (.encodeCause c) := by
  intro _ reg hr
  have h := ref_codes hr
  simp [encodeRequest, decodeRequest, decodeIeEncode, h.2.2.2.1]

theorem decodeFTEID (v : Bytes) (ieOff : Nat) : Statement (.decodeFTEID v ieOff) := by
  intro _ reg hr
  have h := ref_codes hr
  simp [encodeRequest, ieDecodeRequest, decodeRequest, decodeIeDecode, h.2.2.2.2.1]

theorem encodeFTEID (f : FTEID) (o : Nat) : Statement (.encodeFTEID f o) := by
  intro _ reg hr
  have h := ref_codes hr
  simp [encodeRequest, decodeRequest, decodeIeEncode, h.2.2.2.2.1]

theorem decodeNodeID (v : Bytes) (ieOff : Nat) : Statement (.decodeNodeID v ieOff) := by
  intro _ reg hr
  have h := ref_codes hr
  simp [encodeRequest, ieDecodeRequest, decodeRequest, decodeIeDecode, h.2.2.2.2.2.2]

theorem encodeNodeID (n : NodeIdValue) : Statement (.encodeNodeID n) := by
  intro _ reg hr
  have h := ref_codes hr
  simp [encodeRequest, decodeRequest, decodeIeEncode, h.2.2.2.2.2.2]

theorem decodeFSEID (v : Bytes) (ieOff : Nat) : Statement (.decodeFSEID v ieOff) := by
  intro _ reg hr
  have h := ref_codes hr
  simp [encodeRequest, ieDecodeRequest, decodeRequest, decodeIeDecode, h.2.2.2.2.2.1]

theorem encodeFSEID (x : FSEID) (o : Nat) : Statement (.encodeFSEID x o) := by
  intro _ reg hr
  have h := ref_codes hr
  simp [encodeRequest, decodeRequest, decodeIeEncode, h.2.2.2.2.2.1]

theorem decodeGroupedCreatePDR (v : Bytes) (depth : Nat) (ieOff : Nat) : Statement (.decodeGroupedCreatePDR v depth ieOff) := by
  intro _ reg hr
  have h := ref_codes hr
  simp [encodeRequest, ieDecodeRequest, decodeRequest, decodeIeDecode, pdiCode, h.2.1]

theorem decodeGroupedPDI (v : Bytes) (depth : Nat) (ieOff : Nat) : Statement (.decodeGroupedPDI v depth ieOff) := by
  intro _ reg hr
  have h := ref_codes hr
  simp [encodeRequest, ieDecodeRequest, decodeRequest, decodeIeDecode, pdiCode, h.2.2.1]

theorem encodeGroupedCreatePDR (children : IEList) (depth : Nat) (o : Nat) : Statement (.encodeGroupedCreatePDR children depth o) := by
  intro _ reg hr
  have h := ref_codes hr
  simp [encodeRequest, decodeRequest, decodeIeEncode, pdiCode, h.2.1]

theorem encodeGroupedPDI (children : IEList) (depth : Nat) (o : Nat) : Statement (.encodeGroupedPDI children depth o) := by
  intro _ reg hr
  have h := ref_codes hr
  simp [encodeRequest, decodeRequest, decodeIeEncode, pdiCode, h.2.2.1]

theorem decodeUnrecognized (v : Bytes) : Statement (.decodeUnrecognized v) := by
  intro _ reg hr
  have h := ref_codes hr
  simp [encodeRequest, ieDecodeRequest, decodeRequest, decodeIeDecode, h.1]

theorem encodeUnrecognized (raw : Bytes) : Statement (.encodeUnrecognized raw) := by
  intro _ reg hr
  have h := ref_codes hr
  simp [encodeRequest, decodeRequest, decodeIeEncode, h.1]

theorem nodeIdV4 (v : Bytes) (ieOff : Nat) : Statement (.nodeIdV4 v ieOff) := by
  intro h reg _
  simp only [wellFormed, Bool.and_eq_true] at h
  simp only [encodeRequest, nodeIdRequest, decodeRequest, decodeNodeIdForm, selects_form h.2]

theorem nodeIdV6 (v : Bytes) (ieOff : Nat) : Statement (.nodeIdV6 v ieOff) := by
  intro h reg _
  simp only [wellFormed, Bool.and_eq_true] at h
  simp only [encodeRequest, nodeIdRequest, decodeRequest, decodeNodeIdForm, selects_form h.2]

theorem nodeIdFQDN (v : Bytes) (ieOff : Nat) : Statement (.nodeIdFQDN v ieOff) := by
  intro h reg _
  simp only [wellFormed, Bool.and_eq_true] at h
  simp only [encodeRequest, nodeIdRequest, decodeRequest, decodeNodeIdForm, selects_form h.2]

theorem nodeIdOther (nodeType : OtherType) (v : Bytes) (ieOff : Nat) : Statement (.nodeIdOther nodeType v ieOff) := by
  intro h reg _
  simp only [wellFormed, Bool.and_eq_true] at h
  simp only [encodeRequest, nodeIdRequest, decodeRequest, decodeNodeIdForm, selects_form h.2]

theorem kindUnknown (S : Bool) (code : BitVec 8) : Statement (.kindUnknown S code) := by
  intro h reg _
  simpa [wellFormed, encodeRequest, kindRequest, decodeRequest] using h

theorem kindNode1 : Statement .kindNode1 := fun _ _ _ => rfl

theorem kindNode2 : Statement .kindNode2 := fun _ _ _ => rfl

theorem kindNode3 : Statement .kindNode3 := fun _ _ _ => rfl

theorem kindNode4 : Statement .kindNode4 := fun _ _ _ => rfl

theorem kindNode5 : Statement .kindNode5 := fun _ _ _ => rfl

theorem kindNode6 : Statement .kindNode6 := fun _ _ _ => rfl

theorem kindNode7 : Statement .kindNode7 := fun _ _ _ => rfl

theorem kindNode8 : Statement .kindNode8 := fun _ _ _ => rfl

theorem kindNode9 : Statement .kindNode9 := fun _ _ _ => rfl

theorem kindNode10 : Statement .kindNode10 := fun _ _ _ => rfl

theorem kindNode11 : Statement .kindNode11 := fun _ _ _ => rfl

theorem kindNode12 : Statement .kindNode12 := fun _ _ _ => rfl

theorem kindNode13 : Statement .kindNode13 := fun _ _ _ => rfl

theorem kindNode14 : Statement .kindNode14 := fun _ _ _ => rfl

theorem kindNode15 : Statement .kindNode15 := fun _ _ _ => rfl

theorem kindSession50 : Statement .kindSession50 := fun _ _ _ => rfl

theorem kindSession51 : Statement .kindSession51 := fun _ _ _ => rfl

theorem kindSession52 : Statement .kindSession52 := fun _ _ _ => rfl

theorem kindSession53 : Statement .kindSession53 := fun _ _ _ => rfl

theorem kindSession54 : Statement .kindSession54 := fun _ _ _ => rfl

theorem kindSession55 : Statement .kindSession55 := fun _ _ _ => rfl

theorem kindSession56 : Statement .kindSession56 := fun _ _ _ => rfl

theorem kindSession57 : Statement .kindSession57 := fun _ _ _ => rfl

end Laws.RequestRoundTrip

end Sys2Proof
end

