-- ==== Sys2Proof/Laws/Registry.lean ====
section
/-! SUPPORT. Laws of the registry table (`spec/10_state.md` R31, `spec/42_registry.md` R165, R168): a write
keeps the canonical form, is read back, and leaves every other code alone. -/

namespace Sys2Proof.Machine

/-- Reading back a write (R165, R168). -/
@[simp] theorem Registry.lookup_set_same (r : Registry) (t : Nat) (e : Entry) : (r.set t e).lookup t = some e := by
  induction r with
  | nil => simp [Registry.set, Registry.lookup]
  | cons x rest ih =>
    obtain ⟨c, y⟩ := x
    unfold Registry.set
    split
    · simp [Registry.lookup]
    · split
      · simp [Registry.lookup]
      · rename_i h; simp [Registry.lookup, h, ih]

/-- A write leaves every other code alone (R165). -/
theorem Registry.lookup_set_other (r : Registry) {t u : Nat} (e : Entry) (h : u ≠ t) :
    (r.set t e).lookup u = r.lookup u := by
  induction r with
  | nil => simp [Registry.set, Registry.lookup, h.symm]
  | cons x rest ih =>
    obtain ⟨c, y⟩ := x
    unfold Registry.set
    split
    · simp [Registry.lookup, h.symm]
    · split
      · rename_i hc; subst hc; simp [Registry.lookup, h.symm]
      · simp [Registry.lookup, ih]

/-- The first code of a write's result: the written one or the old first. -/
theorem Registry.head_set (r : Registry) (t : Nat) (e : Entry) :
    ∀ c y rest, r.set t e = (c, y) :: rest → c = t ∨ ∃ z zs, r = (c, z) :: zs := by
  intro c y rest h
  cases r with
  | nil => simp [Registry.set] at h; exact .inl h.1.1.symm
  | cons x xs =>
    obtain ⟨d, z⟩ := x
    unfold Registry.set at h
    split at h
    · simp at h; exact .inl h.1.1.symm
    · split at h
      · simp at h; exact .inl h.1.1.symm
      · simp at h; exact .inr ⟨z, xs, by rw [h.1.1]⟩

theorem Memory.wf_cons {c : Nat} {e : Entry} {rest : Registry} :
    Memory.wf ((c, e) :: rest) = true ↔ c < 65536 ∧ Memory.wf rest = true ∧ ∀ d y ys, rest = (d, y) :: ys → c < d := by
  induction rest generalizing c e with
  | nil => simp [Memory.wf]
  | cons x xs ih =>
    obtain ⟨d, y⟩ := x
    rw [Memory.wf, Bool.and_eq_true, decide_eq_true_eq]
    constructor
    · rintro ⟨h1, h2⟩
      refine ⟨by have := (ih.mp h2).1; omega, h2, ?_⟩
      intro d' y' ys h; simp at h; omega
    · rintro ⟨_, h2, h3⟩
      exact ⟨h3 d y xs rfl, h2⟩

/-- The one write to the table keeps the canonical form. -/
theorem Registry.set_wf (r : Registry) {t : Nat} (e : Entry) (ht : t < 65536) (h : Memory.wf r = true) :
    Memory.wf (r.set t e) = true := by
  induction r with
  | nil => simp [Registry.set, Memory.wf, ht]
  | cons x rest ih =>
    obtain ⟨c, y⟩ := x
    obtain ⟨hc, hrest, hlt⟩ := Memory.wf_cons.mp h
    unfold Registry.set
    split
    · rename_i htc
      refine Memory.wf_cons.mpr ⟨ht, h, ?_⟩
      intro d y' ys heq; simp at heq; omega
    · split
      · rename_i _ hct; subst hct
        exact Memory.wf_cons.mpr ⟨ht, hrest, hlt⟩
      · rename_i h1 h2
        refine Memory.wf_cons.mpr ⟨hc, ih hrest, ?_⟩
        intro d y' ys heq
        rcases Registry.head_set rest t e d y' ys heq with hd | ⟨z, zs, hz⟩
        · omega
        · exact hlt d z zs hz

/-- A code before the first listed one reads as empty. -/
theorem Registry.wf_lookup_none {r : Registry} (h : Memory.wf r = true) {c : Nat} {y : Entry} {ys : Registry}
    (hr : r = (c, y) :: ys) : ∀ t, t < c → r.lookup t = none := by
  induction r generalizing c y ys with
  | nil => simp at hr
  | cons x xs ih =>
    intro t ht
    obtain ⟨rfl, rfl⟩ := List.cons.inj hr
    obtain ⟨_, h2, h3⟩ := Memory.wf_cons.mp h
    rw [Registry.lookup, if_neg (by omega)]
    cases xs with
    | nil => rfl
    | cons z zs =>
      obtain ⟨d, w⟩ := z
      exact ih h2 rfl t (by have := h3 d w zs rfl; omega)

/-- The reference registry is in canonical form (R9). -/
theorem refRegistry_wf : Memory.wf refRegistry = true := by decide

end Sys2Proof.Machine
end

