-- ==== Sys2Proof/Tests/Slice0.lean ====
section
/-! SUPPORT. Tests of the model. Every expected value is taken from `spec/95_test_vectors.md` (the vector's id is in
the docstring) or written out from the formats of `spec/30_encoding.md`. The last part is the witnesses: for each
statement of `Certificates/Slice0/Obligations.lean` that has hypotheses, a state and operands that meet them. -/

namespace Sys2Proof.Tests.Slice0

open Sys2Proof Sys2Proof.Machine

/-- The start state of the vectors: RUN with the registry of `CFG_REF` and the CFG of R8. -/
def runState : State := { State.reset with phase := .run, registry := refRegistry }

/-- RUN with an empty registry. -/
def emptyLocked : State := { State.reset with phase := .run }

/-- The delivered result and STATUS after one instruction. -/
def outcome (i : Instr) (s : State) : Option (CmdResult × Status) :=
  match exec i s with
  | .next t => some (t.result, t.status)
  | _ => none

/-- The value an internal operation handed over, and CUR. -/
def handed (i : Instr) (s : State) : Option (Bus × BitVec 17) :=
  match exec i s with
  | .next t => some (t.bus, t.work.cur)
  | _ => none

/-- An error result with the STATUS R246 gives it, `code` taken from the table of R241. -/
def failed (k : ErrKind) (code : BitVec 4) (off : Nat) : Option (CmdResult × Status) :=
  some (.err ⟨k, off⟩, ⟨code, false, false, off⟩)

/-- A success with STATUS all zero. -/
def fine (r : CmdResult) : Option (CmdResult × Status) := some (r, ⟨0, false, false, 0⟩)

/-- The header `v=1 mp=0 type=1 seq=1` of most vectors. -/
def nodeHeader : Header := ⟨1, false, 1, 1, none⟩

/-- The IPv6 address 2001:db8::1 of the vectors. -/
def addr6 : Octets 16 := ⟨[0x20, 0x01, 0x0D, 0xB8, 0x00, 0x00, 0x00, 0x00, 0x00, 0x00, 0x00, 0x00, 0x00, 0x00, 0x00, 0x01], rfl⟩

/-- The operand ports with only the octets given. -/
def octetPorts (b : Bytes) : Operands := { Operands.zero with input := b }

/-! ### Well-formedness: each check refuses an ill-formed term -/

/-- A header octet with S set is no HDR_NODE, one with S clear no HDR_SESSION (R93). -/
theorem test_wf_header_shape :
    wellFormed (.decodeHdrNode [0x21]) = false ∧ wellFormed (.decodeHdrNode [0x20]) = true ∧
    wellFormed (.decodeHdrSession [0x20]) = false ∧ wellFormed (.decodeHdrSession [0x21]) = true := by decide

/-- A window ends within 4 + 65535 octets (R22). -/
theorem test_wf_window :
    wellFormed (.decodeIEList [] 65540 0 0) = false ∧ wellFormed (.decodeIEList [] 65539 0 0) = true := by decide

/-- A value ends within 4 + 65535 octets: 65534 + 4 + 1 is the last offset. -/
theorem test_wf_value_offset :
    wellFormed (.decodeCause [1] 65535) = false ∧ wellFormed (.decodeCause [1] 65534) = true ∧
    wellFormed (.decodeValue 19 [1] 0 65535) = false ∧ wellFormed (.decodeFTEID [1] 65535) = false ∧
    wellFormed (.decodeNodeID [1] 65535) = false ∧ wellFormed (.decodeFSEID [1] 65535) = false ∧
    wellFormed (.decodeGroupedCreatePDR [1] 0 65535) = false ∧
    wellFormed (.decodeGroupedPDI [1] 0 65535) = false := by decide

/-- A value's length fits the 16-bit length field (R82). -/
theorem test_wf_value_length :
    wellFormed (.decodeUnrecognized (List.replicate 65536 0#8)) = false ∧
    wellFormed (.decodeCause (List.replicate 65536 0#8) 0) = false ∧
    wellFormed (.decodeUnrecognized (List.replicate 65535 0#8)) = true := by
  simp only [wellFormed, valueFits, List.length_replicate]; decide

/-- The selecting octet of a Node ID sub-format agrees with the row, and is there (R93). -/
theorem test_wf_node_form :
    wellFormed (.nodeIdV4 [0x01] 0) = false ∧ wellFormed (.nodeIdV4 [0xF0] 0) = true ∧
    wellFormed (.nodeIdV6 [0x00] 0) = false ∧ wellFormed (.nodeIdFQDN [0x03] 0) = false ∧
    wellFormed (.nodeIdOther ⟨3, by decide⟩ [0x04] 0) = false ∧ wellFormed (.nodeIdV4 [] 0) = false ∧
    wellFormed (.nodeIdV4 [0x00] 65535) = false := by decide

/-- KIND_UNKNOWN is every selector no other kind row has (R210). -/
theorem test_wf_kind_unknown :
    wellFormed (.kindUnknown false 1) = false ∧ wellFormed (.kindUnknown true 50) = false ∧
    wellFormed (.kindUnknown true 1) = true ∧ wellFormed (.kindUnknown false 50) = true := by decide

/-! ### Decoding: words written out from the spec's encodings -/

/-- The command codes of R83, bits 2:0. -/
theorem test_decode_commands :
    decodeRequest [] ⟨.command 0b000#3, Operands.zero⟩ = .nop ∧
    decodeRequest [] ⟨.command 0b001#3, { Operands.zero with code := 0x0013, kind := 0b001, name := "Cause" }⟩ =
      .regWrite 19 1 "Cause" ∧
    decodeRequest [] ⟨.command 0b010#3, Operands.zero⟩ = .regLock ∧
    decodeRequest [] ⟨.command 0b011#3, octetPorts [0x20, 0x01]⟩ = .decode [0x20, 0x01] ∧
    decodeRequest [] ⟨.command 0b100#3, { Operands.zero with msg := ⟨nodeHeader, .nil⟩ }⟩ = .encode ⟨nodeHeader, .nil⟩ ∧
    decodeRequest [] ⟨.command 0b101#3, { Operands.zero with flagS := true, mtype := 50 }⟩ = .classify true 50 ∧
    decodeRequest [] ⟨.command 0b110#3, Operands.zero⟩ = .reservedCmd6 ∧
    decodeRequest [] ⟨.command 0b111#3, Operands.zero⟩ = .reservedCmd7 := by decide

/-- The header shapes by bit 0 of octet 0: 0x20 = 0b001_000_0_0, 0x21 = 0b001_000_0_1 (R80, R81, R93). -/
theorem test_decode_header_rows :
    decodeRequest [] ⟨.headerDecode, octetPorts [0x20, 0x01]⟩ = .decodeHdrNode [0x20, 0x01] ∧
    decodeRequest [] ⟨.headerDecode, octetPorts [0x21, 0x01]⟩ = .decodeHdrSession [0x21, 0x01] ∧
    decodeRequest [] ⟨.headerEncode, { Operands.zero with hdr := ⟨2, true, 99, 0xABCDEF, none⟩, hlen := 4 }⟩ =
      .encodeHdrNode 2 true 99 0xABCDEF 4 ∧
    decodeRequest [] ⟨.headerEncode, { Operands.zero with hdr := ⟨1, false, 50, 2, some ⟨1, 5⟩⟩, hlen := 12 }⟩ =
      .encodeHdrSession 1 false 50 2 ⟨1, 5⟩ 12 := by decide

/-- The list and value operations, with every operand (R140, R145, R162, R164). -/
theorem test_decode_list_rows :
    decodeRequest [] ⟨.listDecode, { octetPorts [0xAA] with total := 10, depth := 2, offset := 8 }⟩ =
      .decodeIEList [0xAA] 10 2 8 ∧
    decodeRequest [] ⟨.listEncode, { Operands.zero with ies := .cons 96 (.unrecognized [0xAA]) .nil, depth := 2, offset := 8 }⟩ =
      .encodeIEList (.cons 96 (.unrecognized [0xAA]) .nil) 2 8 ∧
    decodeRequest [] ⟨.valueDecode, { octetPorts [0xAA] with code := 0x0060, depth := 2, offset := 8 }⟩ =
      .decodeValue 96 [0xAA] 2 8 ∧
    decodeRequest [] ⟨.valueEncode, { Operands.zero with code := 0x0060, value := .unrecognized [0xAA], depth := 2, offset := 8 }⟩ =
      .encodeValue ⟨96, .unrecognized [0xAA]⟩ 2 8 := by decide

/-- The value decoders by the registry entry of the type code (R9, R93). -/
theorem test_decode_ie_decode_rows :
    decodeRequest refRegistry ⟨.ieDecode, { octetPorts [0xAA] with code := 0x0013, offset := 8 }⟩ = .decodeCause [0xAA] 8 ∧
    decodeRequest refRegistry ⟨.ieDecode, { octetPorts [0xAA] with code := 0x0015, offset := 8 }⟩ = .decodeFTEID [0xAA] 8 ∧
    decodeRequest refRegistry ⟨.ieDecode, { octetPorts [0xAA] with code := 0x003C, offset := 8 }⟩ = .decodeNodeID [0xAA] 8 ∧
    decodeRequest refRegistry ⟨.ieDecode, { octetPorts [0xAA] with code := 0x0039, offset := 8 }⟩ = .decodeFSEID [0xAA] 8 ∧
    decodeRequest refRegistry ⟨.ieDecode, { octetPorts [0xAA] with code := 0x0001, depth := 3, offset := 8 }⟩ =
      .decodeGroupedCreatePDR [0xAA] 3 8 ∧
    decodeRequest refRegistry ⟨.ieDecode, { octetPorts [0xAA] with code := 0x0002, depth := 3, offset := 8 }⟩ =
      .decodeGroupedPDI [0xAA] 3 8 ∧
    decodeRequest refRegistry ⟨.ieDecode, { octetPorts [0xAA] with code := 0x0060, offset := 8 }⟩ = .decodeUnrecognized [0xAA] ∧
    decodeRequest [] ⟨.ieDecode, { octetPorts [0xAA] with code := 0x0013, offset := 8 }⟩ = .decodeUnrecognized [0xAA] := by decide

/-- The value encoders (R93, R164). -/
theorem test_decode_ie_encode_rows :
    decodeRequest refRegistry ⟨.ieEncode, { Operands.zero with code := 0x0013, cause := ⟨1, [0xAA]⟩ }⟩ =
      .encodeCause ⟨1, [0xAA]⟩ ∧
    decodeRequest refRegistry ⟨.ieEncode, { Operands.zero with code := 0x0015, fteid := ⟨false, false, true, false, none, none, none, none, [0xAA]⟩, offset := 8 }⟩ =
      .encodeFTEID ⟨false, false, true, false, none, none, none, none, [0xAA]⟩ 8 ∧
    decodeRequest refRegistry ⟨.ieEncode, { Operands.zero with code := 0x003C, nodeId := .fqdn [0xAA] }⟩ =
      .encodeNodeID (.fqdn [0xAA]) ∧
    decodeRequest refRegistry ⟨.ieEncode, { Operands.zero with code := 0x0039, fseid := ⟨false, false, 1, none, none, [0xAA]⟩, offset := 8 }⟩ =
      .encodeFSEID ⟨false, false, 1, none, none, [0xAA]⟩ 8 ∧
    decodeRequest refRegistry ⟨.ieEncode, { Operands.zero with code := 0x0001, ies := .cons 96 (.unrecognized [0xAA]) .nil, depth := 3, offset := 8 }⟩ =
      .encodeGroupedCreatePDR (.cons 96 (.unrecognized [0xAA]) .nil) 3 8 ∧
    decodeRequest refRegistry ⟨.ieEncode, { Operands.zero with code := 0x0002, ies := .cons 96 (.unrecognized [0xAA]) .nil, depth := 3, offset := 8 }⟩ =
      .encodeGroupedPDI (.cons 96 (.unrecognized [0xAA]) .nil) 3 8 ∧
    decodeRequest refRegistry ⟨.ieEncode, { octetPorts [0xAA] with code := 0x0060 }⟩ = .encodeUnrecognized [0xAA] := by decide

/-- The Node ID sub-formats by bits 3:0 of octet 0, whatever bits 7:4 are (R93, R188). -/
theorem test_decode_node_id_rows :
    decodeRequest [] ⟨.nodeIdForm, { octetPorts [0xF0, 0xAA] with offset := 8 }⟩ = .nodeIdV4 [0xF0, 0xAA] 8 ∧
    decodeRequest [] ⟨.nodeIdForm, { octetPorts [0x01, 0xAA] with offset := 8 }⟩ = .nodeIdV6 [0x01, 0xAA] 8 ∧
    decodeRequest [] ⟨.nodeIdForm, { octetPorts [0x02, 0xAA] with offset := 8 }⟩ = .nodeIdFQDN [0x02, 0xAA] 8 ∧
    decodeRequest [] ⟨.nodeIdForm, { octetPorts [0x03, 0xAA] with offset := 8 }⟩ = .nodeIdOther ⟨3, by decide⟩ [0x03, 0xAA] 8 ∧
    decodeRequest [] ⟨.nodeIdForm, { octetPorts [0x0F, 0xAA] with offset := 8 }⟩ = .nodeIdOther ⟨15, by decide⟩ [0x0F, 0xAA] 8 := by
  decide

/-- The message kind rows of the node code space (R93, R210). -/
theorem test_decode_kind_node_rows :
    kindInstr false 1 = .kindNode1 ∧ kindInstr false 2 = .kindNode2 ∧ kindInstr false 3 = .kindNode3 ∧
    kindInstr false 4 = .kindNode4 ∧ kindInstr false 5 = .kindNode5 ∧ kindInstr false 6 = .kindNode6 ∧
    kindInstr false 7 = .kindNode7 ∧ kindInstr false 8 = .kindNode8 ∧ kindInstr false 9 = .kindNode9 ∧
    kindInstr false 10 = .kindNode10 ∧ kindInstr false 11 = .kindNode11 ∧ kindInstr false 12 = .kindNode12 ∧
    kindInstr false 13 = .kindNode13 ∧ kindInstr false 14 = .kindNode14 ∧ kindInstr false 15 = .kindNode15 ∧
    kindInstr false 0 = .kindUnknown false 0 ∧ kindInstr false 16 = .kindUnknown false 16 ∧
    decodeRequest [] ⟨.messageKind, { Operands.zero with flagS := false, mtype := 0x05 }⟩ = .kindNode5 := by decide

/-- The message kind rows of the session code space (R93, R210). -/
theorem test_decode_kind_session_rows :
    kindInstr true 50 = .kindSession50 ∧ kindInstr true 51 = .kindSession51 ∧ kindInstr true 52 = .kindSession52 ∧
    kindInstr true 53 = .kindSession53 ∧ kindInstr true 54 = .kindSession54 ∧ kindInstr true 55 = .kindSession55 ∧
    kindInstr true 56 = .kindSession56 ∧ kindInstr true 57 = .kindSession57 ∧
    kindInstr true 49 = .kindUnknown true 49 ∧ kindInstr true 58 = .kindUnknown true 58 ∧
    kindInstr true 1 = .kindUnknown true 1 ∧
    decodeRequest [] ⟨.messageKind, { Operands.zero with flagS := true, mtype := 0x39 }⟩ = .kindSession57 := by decide

/-- Words of `opcode_table.json`, and a rejection of each kind. -/
theorem test_table_words :
    decodeTableWord 8 0x1 = some (.regWrite 0 0 "") ∧ decodeTableWord 8 0x3 = some (.decode []) ∧
    decodeTableWord 8 0x5 = some (.classify false 0) ∧ decodeTableWord 16 0x0001 = some (.decodeGroupedCreatePDR [] 0 0) ∧
    decodeTableWord 16 0x0002 = some (.decodeGroupedPDI [] 0 0) ∧ decodeTableWord 16 0x00F = some .kindNode15 ∧
    decodeTableWord 16 0x139 = some .kindSession57 ∧ decodeTableWord 16 0x000 = some (.kindUnknown false 0) ∧
    decodeWord 8 256 = .error .wordTooWide ∧ decodeWord 0 0 = .error .noSuchWidth ∧ decodeWord 24 0 = .error .noSuchWidth ∧
    decodeWord 8 8 = .error .noSuchCommand ∧ decodeWord 16 0x0200 = .error .noSuchRow := by decide

/-! ### Reset and the step -/

/-- R34: phase INIT, `STATUS` zero, every entry empty (one looked up here). -/
theorem test_reset :
    State.reset.phase = .init ∧ State.reset.status = ⟨0, false, false, 0⟩ ∧ State.reset.registry.at 19 = none := by decide

/-- A command placed at the port is what the next step runs. -/
theorem test_step_runs_fetched_command : ∃ t, step (State.reset.withFetchWord 8 0x2) = .next t ∧ t.phase = .run ∧
    t.pending = [] := ⟨_, rfl, rfl, rfl⟩

/-- An IE type word is selected through the registry entry `CFG_REF` gives it. -/
theorem test_step_runs_fetched_ie_row :
    step (State.reset.withFetchWord 16 0x0013) =
      exec (.decodeCause [] 0) { State.reset with registry := [(19, ⟨.cause, "Cause"⟩)] } := rfl

/-! ### The host commands (table B3, table K) -/

/-- Step 9 of table B3: NOP leaves even STATUS. -/
theorem test_nop : ∃ t, exec .nop { State.reset with status := ⟨11, false, false, 0⟩ } = .next t ∧
    t.status = ⟨11, false, false, 0⟩ := ⟨_, rfl, rfl⟩

/-- Step 4 of table B3. -/
theorem test_reg_write : ∃ t, exec (.regWrite 19 1 "Cause") State.reset = .next t ∧
    t.registry.at 19 = some ⟨.cause, "Cause"⟩ ∧ t.registry.at 21 = none ∧ t.status = ⟨0, false, false, 0⟩ :=
  ⟨_, rfl, rfl, rfl, rfl⟩

/-- Steps 5, 7, 8, 13, 14, 15 of table B3: kind before phase before conflict. -/
theorem test_reg_write_refusals :
    outcome (.regWrite 19 2 "x") { State.reset with registry := [(19, ⟨.cause, "Cause"⟩)] } = failed .registryConflict 10 0 ∧
    outcome (.regWrite 21 0 "bad") State.reset = failed .illegalCommand 11 0 ∧
    outcome (.regWrite 21 7 "bad") State.reset = failed .illegalCommand 11 0 ∧
    outcome (.regWrite 96 1 "late") runState = failed .registryLocked 9 0 ∧
    outcome (.regWrite 96 0 "late") runState = failed .illegalCommand 11 0 ∧
    outcome (.regWrite 19 1 "Cause") runState = failed .registryLocked 9 0 := by decide

/-- Steps 12 and 16 of table B3. -/
theorem test_reg_lock : ∃ t u, exec .regLock State.reset = .next t ∧ t.phase = .run ∧ exec .regLock t = .next u ∧
    u.phase = .run ∧ u.status = ⟨0, false, false, 0⟩ := ⟨_, _, rfl, rfl, rfl, rfl, rfl⟩

/-- Steps 3, 10 of table B3 and rows of table K. -/
theorem test_classify :
    outcome (.classify false 5) State.reset = fine (.classified (.node 5) 5) ∧
    outcome (.classify false 15) runState = fine (.classified (.node 15) 15) ∧
    outcome (.classify false 16) runState = fine (.classified .unknown 16) ∧
    outcome (.classify true 49) runState = fine (.classified .unknown 49) ∧
    outcome (.classify true 50) runState = fine (.classified (.session 50) 50) ∧
    outcome (.classify true 57) runState = fine (.classified (.session 57) 57) ∧
    outcome (.classify true 1) runState = fine (.classified .unknown 1) := by decide

/-- Command code 6 (R170). -/
theorem test_reserved_6 : outcome .reservedCmd6 State.reset = failed .illegalCommand 11 0 := by decide

/-- Step 10 of table B3. -/
theorem test_reserved_7 : outcome .reservedCmd7 State.reset = failed .illegalCommand 11 0 := by decide

/-- The Message of program P2. -/
def messageP2 : Message :=
  ⟨⟨1, false, 50, 2, some ⟨0, 0⟩⟩,
    .cons 60 (.nodeId (.v4 ⟨[0xC0, 0x00, 0x02, 0x01], rfl⟩ []))
    (.cons 57 (.fseid ⟨true, false, 0x1122334455667788, some ⟨[0x0A, 0x00, 0x00, 0x01], rfl⟩, none, []⟩)
    (.cons 1 (.grouped (.cons 56 (.unrecognized [0x00, 0x01])
      (.cons 2 (.grouped (.cons 20 (.unrecognized [0x00])
        (.cons 21 (.fteid ⟨true, false, false, false, some 100, some ⟨[0xC0, 0x00, 0x02, 0x02], rfl⟩, none, none, []⟩) .nil))) .nil)))
    .nil))⟩

/-- The 74 octets of program P2. -/
def octetsP2 : Bytes :=
  [0x21, 0x32, 0x00, 0x46, 0x00, 0x00, 0x00, 0x00, 0x00, 0x00, 0x00, 0x00, 0x00, 0x00, 0x02, 0x00] ++ [0x00, 0x3C, 0x00, 0x05, 0x00, 0xC0, 0x00, 0x02, 0x01] ++
  [0x00, 0x39, 0x00, 0x0D, 0x02, 0x11, 0x22, 0x33, 0x44, 0x55, 0x66, 0x77, 0x88, 0x0A, 0x00, 0x00, 0x01] ++ [0x00, 0x01, 0x00, 0x1C, 0x00, 0x38, 0x00, 0x02, 0x00, 0x01] ++
  [0x00, 0x02, 0x00, 0x12, 0x00, 0x14, 0x00, 0x01, 0x00, 0x00, 0x15, 0x00, 0x09, 0x08, 0x00, 0x00, 0x00, 0x64, 0xC0, 0x00, 0x02, 0x02]

/-- Program P2: grouped IEs two deep. -/
theorem test_decode_P2 : outcome (.decode octetsP2) runState =
    fine (.decoded ⟨messageP2, 70, .session 50, 74, false, false⟩) := by rfl

/-- Errors of DECODE: A1, H2, A2, A3, LS4, LS7, GR3, GR8, and step 1 of table B3. -/
theorem test_decode_errors :
    outcome (.decode [0x21, 0x01, 0x00, 0x04, 0x00, 0x00, 0x00, 0x08]) runState = failed .truncatedHeader 1 0 ∧
    outcome (.decode [0x20, 0x01, 0x00, 0x03, 0x00, 0x00, 0x01, 0x00]) runState = failed .truncatedHeader 1 0 ∧
    outcome (.decode [0x20, 0x01, 0x00, 0x10, 0x00, 0x00, 0x01, 0x00, 0x00, 0x15, 0x00, 0x08, 0x08, 0x00, 0x00, 0x00, 0x01, 0xC0, 0x00, 0x02]) runState =
      failed .invalidConditionalLayout 4 8 ∧
    outcome (.decode [0x20, 0x01, 0x00, 0x12, 0x00, 0x00, 0x01, 0x00, 0x00, 0x60, 0x00, 0x0A, 0x01, 0x02, 0x03, 0x04, 0x05, 0x06]) runState = failed .truncatedIE 2 8 ∧
    outcome (.decode [0x20, 0x01, 0x00, 0x07, 0x00, 0x00, 0x01, 0x00, 0x00, 0x60, 0x00, 0x00, 0xFF]) runState = failed .overrunIE 3 8 ∧
    outcome (.decode [0x20, 0x01, 0x00, 0x0E, 0x00, 0x00, 0x01, 0x00, 0x00, 0x60, 0x00, 0x01, 0xAA, 0x00, 0x61, 0x00, 0x02, 0xBB, 0xCC]) runState = failed .overrunIE 3 13 ∧
    outcome (.decode [0x21, 0x32, 0x00, 0x13, 0x00, 0x00, 0x00, 0x00, 0x00, 0x00, 0x00, 0x00, 0x00, 0x00, 0x01, 0x00, 0x00, 0x01, 0x00, 0x03, 0xAA, 0xBB, 0xCC]) runState =
      failed .truncatedIE 2 20 ∧
    outcome (.decode ([0x21, 0x32, 0x00, 0x50, 0x00, 0x00, 0x00, 0x00, 0x00, 0x00, 0x00, 0x00, 0x00, 0x00, 0x01, 0x00, 0x00, 0x01, 0x00, 0x40, 0x00, 0x01, 0x00, 0x3C, 0x00, 0x01, 0x00, 0x38] ++
        [0x00, 0x01, 0x00, 0x34, 0x00, 0x01, 0x00, 0x30, 0x00, 0x01, 0x00, 0x2C, 0x00, 0x01, 0x00, 0x28, 0x00, 0x01, 0x00, 0x24, 0x00, 0x01, 0x00, 0x20, 0x00, 0x01, 0x00, 0x1C] ++
        [0x00, 0x01, 0x00, 0x18, 0x00, 0x01, 0x00, 0x14, 0x00, 0x01, 0x00, 0x10, 0x00, 0x01, 0x00, 0x0C, 0x00, 0x01, 0x00, 0x08, 0x00, 0x01, 0x00, 0x04, 0x00, 0x01, 0x00, 0x00])) runState =
      failed .depthExceeded 6 80 ∧
    outcome (.decode [0x20, 0x01, 0x00, 0x04, 0x00, 0x00, 0x01, 0x00]) State.reset = failed .notInitialised 8 0 := by decide

/-- Program P2 encoded: the octets it was decoded from. -/
theorem test_encode_P2 : outcome (.encode messageP2) runState = fine (.encoded octetsP2) := by decide

/-- Errors of ENCODE: E1, E2, E3, E7, E18, and step 2 of table B3. -/
theorem test_encode_errors :
    outcome (.encode ⟨nodeHeader, .cons 19 (.unrecognized [0x01]) .nil⟩) runState = failed .inconsistentIEValue 5 8 ∧
    outcome (.encode ⟨nodeHeader, .cons 96 (.cause ⟨1, []⟩) .nil⟩) runState = failed .inconsistentIEValue 5 8 ∧
    outcome (.encode ⟨nodeHeader, .cons 96 (.unrecognized [0xAA])
        (.cons 21 (.fteid ⟨true, false, false, false, some 1, none, none, none, []⟩) .nil)⟩) runState =
      failed .inconsistentIEValue 5 13 ∧
    outcome (.encode ⟨nodeHeader, .cons 1 (.grouped (.cons 56 (.unrecognized [0x00, 0x01])
        (.cons 57 (.fseid ⟨false, false, 1, some ⟨[0x0A, 0x00, 0x00, 0x01], rfl⟩, none, []⟩) .nil))) .nil⟩) runState =
      failed .inconsistentIEValue 5 18 ∧
    outcome (.encode ⟨nodeHeader, .cons 96 (.grouped .nil) .nil⟩) runState = failed .inconsistentIEValue 5 8 ∧
    outcome (.encode ⟨nodeHeader, .nil⟩) State.reset = failed .notInitialised 8 0 := by decide

/-- E9: a value of 65536 octets does not fit the IE's length field. -/
theorem test_encode_value_too_long :
    outcome (.encodeIEList (.cons 96 (.unrecognized (List.replicate 65536 0#8)) .nil) 0 8) runState =
    failed .lengthOverflow 7 8 := by
  have h : encodeValueAt runState.cfg runState.registry 96 (.unrecognized (List.replicate 65536 0#8)) 0 8 =
      .ok (List.replicate 65536 0#8) := rfl
  simp only [outcome, exec, execEncodeIEList, encodeIEList, h, List.length_replicate]
  rfl

/-- E11: the IE fits and the message length, 65536, does not. -/
theorem test_encode_message_too_long (raw : Bytes) (h : raw.length = 65528) :
    outcome (.encode ⟨nodeHeader, .cons 96 (.unrecognized raw) .nil⟩) runState = failed .lengthOverflow 7 0 := by
  have hv (o : Nat) : encodeValueAt runState.cfg runState.registry 96#16 (.unrecognized raw) 0 o = .ok raw := rfl
  have hm : encodeMessage runState.cfg runState.registry ⟨nodeHeader, .cons 96 (.unrecognized raw) .nil⟩ =
      .error ⟨.lengthOverflow, 0⟩ := by
    simp [encodeMessage, encodeIEList, headerSize, nodeHeader, hv, h]
  simp only [outcome, exec, execEncode_run (show runState.phase = .run from rfl), hm]
  rfl

/-! ### The registers of DECODE and ENCODE -/

/-- Program P1's trace: CUR ends at 25 = 8 + 17, the end of the only window. -/
theorem test_registers_P1 :
    ((microDecode Cfg.default refRegistry
      [0x20, 0x05, 0x00, 0x15, 0x00, 0x00, 0x01, 0x00, 0x00, 0x3C, 0x00, 0x05, 0x00, 0xC0, 0x00, 0x02, 0x01, 0x00, 0x60, 0x00, 0x04, 0xE5, 0x2A, 0x3B, 0x4C] Work.reset).map (fun r => r.2)) =
    .ok ⟨25, 0, [25], 0, []⟩ := by rfl

/-- Program P2's ENCODE: OCUR ends at 74, every length field patched. -/
theorem test_registers_P2 :
    ((microEncode Cfg.default refRegistry messageP2 Work.reset).map (fun r => (r.1.length, r.2.ocur, r.2.patch))) =
    .ok (74, 74, []) := by rfl

/-! ### The header rows -/

/-- H9: the spare bits are ignored and MP is kept. -/
theorem test_decode_hdr_node : handed (.decodeHdrNode [0x3E, 0x01, 0x00, 0x04, 0x00, 0x00, 0x01, 0xFF]) runState =
    some (.header ⟨⟨1, true, 1, 1, none⟩, 4, 8⟩, 8) := by decide

/-- H10: the spare bits are ignored, the priority is the high nibble of octet 15. -/
theorem test_decode_hdr_session :
    handed (.decodeHdrSession [0x3D, 0x32, 0x00, 0x0C, 0x00, 0x00, 0x00, 0x00, 0x00, 0x00, 0x00, 0x01, 0x00, 0x00, 0x02, 0x5F]) runState =
    some (.header ⟨⟨1, false, 50, 2, some ⟨1, 5⟩⟩, 12, 16⟩, 16) := by decide

/-- E16. -/
theorem test_encode_hdr_node : handed (.encodeHdrNode 2 true 99 0xABCDEF 4) runState =
    some (.octets [0x42, 0x63, 0x00, 0x04, 0xAB, 0xCD, 0xEF, 0x00], 0) := by decide

/-- E21: every field at its maximum; the low nibble of octet 15 stays 0. -/
theorem test_encode_hdr_session :
    handed (.encodeHdrSession 7 true 57 0xFFFFFF ⟨0xFFFFFFFFFFFFFFFF, 15⟩ 12) runState =
    some (.octets [0xE3, 0x39, 0x00, 0x0C, 0xFF, 0xFF, 0xFF, 0xFF, 0xFF, 0xFF, 0xFF, 0xFF, 0xFF, 0xFF, 0xFF, 0xF0], 0) := by decide

/-! ### Lists and dispatch -/

/-- LS8's body: two IEs, CUR at the end of the window. -/
theorem test_decode_ie_list : handed (.decodeIEList [0x00, 0x60, 0x00, 0x01, 0xAA, 0x00, 0x61, 0x00, 0x02, 0xBB, 0xCC] 11 0 8) runState =
    some (.list (.cons 96 (.unrecognized [0xAA]) (.cons 97 (.unrecognized [0xBB, 0xCC]) .nil)), 19) := by decide

/-- LS5, LS6, LS9, LS10 from the first octet of the body. -/
theorem test_decode_ie_list_errors :
    outcome (.decodeIEList [0x00, 0x60, 0x00] 3 0 8) runState = failed .truncatedIE 2 8 ∧
    outcome (.decodeIEList [0x00, 0x60, 0x00, 0x01, 0xAA] 96 0 8) runState = failed .truncatedIE 2 13 ∧
    outcome (.decodeIEList [0x00, 0x60, 0x00, 0x06, 0x01, 0x02, 0x03, 0x04, 0x05, 0x06] 8 0 8) runState = failed .overrunIE 3 8 ∧
    outcome (.decodeIEList [0x00, 0x60, 0x00, 0x06, 0x01, 0x02, 0x03, 0x04, 0x05, 0x06] 3 0 8) runState = failed .overrunIE 3 8 := by decide

/-- LS8's body encoded. -/
theorem test_encode_ie_list :
    handed (.encodeIEList (.cons 96 (.unrecognized [0xAA]) (.cons 97 (.unrecognized [0xBB, 0xCC]) .nil)) 0 8) runState =
    some (.octets [0x00, 0x60, 0x00, 0x01, 0xAA, 0x00, 0x61, 0x00, 0x02, 0xBB, 0xCC], 0) := by decide

/-- The dispatch vectors: the kind in the registry, not the code number, picks the layout. -/
theorem test_decode_value :
    handed (.decodeValue 19 [0x01] 0 8) runState = some (.ie ⟨19, .cause ⟨1, []⟩⟩, 0) ∧
    handed (.decodeValue 19 [0x01] 0 8) emptyLocked = some (.ie ⟨19, .unrecognized [0x01]⟩, 0) ∧
    handed (.decodeValue 96 [0xE5, 0x2A, 0x3B, 0x4C] 0 8) { emptyLocked with registry := [(96, ⟨.cause, ""⟩)] } =
      some (.ie ⟨96, .cause ⟨229, [0x2A, 0x3B, 0x4C]⟩⟩, 0) := by decide

/-- E19, and E20: the variant check comes first. -/
theorem test_encode_value :
    handed (.encodeValue ⟨60, .nodeId (.other ⟨5, by decide⟩ [0xAA, 0xBB])⟩ 0 8) runState = some (.octets [0x05, 0xAA, 0xBB], 0) ∧
    outcome (.encodeValue ⟨96, .fteid ⟨true, false, false, false, some 1, none, none, none, []⟩⟩ 0 8) runState =
      failed .inconsistentIEValue 5 8 := by decide

/-! ### The value codecs -/

/-- CA3. -/
theorem test_decode_cause : handed (.decodeCause [0x40, 0xAA, 0xBB] 8) runState =
    some (.value (.cause ⟨64, [0xAA, 0xBB]⟩), 0) := by decide

/-- CA1. -/
theorem test_decode_cause_empty : outcome (.decodeCause [] 8) runState = failed .invalidConditionalLayout 4 8 := by decide

/-- CA3 encoded. -/
theorem test_encode_cause : handed (.encodeCause ⟨64, [0xAA, 0xBB]⟩) runState = some (.octets [0x40, 0xAA, 0xBB], 0) := by decide

/-- F5, F8, F10: CH selects no address, choose-id with and without CH, IPv4 before IPv6 before choose-id. -/
theorem test_decode_fteid :
    handed (.decodeFTEID [0x0A, 0x01, 0x02] 8) runState =
      some (.value (.fteid ⟨true, false, true, false, none, none, none, none, [0x01, 0x02]⟩), 0) ∧
    handed (.decodeFTEID [0x01, 0x00, 0x00, 0x00, 0x01, 0x09] 8) runState =
      some (.value (.fteid ⟨false, false, false, true, some 1, none, none, some 9, []⟩), 0) ∧
    handed (.decodeFTEID [0x0D, 0x00, 0x00, 0x00, 0x02, 0x0A, 0x00, 0x00, 0x01, 0x20, 0x01, 0x0D, 0xB8, 0x00, 0x00, 0x00, 0x00, 0x00, 0x00, 0x00, 0x00, 0x00, 0x00, 0x00, 0x01, 0x05, 0xEE, 0xFF] 8) runState =
      some (.value (.fteid ⟨true, true, false, true, some 2, some ⟨[0x0A, 0x00, 0x00, 0x01], rfl⟩, some addr6, some 5, [0xEE, 0xFF]⟩), 0) := by
  decide

/-- The vectors of the alternative `FTEID_FLAG_POS` (G4): V4=0, V6=1, CH=2, CHID=3. -/
theorem test_decode_fteid_other_positions :
    handed (.decodeFTEID [0x01, 0x00, 0x00, 0x00, 0x01, 0xC0, 0x00, 0x02, 0x01] 8)
        { runState with cfg := { Cfg.default with fteidFlagPos := ⟨3, 2, 1, 0⟩ } } =
      some (.value (.fteid ⟨true, false, false, false, some 1, some ⟨[0xC0, 0x00, 0x02, 0x01], rfl⟩, none, none, []⟩), 0) ∧
    handed (.decodeFTEID [0x08, 0x00, 0x00, 0x00, 0x01, 0xC0, 0x00, 0x02, 0x01] 8)
        { runState with cfg := { Cfg.default with fteidFlagPos := ⟨3, 2, 1, 0⟩ } } =
      some (.value (.fteid ⟨false, false, false, true, some 1, none, none, some 192, [0x00, 0x02, 0x01]⟩), 0) := by decide

/-- F9 encoded. -/
theorem test_encode_fteid :
    handed (.encodeFTEID ⟨true, true, false, false, some 2, some ⟨[0x0A, 0x00, 0x00, 0x01], rfl⟩, some addr6, none, []⟩ 8) runState =
    some (.octets [0x0C, 0x00, 0x00, 0x00, 0x02, 0x0A, 0x00, 0x00, 0x01, 0x20, 0x01, 0x0D, 0xB8, 0x00, 0x00, 0x00, 0x00, 0x00, 0x00, 0x00, 0x00, 0x00, 0x00, 0x00, 0x01], 0) := by decide

/-- E3 to E6. -/
theorem test_encode_fteid_inconsistent :
    outcome (.encodeFTEID ⟨true, false, false, false, some 1, none, none, none, []⟩ 13) runState = failed .inconsistentIEValue 5 13 ∧
    outcome (.encodeFTEID ⟨false, false, true, false, some 1, none, none, none, []⟩ 8) runState = failed .inconsistentIEValue 5 8 ∧
    outcome (.encodeFTEID ⟨false, false, false, true, some 1, none, none, none, []⟩ 8) runState = failed .inconsistentIEValue 5 8 ∧
    outcome (.encodeFTEID ⟨false, false, false, false, some 1, some ⟨[0x0A, 0x00, 0x00, 0x01], rfl⟩, none, none, []⟩ 8) runState =
      failed .inconsistentIEValue 5 8 := by decide

/-- ND3, ND10. -/
theorem test_decode_node_id :
    handed (.decodeNodeID [0x00, 0xC0, 0x00, 0x02, 0x01, 0xAA, 0xBB] 8) runState =
      some (.value (.nodeId (.v4 ⟨[0xC0, 0x00, 0x02, 0x01], rfl⟩ [0xAA, 0xBB])), 0) ∧
    handed (.decodeNodeID [0xF0, 0xC0, 0x00, 0x02, 0x01] 8) runState = some (.value (.nodeId (.v4 ⟨[0xC0, 0x00, 0x02, 0x01], rfl⟩ [])), 0) := by
  decide

/-- ND1, ND4, ND6. -/
theorem test_decode_node_id_errors :
    outcome (.decodeNodeID [] 8) runState = failed .invalidConditionalLayout 4 8 ∧
    outcome (.decodeNodeID [0x00, 0xC0, 0x00, 0x02] 8) runState = failed .invalidConditionalLayout 4 8 ∧
    outcome (.decodeNodeID [0x01, 0x20, 0x01, 0x0D, 0xB8, 0x00, 0x00, 0x00, 0x00, 0x00, 0x00, 0x00, 0x00, 0x00, 0x00, 0x00] 8) runState =
      failed .invalidConditionalLayout 4 8 := by decide

/-- ND5, ND9 encoded. -/
theorem test_encode_node_id :
    handed (.encodeNodeID (.v6 addr6 [])) runState =
      some (.octets [0x01, 0x20, 0x01, 0x0D, 0xB8, 0x00, 0x00, 0x00, 0x00, 0x00, 0x00, 0x00, 0x00, 0x00, 0x00, 0x00, 0x01], 0) ∧
    handed (.encodeNodeID (.other ⟨5, by decide⟩ [0xAA, 0xBB])) runState = some (.octets [0x05, 0xAA, 0xBB], 0) := by decide

/-- FS4, FS8: V4 is bit 1, V6 bit 0. -/
theorem test_decode_fseid :
    handed (.decodeFSEID [0x02, 0x00, 0x00, 0x00, 0x00, 0x00, 0x00, 0x00, 0x01, 0x0A, 0x00, 0x00, 0x01] 16) runState =
      some (.value (.fseid ⟨true, false, 1, some ⟨[0x0A, 0x00, 0x00, 0x01], rfl⟩, none, []⟩), 0) ∧
    handed (.decodeFSEID
        [0x03, 0x00, 0x00, 0x00, 0x00, 0x00, 0x00, 0x00, 0xAA, 0x0A, 0x00, 0x00, 0x02, 0x20, 0x01, 0x0D, 0xB8, 0x00, 0x00, 0x00, 0x00, 0x00, 0x00, 0x00, 0x00, 0x00, 0x00, 0x00, 0x01, 0xBE, 0xEF] 16) runState =
      some (.value (.fseid ⟨true, true, 0xAA, some ⟨[0x0A, 0x00, 0x00, 0x02], rfl⟩, some addr6, [0xBE, 0xEF]⟩), 0) := by decide

/-- FS3, FS6. -/
theorem test_decode_fseid_short :
    outcome (.decodeFSEID [0x00, 0x00, 0x00, 0x00, 0x00, 0x00, 0x00, 0x00] 16) runState = failed .invalidConditionalLayout 4 16 ∧
    outcome (.decodeFSEID [0x02, 0x00, 0x00, 0x00, 0x00, 0x00, 0x00, 0x00, 0x01, 0x0A, 0x00, 0x00] 16) runState = failed .invalidConditionalLayout 4 16 := by
  decide

/-- FS5 encoded. -/
theorem test_encode_fseid : handed (.encodeFSEID ⟨false, true, 1, none, some addr6, []⟩ 16) runState =
    some (.octets [0x01, 0x00, 0x00, 0x00, 0x00, 0x00, 0x00, 0x00, 0x01, 0x20, 0x01, 0x0D, 0xB8, 0x00, 0x00, 0x00, 0x00, 0x00, 0x00, 0x00, 0x00, 0x00, 0x00, 0x00, 0x01], 0) := by decide

/-- E8. -/
theorem test_encode_fseid_inconsistent :
    outcome (.encodeFSEID ⟨false, true, 1, none, none, []⟩ 8) runState = failed .inconsistentIEValue 5 8 := by decide

/-- GR2: CUR stands at the end of the group, 16 + 4 + 6. -/
theorem test_decode_grouped_create_pdr : handed (.decodeGroupedCreatePDR [0x00, 0x38, 0x00, 0x02, 0x00, 0x01] 0 16) runState =
    some (.value (.grouped (.cons 56 (.unrecognized [0x00, 0x01]) .nil)), 26) := by decide

/-- GR3, GR4, GR5, GR6. -/
theorem test_decode_grouped_errors :
    outcome (.decodeGroupedCreatePDR [0xAA, 0xBB, 0xCC] 0 16) runState = failed .truncatedIE 2 20 ∧
    outcome (.decodeGroupedCreatePDR [0x00, 0x60, 0x00, 0x05, 0xAA, 0xBB] 0 16) runState = failed .truncatedIE 2 20 ∧
    outcome (.decodeGroupedCreatePDR [0x00, 0x13, 0x00, 0x00] 0 16) runState = failed .invalidConditionalLayout 4 20 ∧
    outcome (.decodeGroupedCreatePDR [0x00, 0x60, 0x00, 0x01, 0xAA, 0xBB, 0xCC] 0 16) runState = failed .truncatedIE 2 25 := by decide

/-- The PDI of program P2, at offset 52, one level down: CUR ends at 74. -/
theorem test_decode_grouped_pdi :
    handed (.decodeGroupedPDI [0x00, 0x14, 0x00, 0x01, 0x00, 0x00, 0x15, 0x00, 0x09, 0x08, 0x00, 0x00, 0x00, 0x64, 0xC0, 0x00, 0x02, 0x02] 1 52) runState =
    some (.value (.grouped (.cons 20 (.unrecognized [0x00])
      (.cons 21 (.fteid ⟨true, false, false, false, some 100, some ⟨[0xC0, 0x00, 0x02, 0x02], rfl⟩, none, none, []⟩) .nil))), 74) := by
  decide

/-- GR8's innermost group: a list at depth 16 refuses even an empty group. -/
theorem test_decode_grouped_pdi_depth : outcome (.decodeGroupedPDI [] 16 80) runState = failed .depthExceeded 6 80 := by decide

/-- GR2 encoded, and E7's error at offset 8 + 4 + 6. -/
theorem test_encode_grouped_create_pdr :
    handed (.encodeGroupedCreatePDR (.cons 56 (.unrecognized [0x00, 0x01]) .nil) 0 16) runState =
      some (.octets [0x00, 0x38, 0x00, 0x02, 0x00, 0x01], 0) ∧
    outcome (.encodeGroupedCreatePDR (.cons 56 (.unrecognized [0x00, 0x01])
        (.cons 57 (.fseid ⟨false, false, 1, some ⟨[0x0A, 0x00, 0x00, 0x01], rfl⟩, none, []⟩) .nil)) 0 8) runState =
      failed .inconsistentIEValue 5 18 := by decide

/-- The children of program P2's PDI encoded, and E15's error. -/
theorem test_encode_grouped_pdi :
    handed (.encodeGroupedPDI (.cons 20 (.unrecognized [0x00])
        (.cons 21 (.fteid ⟨true, false, false, false, some 100, some ⟨[0xC0, 0x00, 0x02, 0x02], rfl⟩, none, none, []⟩) .nil)) 1 52) runState =
      some (.octets [0x00, 0x14, 0x00, 0x01, 0x00, 0x00, 0x15, 0x00, 0x09, 0x08, 0x00, 0x00, 0x00, 0x64, 0xC0, 0x00, 0x02, 0x02], 0) ∧
    outcome (.encodeGroupedPDI .nil 16 80) runState = failed .depthExceeded 6 80 := by decide

/-- A5, both ways. -/
theorem test_unrecognized :
    handed (.decodeUnrecognized [0xE5, 0x2A, 0x3B, 0x4C]) runState = some (.value (.unrecognized [0xE5, 0x2A, 0x3B, 0x4C]), 0) ∧
    handed (.encodeUnrecognized [0xE5, 0x2A, 0x3B, 0x4C]) runState = some (.octets [0xE5, 0x2A, 0x3B, 0x4C], 0) := by decide

/-- ND2, ND5, ND8, ND11 through the sub-format rows. -/
theorem test_node_id_rows :
    handed (.nodeIdV4 [0x00, 0xC0, 0x00, 0x02, 0x01] 8) runState = some (.value (.nodeId (.v4 ⟨[0xC0, 0x00, 0x02, 0x01], rfl⟩ [])), 0) ∧
    handed (.nodeIdV6 [0x01, 0x20, 0x01, 0x0D, 0xB8, 0x00, 0x00, 0x00, 0x00, 0x00, 0x00, 0x00, 0x00, 0x00, 0x00, 0x00, 0x01] 8) runState =
      some (.value (.nodeId (.v6 addr6 [])), 0) ∧
    handed (.nodeIdFQDN [0x02, 0x03, 0x75, 0x70, 0x66] 8) runState = some (.value (.nodeId (.fqdn [0x03, 0x75, 0x70, 0x66])), 0) ∧
    handed (.nodeIdOther ⟨15, by decide⟩ [0x0F] 8) runState = some (.value (.nodeId (.other ⟨15, by decide⟩ [])), 0) := by
  decide

/-- Rows of table K at the ends of the ranges, through the kind rows. -/
theorem test_kind_rows :
    handed .kindNode1 runState = some (.kind (.node 1), 0) ∧ handed .kindNode15 runState = some (.kind (.node 15), 0) ∧
    handed .kindSession50 runState = some (.kind (.session 50), 0) ∧
    handed .kindSession57 runState = some (.kind (.session 57), 0) ∧
    handed (.kindUnknown true 255) runState = some (.kind .unknown, 0) := by decide

/-- R181's ranges at their ends. -/
theorem test_cause_meaningful :
    causeMeaningful 0 = true ∧ causeMeaningful 1 = true ∧ causeMeaningful 2 = false ∧ causeMeaningful 63 = false ∧
    causeMeaningful 64 = true ∧ causeMeaningful 77 = true ∧ causeMeaningful 78 = false ∧ causeMeaningful 255 = false := by
  decide

/-! ### Witnesses: the hypotheses of each statement are met -/

theorem witness_StepRunsDecodedRequest :
    (State.reset.issue (encodeRequest .regLock)).pending = encodeRequest .regLock :: [] ∧
    ({ runState with pending := [encodeRequest (.decodeCause [0x01] 8)] } : State).pending =
      encodeRequest (.decodeCause [0x01] 8) :: [] ∧
    wellFormed (.decodeCause [0x01] 8) = true ∧ runState.registry.hasRefCodes = true ∧ State.reset.pending = [] := by decide

theorem witness_RequestDecodesToItsInstruction :
    wellFormed (.decodeCause [1] 65534) = true ∧ wellFormed (.nodeIdOther ⟨15, by decide⟩ [0xFF] 0) = true ∧
    wellFormed (.decodeIEList [] 65539 0 0) = true ∧ wellFormed (.kindUnknown false 16) = true ∧
    refRegistry.hasRefCodes = true := by decide

theorem witness_StepKeepsInvariant : State.reset.Inv ∧
    (∃ t, step State.reset = .next t) ∧ ({ runState with pending := [encodeRequest (.decode [])] } : State).Inv ∧
    ∃ t, step { runState with pending := [encodeRequest (.decode [])] } = .next t := by
  refine ⟨⟨rfl, rfl, rfl, rfl, rfl⟩, ⟨_, rfl⟩, ⟨rfl, rfl, rfl, rfl, rfl⟩, ⟨_, rfl⟩⟩

theorem witness_RunFreezesRegistry :
    (∃ t, runState.phase = .run ∧ exec (.regWrite 96 1 "") runState = .next t) ∧
    1 ≤ (1#3).toNat ∧ (1#3).toNat ≤ 5 ∧ 1 ≤ (5#3).toNat ∧ (5#3).toNat ≤ 5 := by
  refine ⟨⟨_, rfl, rfl⟩, by decide⟩

theorem witness_OnlyLockChangesPhase : ∃ t, exec .regLock State.reset = .next t ∧ t.phase ≠ State.reset.phase :=
  ⟨_, rfl, by decide⟩

theorem witness_NoInstructionWritesCfg : (∃ t, exec .regLock State.reset = .next t) ∧
    ∃ t, step (State.reset.issue (encodeRequest .regLock)) = .next t := ⟨⟨_, rfl⟩, ⟨_, rfl⟩⟩

theorem witness_OnlyRegWriteChangesRegistry : ∃ t, exec (.regWrite 65535 5 "") State.reset = .next t ∧
    t.registry.lookup 65535 ≠ State.reset.registry.lookup 65535 := ⟨_, rfl, by decide⟩

theorem witness_ErrorsAreDelivered : State.reset.Inv ∧
    ∃ t, exec (.decode []) State.reset = .next t ∧ t.result = .err ⟨.notInitialised, 0⟩ :=
  ⟨⟨rfl, rfl, rfl, rfl, rfl⟩, _, rfl, rfl⟩

/-- H6, version 2. -/
theorem witness_ReportFlagsOnlyFromDecode : ∃ t, exec (.decode [0x40, 0x01, 0x00, 0x04, 0x00, 0x00, 0x01, 0x00]) runState = .next t ∧
    t.status ≠ runState.status ∧ (t.status.uv = true ∨ t.status.uk = true) :=
  ⟨_, rfl, by decide, .inl rfl⟩

theorem witness_InternalOperationFrame :
    (isCommand (.decodeCause [0x01] 0) = false ∧ ∃ t, exec (.decodeCause [0x01] 0) runState = .next t) ∧
    (isCommand (.encodeFSEID ⟨true, false, 0, none, none, []⟩ 0) = false ∧
      ∃ t, exec (.encodeFSEID ⟨true, false, 0, none, none, []⟩ 0) runState = .next t) :=
  ⟨⟨rfl, _, rfl⟩, ⟨rfl, _, rfl⟩⟩

theorem witness_DecodeSideLeavesOut :
    (∃ t, exec (.decode [0x20, 0x01, 0x00, 0x04, 0x00, 0x00, 0x01, 0x00]) runState = .next t) ∧
    (∃ t, exec (.nodeIdOther ⟨3, by decide⟩ [0x03] 0) runState = .next t) := ⟨⟨_, rfl⟩, ⟨_, rfl⟩⟩

theorem witness_RegWriteOutcomes :
    (∃ t, exec .nop { State.reset with registry := [(0, ⟨.cause, ""⟩)] } = .next t ∧
      Registry.lookup [(0, ⟨.cause, ""⟩)] 0 ≠ none) ∧
    (¬ (1 ≤ (0#3).toNat ∧ (0#3).toNat ≤ 5)) ∧ (¬ (1 ≤ (6#3).toNat ∧ (6#3).toNat ≤ 5)) ∧
    (1 ≤ (1#3).toNat ∧ (5#3).toNat ≤ 5 ∧ runState.phase = .run) ∧
    (State.reset.phase = .init ∧ Registry.lookup [(65535, ⟨.cause, ""⟩)] (65535#16).toNat ≠ none) ∧
    State.reset.registry.lookup (0#16).toNat = none := by
  refine ⟨⟨_, rfl, by decide⟩, by decide⟩

theorem witness_RegLockEntersRun : runState.phase = .run := rfl

theorem witness_ReservedEncodingsRefused : (0#3 = 0#3 ∨ 0#3 = 6#3 ∨ 0#3 = 7#3) ∧ (7#3 = 0#3 ∨ 7#3 = 6#3 ∨ 7#3 = 7#3) := by
  decide

theorem witness_CodecsGatedByPhase : State.reset.phase = .init := rfl

theorem witness_KindRowsLabelTheirSelector :
    runState.cfg.nodeLo = 1#8 ∧ runState.cfg.nodeHi = 15#8 ∧ runState.cfg.sessionLo = 50#8 ∧ runState.cfg.sessionHi = 57#8 ∧
    wellFormed (.kindUnknown false 0) = true ∧ wellFormed (.kindUnknown false 16) = true ∧
    wellFormed (.kindUnknown true 49) = true ∧ wellFormed (.kindUnknown true 58) = true := by decide

theorem witness_DecodeHdrNodeResult : (0x3E#8).getLsbD 0 = false := by decide

theorem witness_DecodeHdrSessionResult : (0x3D#8).getLsbD 0 = true := by decide

/-- Buffers of 7 and 15 octets, and header lengths 3 and 11. -/
theorem witness_ShortHeadersRefused :
    ([0x20, 0x01, 0x00, 0x04, 0x00, 0x00, 0x01] : Bytes).length < 8 ∧
    ([0x21, 0x32, 0x00, 0x0C, 0x00, 0x00, 0x00, 0x00, 0x00, 0x00, 0x00, 0x01, 0x00, 0x00, 0x02] : Bytes).length < 16 ∧ runState.phase = .run ∧
    ([0x20, 0x01, 0x00] : Bytes).length < 4 ∧
    ((u8 [0x20, 0x01, 0x00, 0x04, 0x00, 0x00, 0x01] 0).getLsbD 0 = false ∧ ([0x20, 0x01, 0x00, 0x04, 0x00, 0x00, 0x01] : Bytes).length < 8) ∧
    ((u8 [0x21, 0x32, 0x00, 0x0C, 0x00, 0x00, 0x00, 0x00, 0x00, 0x00, 0x00, 0x01, 0x00, 0x00, 0x02] 0).getLsbD 0 = true ∧
      ([0x21, 0x32, 0x00, 0x0C, 0x00, 0x00, 0x00, 0x00, 0x00, 0x00, 0x00, 0x01, 0x00, 0x00, 0x02] : Bytes).length < 16) ∧
    (0x00#8).toNat * 256 + (0x03#8).toNat < (if (0x20#8).getLsbD 0 then 12 else 4) ∧
    (0x00#8).toNat * 256 + (0x0B#8).toNat < (if (0x21#8).getLsbD 0 then 12 else 4) := by decide

theorem witness_HeaderShapeFixesWhatIsRead :
    (∃ d, decodeHeader [0x20, 0x01, 0x00, 0x04, 0x00, 0x00, 0x01, 0x00] = .ok d) ∧
    (∃ d, decodeHeader [0x21, 0x32, 0x00, 0x0C, 0x00, 0x00, 0x00, 0x00, 0x00, 0x00, 0x00, 0x01, 0x00, 0x00, 0x02, 0x50] = .ok d) := ⟨⟨_, rfl⟩, ⟨_, rfl⟩⟩

theorem witness_HeaderRoundTrip :
    (∃ d, decodeHeader [0x3E, 0x01, 0x00, 0x04, 0x00, 0x00, 0x01, 0xFF] = .ok d) ∧ canonical [] [0x20, 0x01, 0x00, 0x04, 0x00, 0x00, 0x01, 0x00] = true := by
  refine ⟨⟨_, rfl⟩, by decide⟩

/-- Exactly as long as needed: V4 and V6 (25 octets), and CH alone (1 octet). -/
theorem witness_DecodeFTEIDResult :
    needFTEID ((0x0C#8).getLsbD runState.cfg.fteidFlagPos.v4) ((0x0C#8).getLsbD runState.cfg.fteidFlagPos.v6)
      ((0x0C#8).getLsbD runState.cfg.fteidFlagPos.ch) ((0x0C#8).getLsbD runState.cfg.fteidFlagPos.chid) ≤
      (List.replicate 24 0#8).length + 1 ∧
    needFTEID ((0x02#8).getLsbD runState.cfg.fteidFlagPos.v4) ((0x02#8).getLsbD runState.cfg.fteidFlagPos.v6)
      ((0x02#8).getLsbD runState.cfg.fteidFlagPos.ch) ((0x02#8).getLsbD runState.cfg.fteidFlagPos.chid) ≤
      ([] : Bytes).length + 1 := by decide

theorem witness_EncodeFTEIDResult :
    runState.cfg.fteidFlagPos.injective = true ∧
    consistentFTEID ⟨true, false, false, false, some 1, some ⟨[0xC0, 0x00, 0x02, 0x01], rfl⟩, none, none, []⟩ = true ∧
    (4 ≠ runState.cfg.fteidFlagPos.v4.val ∧ 4 ≠ runState.cfg.fteidFlagPos.v6.val ∧
      4 ≠ runState.cfg.fteidFlagPos.ch.val ∧ 4 ≠ runState.cfg.fteidFlagPos.chid.val) ∧
    consistentFTEID ⟨true, false, false, false, some 1, none, none, none, []⟩ = false := by decide

theorem witness_DecodeNodeIDResult :
    (0xF0#8).extractLsb' 0 4 = 0#4 ∧ (0x01#8).extractLsb' 0 4 = 1#4 ∧ (0x02#8).extractLsb' 0 4 = 2#4 ∧
    (0x03#8).extractLsb' 0 4 = (⟨3, by decide⟩ : OtherType).code ∧
    (0xFF#8).extractLsb' 0 4 = (⟨15, by decide⟩ : OtherType).code := by decide

/-- Exactly as long as needed: 9 octets, and 29 with both addresses. -/
theorem witness_DecodeFSEIDResult :
    9 + (if (0xFC#8).getLsbD 1 then 4 else 0) + (if (0xFC#8).getLsbD 0 then 16 else 0) ≤ (List.replicate 8 0#8).length + 1 ∧
    9 + (if (0x03#8).getLsbD 1 then 4 else 0) + (if (0x03#8).getLsbD 0 then 16 else 0) ≤
      (List.replicate 28 0#8).length + 1 := by decide

theorem witness_EncodeFSEIDResult :
    consistentFSEID ⟨false, true, 1, none, some addr6, []⟩ = true ∧
    consistentFSEID ⟨false, false, 1, some ⟨[0x0A, 0x00, 0x00, 0x01], rfl⟩, none, []⟩ = false := by decide

/-- Each side of each equivalence: F3 (4 octets of 5), ND6 (16 of 17), FS6 (12 of 13), and no octet at all. -/
theorem witness_LayoutErrorExactlyWhenShort :
    decodeCause [] 8 = .error ⟨.invalidConditionalLayout, 8⟩ ∧
    decodeFTEID Cfg.default [0x00, 0xDE, 0xAD, 0xBE] 8 = .error ⟨.invalidConditionalLayout, 8⟩ ∧
    decodeNodeID [0x01, 0x20, 0x01, 0x0D, 0xB8, 0x00, 0x00, 0x00, 0x00, 0x00, 0x00, 0x00, 0x00, 0x00, 0x00, 0x00] 8 = .error ⟨.invalidConditionalLayout, 8⟩ ∧
    decodeFSEID [0x02, 0x00, 0x00, 0x00, 0x00, 0x00, 0x00, 0x00, 0x01, 0x0A, 0x00, 0x00] 16 = .error ⟨.invalidConditionalLayout, 16⟩ :=
  ⟨rfl, rfl, rfl, rfl⟩

/-- The rows on values one octet short: F3, F7, ND4, ND6, FS3, FS6. -/
theorem witness_LayoutErrorExactlyWhenShort_rows :
    ([] : Bytes).length < 1 ∧
    ([0x00, 0xDE, 0xAD, 0xBE] : Bytes).length < needFTEID ((u8 [0x00, 0xDE, 0xAD, 0xBE] 0).getLsbD runState.cfg.fteidFlagPos.v4)
      ((u8 [0x00, 0xDE, 0xAD, 0xBE] 0).getLsbD runState.cfg.fteidFlagPos.v6) ((u8 [0x00, 0xDE, 0xAD, 0xBE] 0).getLsbD runState.cfg.fteidFlagPos.ch)
      ((u8 [0x00, 0xDE, 0xAD, 0xBE] 0).getLsbD runState.cfg.fteidFlagPos.chid) ∧
    ([0x03] : Bytes).length < needFTEID ((u8 [0x03] 0).getLsbD runState.cfg.fteidFlagPos.v4)
      ((u8 [0x03] 0).getLsbD runState.cfg.fteidFlagPos.v6) ((u8 [0x03] 0).getLsbD runState.cfg.fteidFlagPos.ch)
      ((u8 [0x03] 0).getLsbD runState.cfg.fteidFlagPos.chid) ∧
    (nodeNibble (u8 [0xF0, 0xC0, 0x00, 0x02] 0) = 0#4 ∧ ([0xF0, 0xC0, 0x00, 0x02] : Bytes).length < 5) ∧
    (nodeNibble (u8 [0x01, 0x20, 0x01, 0x0D, 0xB8, 0x00, 0x00, 0x00, 0x00, 0x00, 0x00, 0x00, 0x00, 0x00, 0x00, 0x00] 0) = 1#4 ∧
      ([0x01, 0x20, 0x01, 0x0D, 0xB8, 0x00, 0x00, 0x00, 0x00, 0x00, 0x00, 0x00, 0x00, 0x00, 0x00, 0x00] : Bytes).length < 17) ∧
    ([0x00, 0x00, 0x00, 0x00, 0x00, 0x00, 0x00, 0x00] : Bytes).length < needFSEID ((u8 [0x00, 0x00, 0x00, 0x00, 0x00, 0x00, 0x00, 0x00] 0).getLsbD 1)
      ((u8 [0x00, 0x00, 0x00, 0x00, 0x00, 0x00, 0x00, 0x00] 0).getLsbD 0) ∧
    ([0x02, 0x00, 0x00, 0x00, 0x00, 0x00, 0x00, 0x00, 0x01, 0x0A, 0x00, 0x00] : Bytes).length < needFSEID
      ((u8 [0x02, 0x00, 0x00, 0x00, 0x00, 0x00, 0x00, 0x00, 0x01, 0x0A, 0x00, 0x00] 0).getLsbD 1) ((u8 [0x02, 0x00, 0x00, 0x00, 0x00, 0x00, 0x00, 0x00, 0x01, 0x0A, 0x00, 0x00] 0).getLsbD 0) ∧
    (selectsForm [0x00, 0xC0, 0x00, 0x02] .v4 = true ∧ ([0x00, 0xC0, 0x00, 0x02] : Bytes).length < 5) ∧
    (selectsForm [0x01, 0x20, 0x01, 0x0D, 0xB8, 0x00, 0x00, 0x00, 0x00, 0x00, 0x00, 0x00, 0x00, 0x00, 0x00, 0x00] .v6 = true ∧
      ([0x01, 0x20, 0x01, 0x0D, 0xB8, 0x00, 0x00, 0x00, 0x00, 0x00, 0x00, 0x00, 0x00, 0x00, 0x00, 0x00] : Bytes).length < 17) := by decide

theorem witness_ValueCodecsRoundTrip : Cfg.default.fteidFlagPos.injective = true ∧
    (∃ b, encodeFTEID Cfg.default ⟨true, false, false, false, some 1, some ⟨[0xC0, 0x00, 0x02, 0x01], rfl⟩, none, none, []⟩ 8 = .ok b) ∧
    (∃ b, encodeFSEID ⟨false, true, 1, none, some addr6, []⟩ 8 = .ok b) ∧
    (∃ c, decodeCause [0x40, 0xAA, 0xBB] 8 = .ok c) ∧ (∃ f, decodeFTEID Cfg.default [0xF0, 0xDE, 0xAD, 0xBE, 0xEF] 8 = .ok f) ∧
    (∃ n, decodeNodeID [0xF0, 0xC0, 0x00, 0x02, 0x01] 8 = .ok n) ∧
    (∃ f, decodeFSEID [0xFC, 0x00, 0x00, 0x00, 0x00, 0x00, 0x00, 0x00, 0x01] 8 = .ok f) :=
  ⟨by decide, ⟨_, rfl⟩, ⟨_, rfl⟩, ⟨_, rfl⟩, ⟨_, rfl⟩, ⟨_, rfl⟩, ⟨_, rfl⟩⟩

/-- One octet short of each bound: LS5, LS4, a value longer than the buffer, a value longer than the window. -/
theorem witness_ListBoundChecks :
    (3 ≠ 0 ∧ ([0x00, 0x60, 0x00] : Bytes).length < 4) ∧ (4 ≤ ([0x00, 0x60, 0x00, 0x00] : Bytes).length ∧ 3 < 4) ∧
    (4 ≤ 4 ∧ ([] : Bytes).length < (0x00#8).toNat * 256 + (0x01#8).toNat) ∧
    ((0x00#8).toNat * 256 + (0x01#8).toNat ≤ ([0xAA] : Bytes).length ∧
      4 < 4 + ((0x00#8).toNat * 256 + (0x01#8).toNat)) := by decide

/-- GR3's group in a window it fills, one level above the depth limit; LS7's second IE after its first; LS6's window
beyond its one IE, by one octet. -/
theorem witness_ListBoundChecks_inner_and_later :
    (runState.registry.kindAt (0x00#8 ++ 0x01#8) = some .grouped ∧ 15 < runState.cfg.maxDepth ∧
      ([0xAA, 0xBB, 0xCC] : Bytes).length = (0x00#8).toNat * 256 + (0x03#8).toNat ∧ 4 + ([0xAA, 0xBB, 0xCC] : Bytes).length ≤ 7 ∧
      ∃ e, decodeIEList runState.cfg runState.registry [0xAA, 0xBB, 0xCC] ([0xAA, 0xBB, 0xCC] : Bytes).length (15 + 1) (16 + 4) = .error e) ∧
    (∃ ies, decodeIEList runState.cfg runState.registry [0x00, 0x60, 0x00, 0x01, 0xAA] ([0x00, 0x60, 0x00, 0x01, 0xAA] : Bytes).length 0 8 = .ok ies) ∧
    (∃ e, decodeIEList runState.cfg runState.registry [0x00, 0x61, 0x00, 0x02, 0xBB, 0xCC] 5 0 (8 + ([0x00, 0x60, 0x00, 0x01, 0xAA] : Bytes).length) =
      .error e) ∧
    ([0x00, 0x60, 0x00, 0x01, 0xAA] : Bytes).length < 6 :=
  ⟨⟨by decide, by decide, by decide, by decide, _, rfl⟩, ⟨_, rfl⟩, ⟨_, rfl⟩, by decide⟩

theorem witness_NoOverrunInsideGrouped :
    (∃ e, decodeIEList Cfg.default refRegistry [0xAA, 0xBB, 0xCC] ([0xAA, 0xBB, 0xCC] : Bytes).length 1 20 = .error e) ∧
    (∃ e, decodeGrouped Cfg.default refRegistry [0xAA, 0xBB, 0xCC] 0 16 = .error e) := ⟨⟨_, rfl⟩, ⟨_, rfl⟩⟩

/-- A group at depth 0, an empty list at a depth beyond the limit, and a window that ends with the longest message. -/
theorem witness_DecodedListFillsWindow :
    (∃ ies, decodeIEList runState.cfg runState.registry [0x00, 0x01, 0x00, 0x04, 0x00, 0x60, 0x00, 0x00, 0xFF] 8 0 65531 = .ok ies) ∧
    65531 + 8 ≤ 65539 ∧ (∃ ies, decodeIEList runState.cfg runState.registry [] 0 17 8 = .ok ies) :=
  ⟨⟨_, rfl⟩, by decide, ⟨_, rfl⟩⟩

theorem witness_ListRoundTrip : runState.cfg.fteidFlagPos.injective = true ∧
    (∃ b, encodeIEList runState.cfg runState.registry messageP2.ies 0 16 = .ok b ∧ 65481 + b.length ≤ 65539) ∧
    (∃ ies, decodeIEList runState.cfg runState.registry [0x00, 0x3C, 0x00, 0x05, 0xF0, 0xC0, 0x00, 0x02, 0x01] 9 0 8 = .ok ies) :=
  ⟨by decide, ⟨_, rfl, by decide⟩, ⟨_, rfl⟩⟩

theorem witness_EncodableOperandsComplete :
    encodableList runState.cfg runState.registry messageP2.ies 0 = true ∧
    encodableValue runState.cfg runState.registry 60 (.nodeId (.fqdn [])) 0 = true ∧
    encodableList runState.cfg runState.registry (.cons 56 (.unrecognized []) .nil) (15 + 1) = true ∧
    15 < runState.cfg.maxDepth := by decide

theorem witness_EmittedLengthFieldIsValueSize :
    ∃ b, encodeIEList Cfg.default refRegistry (.cons 1 (.grouped (.cons 56 (.unrecognized [0x00, 0x01]) .nil)) .nil) 0 8 = .ok b :=
  ⟨_, rfl⟩

theorem witness_UnregisteredTypesPassThrough :
    runState.registry.kindAt 0 = none ∧ runState.registry.kindAt 96 = none ∧ runState.registry.kindAt 65535 = none := by decide

theorem witness_EncodedValueDecodes : runState.cfg.fteidFlagPos.injective = true ∧
    (∃ b, encodeValue runState.cfg runState.registry ⟨1, .grouped (.cons 56 (.unrecognized [0x00, 0x01]) .nil)⟩ 15 0 = .ok b ∧
      65529 + 4 + b.length ≤ 65539) ∧
    (∃ b, encodeValue runState.cfg runState.registry ⟨19, .cause ⟨1, []⟩⟩ 0 0 = .ok b) :=
  ⟨by decide, ⟨_, rfl, by decide⟩, ⟨_, rfl⟩⟩

theorem witness_WrongVariantRefused :
    variantOf (.unrecognized [0x01]) ≠ runState.registry.kindAt 19 ∧ variantOf (.cause ⟨1, []⟩) ≠ runState.registry.kindAt 96 := by
  decide

theorem witness_DepthLimit : runState.cfg.maxDepth ≤ 16 := by decide

theorem witness_EncodedGroupDecodes : runState.cfg.fteidFlagPos.injective = true ∧ 15 < runState.cfg.maxDepth ∧
    ∃ b, encodeIEList runState.cfg runState.registry (.cons 56 (.unrecognized [0x00, 0x01]) .nil) (15 + 1) 20 = .ok b ∧
      65529 + 4 + b.length ≤ 65539 := ⟨by decide, by decide, _, rfl, by decide⟩

/-- H4: a header length of exactly the header's own remainder. -/
theorem witness_DecodeResult : runState.phase = .run ∧ ∃ d ies,
    decodeHeader [0x21, 0x32, 0x00, 0x0C, 0x00, 0x00, 0x00, 0x00, 0x00, 0x00, 0x00, 0x01, 0x00, 0x00, 0x02, 0x50] = .ok d ∧ d.size - 4 ≤ d.length.toNat ∧
    decodeIEList runState.cfg runState.registry
      (([0x21, 0x32, 0x00, 0x0C, 0x00, 0x00, 0x00, 0x00, 0x00, 0x00, 0x00, 0x01, 0x00, 0x00, 0x02, 0x50] : Bytes).drop d.size) (d.length.toNat - (d.size - 4)) 0 d.size =
      .ok ies := ⟨rfl, _, _, rfl, by decide, rfl⟩

/-- The buffer of A1, and LS4's body. -/
theorem witness_DecodeResult_errors : runState.phase = .run ∧
    (∃ e, decodeHeader [0x21, 0x01, 0x00, 0x04, 0x00, 0x00, 0x00, 0x08] = .error e) ∧
    ∃ d e, decodeHeader [0x20, 0x01, 0x00, 0x07, 0x00, 0x00, 0x01, 0x00, 0x00, 0x60, 0x00, 0x00, 0xFF] = .ok d ∧ d.size - 4 ≤ d.length.toNat ∧
      decodeIEList runState.cfg runState.registry
        (([0x20, 0x01, 0x00, 0x07, 0x00, 0x00, 0x01, 0x00, 0x00, 0x60, 0x00, 0x00, 0xFF] : Bytes).drop d.size) (d.length.toNat - (d.size - 4)) 0 d.size =
        .error e := ⟨rfl, ⟨_, rfl⟩, _, _, rfl, by decide, rfl⟩

theorem witness_EncodeSucceedsExactly : runState.phase = .run ∧
    encodable runState.cfg runState.registry messageP2 = true := by decide

theorem witness_DecodeUndoesEncode : runState.cfg.fteidFlagPos.injective = true ∧ runState.phase = .run ∧
    ∃ t, exec (.encode messageP2) runState = .next t ∧ t.result = .encoded octetsP2 := ⟨by decide, rfl, _, rfl, by rfl⟩

/-- H9 with two octets after the message: spare bits set, so not canonical. -/
theorem witness_EncodeUndoesDecode : runState.cfg.fteidFlagPos.injective = true ∧ runState.phase = .run ∧ ∃ t r, exec (.decode [0x3E, 0x01, 0x00, 0x04, 0x00, 0x00, 0x01, 0xFF, 0xAA, 0xBB]) runState = .next t ∧
    t.result = .decoded r := ⟨by decide, rfl, _, _, rfl, rfl⟩

theorem witness_HeaderLengthInvariant : runState.phase = .run ∧
    (∃ t out, exec (.encode ⟨nodeHeader, .nil⟩) runState = .next t ∧ t.result = .encoded out) ∧
    (∃ t r, exec (.decode [0x20, 0x01, 0x00, 0x04, 0x00, 0x00, 0x01, 0x00]) runState = .next t ∧ t.result = .decoded r) :=
  ⟨rfl, ⟨_, _, rfl, rfl⟩, ⟨_, _, rfl, rfl⟩⟩

/-- H5. -/
theorem witness_DecodeReadsOnlyTheMessage : runState.phase = .run ∧ ∃ t r, exec (.decode [0x20, 0x01, 0x00, 0x04, 0x00, 0x00, 0x01, 0x00, 0xFF, 0xFF]) runState = .next t ∧
    t.result = .decoded r := ⟨rfl, _, _, rfl, rfl⟩

theorem witness_ResultsDependOnlyOnRegistryKinds :
    runState.phase = ({ runState with out := [0xAA] } : State).phase ∧
    runState.cfg = ({ runState with out := [0xAA] } : State).cfg ∧
    ∀ t, runState.registry.kindAt t = ({ runState with out := [0xAA] } : State).registry.kindAt t :=
  ⟨rfl, rfl, fun _ => rfl⟩

/-- LS4, which ends with an error, its last octet and two others after the message. -/
theorem witness_DecodeReadsOnlyTheMessage_errors : runState.phase = .run ∧
    ([0x20, 0x01, 0x00, 0x07, 0x00, 0x00, 0x01, 0x00, 0x00, 0x60, 0x00] : Bytes).length = 4 + (u16 [0x20, 0x01, 0x00, 0x07, 0x00, 0x00, 0x01, 0x00, 0x00, 0x60, 0x00] 2).toNat ∧
    ([0x00, 0xFF] : Bytes).length = ([0x12, 0x34] : Bytes).length := by decide

/-- H9 with the version 2 of H6 in its place. -/
theorem witness_ReportsDoNotStopDecode : runState.phase = .run ∧ (∃ t r, exec (.decode (0x22#8 :: 0x01#8 :: [0x00, 0x04, 0x00, 0x00, 0x01, 0x00])) runState = .next t ∧
    t.result = .decoded r) ∧ (0x5E#8).getLsbD 0 = (0x22#8).getLsbD 0 ∧ (0x5E#8).getLsbD 1 = (0x22#8).getLsbD 1 :=
  ⟨rfl, ⟨_, _, rfl, rfl⟩, by decide, by decide⟩

theorem witness_ErrorKindsBySide :
    (∃ t e, exec (.decode []) runState = .next t ∧ t.result = .err e) ∧
    (∃ t e, exec (.encode ⟨nodeHeader, .nil⟩) State.reset = .next t ∧ t.result = .err e) :=
  ⟨⟨_, _, rfl, rfl⟩, ⟨_, _, rfl, rfl⟩⟩

theorem witness_DecodeRegistersAtEnd : ∃ r w, microDecode Cfg.default refRegistry octetsP2 Work.reset = .ok (r, w) :=
  ⟨_, _, rfl⟩

theorem witness_EncodeRegistersAtEnd : ∃ out w, microEncode Cfg.default refRegistry messageP2 Work.reset = .ok (out, w) :=
  ⟨_, _, rfl⟩

/-- E3's second IE, one whose value is one octet too long (E9) after the same IE, and a nested error (E7). -/
theorem witness_EncodeReportsFirstError_lists :
    (∃ b, encodeIEList runState.cfg runState.registry (.cons 96 (.unrecognized [0xAA]) .nil) 0 8 = .ok b ∧
      (∃ e, encodeValueAt runState.cfg runState.registry 21
        (.fteid ⟨true, false, false, false, some 1, none, none, none, []⟩) 0 (8 + b.length) = .error e) ∧
      ∃ vb, encodeValueAt runState.cfg runState.registry 97 (.unrecognized (List.replicate 65536 0#8)) 0 (8 + b.length) =
        .ok vb ∧ 65535 < vb.length) ∧
    (runState.registry.kindAt 1 = some .grouped ∧ 15 < runState.cfg.maxDepth ∧
      ∃ e, encodeIEList runState.cfg runState.registry (.cons 57 (.fseid ⟨true, false, 1, none, none, []⟩) .nil)
        (15 + 1) (8 + 4) = .error e) :=
  ⟨⟨_, rfl, ⟨_, rfl⟩, _, rfl, by simp only [List.length_replicate]; decide⟩, by decide, by decide, _, rfl⟩

/-- E3's Message, and E11: every IE encodable, `MsgLength` 65536. -/
theorem witness_EncodeReportsFirstError_messages : runState.phase = .run ∧
    (∃ e, encodeIEList runState.cfg runState.registry
      (.cons 21 (.fteid ⟨true, false, false, false, some 1, none, none, none, []⟩) .nil) 0 (headerSize nodeHeader) = .error e) ∧
    encodableList runState.cfg runState.registry (.cons 96 (.unrecognized (List.replicate 65528 0#8)) .nil) 0 = true ∧
    65535 < msgLength ⟨nodeHeader, .cons 96 (.unrecognized (List.replicate 65528 0#8)) .nil⟩ := by
  refine ⟨rfl, ⟨_, rfl⟩, ?_, ?_⟩
  · simp only [encodableList, encodableValue, valueSize, List.length_replicate]; decide
  · simp only [msgLength, listSize, valueSize, List.length_replicate]; decide

end Sys2Proof.Tests.Slice0
end

section
/-! CFG is constant (`spec/10_state.md` R29): no shared operation of `Machine/Ops.lean` writes it, so no effect of an
instruction does, and no step. -/

namespace Sys2Proof.Machine

/-- Each effect is a shared operation, and its `_cfg` lemma in `Laws/State.lean` says that it leaves CFG as it is. -/
theorem Effect.cfg_eq {s t : State} (h : Effect s t) : t.cfg = s.cfg := by
  cases h <;> simp

theorem exec_cfg {i : Instr} {s t : State} (h : exec i s = .next t) : t.cfg = s.cfg :=
  (exec_effect h).cfg_eq

/-- Taking the request from the port leaves CFG alone too, so a step writes it no more than its instruction does. -/
theorem step_cfg {s t : State} (h : step s = .next t) : t.cfg = s.cfg := by
  obtain ⟨-, rfl⟩ | ⟨r, rest, -, hexec⟩ := step_cases h
  · rfl
  · have hcfg : t.cfg = { s with pending := rest }.cfg := exec_cfg hexec
    exact hcfg

/-- Settles O10, from the effects of an instruction and the cases of a step; the constants of R8 are those of
`Cfg.default`. -/
theorem noInstructionWritesCfg : Obligations.NoInstructionWritesCfg :=
  ⟨fun _ _ _ => exec_cfg, fun _ _ => step_cfg, hardReset_cfg, rfl⟩

end Sys2Proof.Machine
end

section
/-! The header codec round trip (`spec/40_header.md` R126): the decoder as one equation over the fields it reads,
what the encoder writes at each of those fields, and what clearing the spare bits of a bare header leaves. -/

namespace Sys2Proof.Machine

/-! ### Fields of a byte string -/

/-- A field of `n` octets, written big-endian, reads back wherever it stands (R56, R57). -/
theorem ofNat_memRead_beBytes (n : Nat) (v : BitVec (8 * n)) (pre post : Bytes) :
    BitVec.ofNat (8 * n) (memRead (pre ++ (beBytes n v.toNat ++ post)) pre.length n) = v := by
  have hv : v.toNat < 256 ^ n := by simpa [pow_mul] using v.isLt
  have hslice := slice_zero_append (beBytes n v.toNat) post
  rw [beBytes_length] at hslice
  rw [← Nat.add_zero pre.length, memRead_append_right, memRead, hslice, beNat_beBytes_of_lt hv, BitVec.ofNat_toNat,
    BitVec.setWidth_eq]

theorem u8_append_cons (pre : Bytes) (x : Byte) (post : Bytes) : u8 (pre ++ x :: post) pre.length = x := by
  rw [u8, ← Nat.add_zero pre.length, memRead_append_right]
  exact u8_cons_zero x post

/-- The octets of a field are the big-endian form of the integer read there (R56, R57). -/
theorem beBytes_memRead {b : Bytes} {p n : Nat} (h : p + n ≤ b.length) :
    beBytes n (memRead b p n) = slice b p n := by
  have hlen : (slice b p n).length = n := by rw [slice_length]; omega
  have hback := beBytes_beNat (slice b p n)
  rwa [hlen] at hback

/-- `beBytes_memRead` for a field held in a word of its own width. -/
theorem beBytes_ofNat_memRead {b : Bytes} {p n : Nat} (h : p + n ≤ b.length) :
    beBytes n (BitVec.ofNat (8 * n) (memRead b p n)).toNat = slice b p n := by
  have hlt : memRead b p n < 2 ^ (8 * n) := by
    have hbound := beNat_lt (slice b p n)
    rw [slice_length, Nat.min_eq_left (by omega)] at hbound
    rw [pow_mul]
    exact hbound
  rw [BitVec.toNat_ofNat, Nat.mod_eq_of_lt hlt, beBytes_memRead h]

theorem slice_one {b : Bytes} {p : Nat} (h : p + 1 ≤ b.length) : slice b p 1 = [u8 b p] := by
  rw [← beBytes_memRead h]
  rfl

theorem slice_append_slice (b : Bytes) (p n m : Nat) : slice b p n ++ slice b (p + n) m = slice b p (n + m) := by
  simp only [slice]
  rw [List.take_add, List.drop_drop]

theorem u8_take (b : Bytes) {e p : Nat} (h : p + 1 ≤ e) : u8 (b.take e) p = u8 b p := by
  unfold u8 memRead
  rw [slice_take b h]

theorem selectS_take (b : Bytes) {e : Nat} (h : 1 ≤ e) : selectS (b.take e) = selectS b := by
  rw [selectS, u8_take b h, selectS]

theorem selectS_cons (x : Byte) (xs : Bytes) : selectS (x :: xs) = hdrS x := by
  rw [selectS, u8_cons_zero]

/-! ### Header octets 0 and 15 (R90, R91) -/

@[simp] theorem hdrVersion_hdrByte0 (v : BitVec 3) (mp S : Bool) : hdrVersion (hdrByte0 v mp S) = v := by
  cases mp <;> cases S <;> revert v <;> decide

@[simp] theorem hdrMP_hdrByte0 (v : BitVec 3) (mp S : Bool) : hdrMP (hdrByte0 v mp S) = mp := by
  cases mp <;> cases S <;> revert v <;> decide

@[simp] theorem hdrS_hdrByte0 (v : BitVec 3) (mp S : Bool) : hdrS (hdrByte0 v mp S) = S := by
  cases mp <;> cases S <;> revert v <;> decide

@[simp] theorem hdrPriority_hdrByte15 (p : BitVec 4) : hdrPriority (hdrByte15 p) = p := by
  revert p; decide

/-- Octet 0 rebuilt from its fields is octet 0 without its spare bits 4:2. -/
theorem hdrByte0_fields (x : Byte) : hdrByte0 (hdrVersion x) (hdrMP x) (hdrS x) = x &&& ~~~0x1C#8 := by
  revert x; decide

/-- Octet 15 rebuilt from the priority is octet 15 without its spare bits 3:0. -/
theorem hdrByte15_hdrPriority (x : Byte) : hdrByte15 (hdrPriority x) = x &&& 0xF0#8 := by
  revert x; decide

/-! ### The decoder as one equation (R122) -/

/-- What the shape without a session holds (R80). -/
def nodeHeaderFields (b : Bytes) : DecodedHeader where
  hdr := { version := hdrVersion (u8 b 0), mp := hdrMP (u8 b 0), messageType := u8 b 1,
           sequenceNumber := u24 b 4, session := none }
  length := u16 b 2
  size := 8

/-- What the shape with a session holds (R81). -/
def sessionHeaderFields (b : Bytes) : DecodedHeader where
  hdr := { version := hdrVersion (u8 b 0), mp := hdrMP (u8 b 0), messageType := u8 b 1,
           sequenceNumber := u24 b 12,
           session := some { seid := u64 b 4, priority := hdrPriority (u8 b 15) } }
  length := u16 b 2
  size := 16

theorem decodeHeader_of_node {b : Bytes} (hS : selectS b = false) :
    decodeHeader b = if b.length < 8 then .error ⟨.truncatedHeader, 0⟩ else .ok (nodeHeaderFields b) := by
  by_cases h4 : b.length < 4
  · have h8 : b.length < 8 := by omega
    simp [decodeHeader, h4, h8]
  · simp [decodeHeader, decodeHdrNodeForm, nodeHeaderFields, h4, hS]

theorem decodeHeader_of_session {b : Bytes} (hS : selectS b = true) :
    decodeHeader b = if b.length < 16 then .error ⟨.truncatedHeader, 0⟩ else .ok (sessionHeaderFields b) := by
  by_cases h4 : b.length < 4
  · have h16 : b.length < 16 := by omega
    simp [decodeHeader, h4, h16]
  · simp [decodeHeader, decodeHdrSessionForm, sessionHeaderFields, h4, hS]

/-- A header that decodes has the shape its S bit selects, whole, and holds that shape's fields. -/
theorem decodeHeader_ok_cases {b : Bytes} {d : DecodedHeader} (h : decodeHeader b = .ok d) :
    (selectS b = false ∧ 8 ≤ b.length ∧ d = nodeHeaderFields b) ∨
    (selectS b = true ∧ 16 ≤ b.length ∧ d = sessionHeaderFields b) := by
  cases hS : selectS b with
  | false =>
    rw [decodeHeader_of_node hS] at h
    split at h
    · cases h
    · cases h; exact .inl ⟨rfl, by omega, rfl⟩
  | true =>
    rw [decodeHeader_of_session hS] at h
    split at h
    · cases h
    · cases h; exact .inr ⟨rfl, by omega, rfl⟩

/-! ### Decode after encode -/

theorem decodeHeader_encodeHdrNodeForm (version : BitVec 3) (mp : Bool) (messageType : BitVec 8) (seq : BitVec 24)
    (length : BitVec 16) (rest : Bytes) :
    decodeHeader (encodeHdrNodeForm version mp messageType seq length ++ rest) =
      .ok { hdr := ⟨version, mp, messageType, seq, none⟩, length := length, size := 8 } := by
  generalize hb : encodeHdrNodeForm version mp messageType seq length ++ rest = b
  simp only [encodeHdrNodeForm, List.append_assoc] at hb
  have h0 : u8 b 0 = hdrByte0 version mp false := hb ▸ u8_append_cons [] _ _
  have h1 : u8 b 1 = messageType := hb ▸ u8_append_cons [_] _ _
  have hlength : u16 b 2 = length := hb ▸ ofNat_memRead_beBytes 2 length [_, _] _
  have hseq : u24 b 4 = seq :=
    hb ▸ ofNat_memRead_beBytes 3 seq ([hdrByte0 version mp false, messageType] ++ beBytes 2 length.toNat) _
  have hS : selectS b = false := by rw [selectS, h0, hdrS_hdrByte0]
  have hlen : ¬ b.length < 8 := by simp [← hb]; omega
  rw [decodeHeader_of_node hS, if_neg hlen]
  simp [nodeHeaderFields, h0, h1, hlength, hseq]

theorem decodeHeader_encodeHdrSessionForm (version : BitVec 3) (mp : Bool) (messageType : BitVec 8)
    (seq : BitVec 24) (ses : Session) (length : BitVec 16) (rest : Bytes) :
    decodeHeader (encodeHdrSessionForm version mp messageType seq ses length ++ rest) =
      .ok { hdr := ⟨version, mp, messageType, seq, some ses⟩, length := length, size := 16 } := by
  generalize hb : encodeHdrSessionForm version mp messageType seq ses length ++ rest = b
  simp only [encodeHdrSessionForm, List.append_assoc] at hb
  have h0 : u8 b 0 = hdrByte0 version mp true := hb ▸ u8_append_cons [] _ _
  have h1 : u8 b 1 = messageType := hb ▸ u8_append_cons [_] _ _
  have hlength : u16 b 2 = length := hb ▸ ofNat_memRead_beBytes 2 length [_, _] _
  have hseid : u64 b 4 = ses.seid :=
    hb ▸ ofNat_memRead_beBytes 8 ses.seid ([hdrByte0 version mp true, messageType] ++ beBytes 2 length.toNat) _
  have hseq : u24 b 12 = seq :=
    hb ▸ ofNat_memRead_beBytes 3 seq
      ([hdrByte0 version mp true, messageType] ++ beBytes 2 length.toNat ++ beBytes 8 ses.seid.toNat) _
  have h15 : u8 b 15 = hdrByte15 ses.priority :=
    hb ▸ u8_append_cons ([_, _] ++ beBytes 2 length.toNat ++ beBytes 8 ses.seid.toNat ++ beBytes 3 seq.toNat) _ _
  have hS : selectS b = true := by rw [selectS, h0, hdrS_hdrByte0]
  have hlen : ¬ b.length < 16 := by simp [← hb]; omega
  rw [decodeHeader_of_session hS, if_neg hlen]
  simp [sessionHeaderFields, h0, h1, hlength, hseid, hseq, h15]

theorem decodeHeader_encodeHeader (h : Header) (length : BitVec 16) (rest : Bytes) :
    decodeHeader (encodeHeader h length ++ rest) = .ok { hdr := h, length := length, size := headerSize h } := by
  obtain ⟨version, mp, messageType, seq, session⟩ := h
  cases session with
  | none => exact decodeHeader_encodeHdrNodeForm version mp messageType seq length rest
  | some ses => exact decodeHeader_encodeHdrSessionForm version mp messageType seq ses length rest

/-! ### Encode after decode -/

theorem clearListFuel_nil (reg : Registry) (n : Nat) : clearListFuel reg n [] = [] := by
  cases n <;> rfl

/-- With nothing after the header, `clearSpare` clears the header's spare bits alone (R80). -/
theorem clearSpare_take_node (reg : Registry) {b : Bytes} (hS : selectS b = false) :
    clearSpare reg (b.take 8) = clearOctet0 0x1C#8 (b.take 7) ++ [0x00#8] := by
  simp [clearSpare, selectS_take, hS, List.take_take, clearListFuel_nil]

/-- With nothing after the header, `clearSpare` clears the header's spare bits alone (R81). -/
theorem clearSpare_take_session (reg : Registry) {b : Bytes} (hS : selectS b = true) :
    clearSpare reg (b.take 16) = clearOctet0 0x1C#8 (b.take 15) ++ [u8 b 15 &&& 0xF0#8] := by
  simp [clearSpare, selectS_take, hS, List.take_take, clearListFuel_nil, u8_take]

/-- A header up to its last octet with the spare bits of octet 0 cleared: octet 0 from its fields, then the octets as
they are. -/
theorem clearOctet0_take (b : Bytes) (n : Nat) (h : 2 + n ≤ b.length) :
    clearOctet0 0x1C#8 (b.take (2 + n)) =
      [hdrByte0 (hdrVersion (u8 b 0)) (hdrMP (u8 b 0)) (selectS b), u8 b 1] ++ slice b 2 n := by
  have htake : b.take (2 + n) = [u8 b 0, u8 b 1] ++ slice b 2 n := by
    calc b.take (2 + n) = slice b 0 1 ++ slice b 1 1 ++ slice b 2 n := by
          rw [slice_append_slice b 0 1 1, slice_append_slice b 0 2 n]; rfl
      _ = [u8 b 0, u8 b 1] ++ slice b 2 n := by rw [slice_one (by omega), slice_one (by omega)]; rfl
  rw [htake, selectS, hdrByte0_fields]
  rfl

theorem encodeHeader_nodeHeaderFields {b : Bytes} (hS : selectS b = false) (h : 8 ≤ b.length) :
    encodeHeader (nodeHeaderFields b).hdr (nodeHeaderFields b).length = clearSpare [] (b.take 8) := by
  have hlength : beBytes 2 (u16 b 2).toNat = slice b 2 2 := beBytes_ofNat_memRead (by omega)
  have hseq : beBytes 3 (u24 b 4).toNat = slice b 4 3 := beBytes_ofNat_memRead (by omega)
  have hfields : slice b 2 2 ++ slice b 4 3 = slice b 2 5 := slice_append_slice b 2 2 3
  rw [clearSpare_take_node [] hS, clearOctet0_take b 5 (by omega), hS, ← hfields, ← hlength, ← hseq]
  simp [nodeHeaderFields, encodeHeader, encodeHdrNodeForm]

theorem encodeHeader_sessionHeaderFields {b : Bytes} (hS : selectS b = true) (h : 16 ≤ b.length) :
    encodeHeader (sessionHeaderFields b).hdr (sessionHeaderFields b).length = clearSpare [] (b.take 16) := by
  have hlength : beBytes 2 (u16 b 2).toNat = slice b 2 2 := beBytes_ofNat_memRead (by omega)
  have hseid : beBytes 8 (u64 b 4).toNat = slice b 4 8 := beBytes_ofNat_memRead (by omega)
  have hseq : beBytes 3 (u24 b 12).toNat = slice b 12 3 := beBytes_ofNat_memRead (by omega)
  have hfields : slice b 2 2 ++ slice b 4 8 ++ slice b 12 3 = slice b 2 13 := by
    rw [slice_append_slice b 2 2 8, slice_append_slice b 2 10 3]
  rw [clearSpare_take_session [] hS, clearOctet0_take b 13 (by omega), hS, ← hfields, ← hlength, ← hseid, ← hseq,
    ← hdrByte15_hdrPriority]
  simp [sessionHeaderFields, encodeHeader, encodeHdrSessionForm]

theorem encodeHeader_of_decodeHeader {b : Bytes} {d : DecodedHeader} (h : decodeHeader b = .ok d) :
    encodeHeader d.hdr d.length = clearSpare [] (b.take d.size) := by
  obtain ⟨hS, hlen, rfl⟩ | ⟨hS, hlen, rfl⟩ := decodeHeader_ok_cases h
  · exact encodeHeader_nodeHeaderFields hS hlen
  · exact encodeHeader_sessionHeaderFields hS hlen

/-- Settles O28: the encoder writes at each field's place what the decoder reads there, and the decoder drops nothing
but the spare bits that `clearSpare` clears. -/
theorem headerRoundTrip : Obligations.HeaderRoundTrip := by
  refine ⟨decodeHeader_encodeHeader, fun b d h => ?_⟩
  have hclear := encodeHeader_of_decodeHeader h
  refine ⟨hclear, ?_⟩
  rw [hclear, canonical, beq_iff_eq]

end Sys2Proof.Machine
end

section
/-! The leaf value codecs undo one another (`spec/43_ie_values.md` R199): what a decoder answers is said once, as an
equivalence between its `Ok` value and the octets it stands for. Both directions of the round trip follow from it. -/

namespace Sys2Proof.Machine

/-! ### One field of a value (R56, R57) -/

/-- `read` and `enc` are a field of `n` octets: `read` gives back what `enc` wrote, wherever it stands, and `enc` writes
the octets that `read` read. -/
structure FieldCodec {α : Type} (read : Bytes → Nat → α) (enc : α → Bytes) (n : Nat) : Prop where
  length_enc : ∀ x, (enc x).length = n
  read_enc : ∀ {b rest : Bytes} {p : Nat} {x : α}, b.drop p = enc x ++ rest → read b p = x
  enc_read : ∀ {b : Bytes} {p : Nat}, p + n ≤ b.length → enc (read b p) = slice b p n

theorem fieldCodec_be (n : Nat) :
    FieldCodec (fun b p => BitVec.ofNat (8 * n) (memRead b p n)) (fun v => beBytes n v.toNat) n where
  length_enc v := beBytes_length n v.toNat
  read_enc {b rest p v} h := by
    have hread := ofNat_memRead_beBytes n v [] rest
    rwa [List.nil_append, ← h, List.length_nil, memRead_drop] at hread
  enc_read h := beBytes_ofNat_memRead h

theorem fieldCodec_u8 : FieldCodec u8 (fun c => [c]) 1 where
  length_enc _ := rfl
  read_enc {b rest p x} h := by
    have hread := u8_cons_zero x rest
    rwa [← List.singleton_append, ← h, u8, memRead_drop] at hread
  enc_read h := (slice_one h).symm

theorem fieldCodec_u32 : FieldCodec u32 (fun v => beBytes 4 v.toNat) 4 := fieldCodec_be 4

theorem fieldCodec_u64 : FieldCodec u64 (fun v => beBytes 8 v.toNat) 8 := fieldCodec_be 8

theorem fieldCodec_octetsAt (n : Nat) : FieldCodec (octetsAt n) Octets.bytes n where
  length_enc := Octets.len
  read_enc {b rest p a} h := by
    have hread := octetsAt_append a [] rest
    rwa [List.nil_append, ← h] at hread
  enc_read h := octetsAt_bytes h

theorem slice_append_drop (b : Bytes) (p n : Nat) : slice b p n ++ b.drop (p + n) = b.drop p := by
  rw [slice, ← List.drop_drop, List.take_append_drop]

namespace FieldCodec

variable {α : Type} {read : Bytes → Nat → α} {enc : α → Bytes} {n : Nat} (hcodec : FieldCodec read enc n)
include hcodec

theorem drop_enc {b rest : Bytes} {p : Nat} {x : α} (h : b.drop p = enc x ++ rest) : b.drop (p + n) = rest := by
  rw [← List.drop_drop, h, List.drop_left' (hcodec.length_enc x)]

/-- A field that is there under the condition `c` reads back, and behind it stands the rest. -/
theorem read_optBytes {c : Bool} {y : Option α} (hy : y.isSome = c) {b rest : Bytes} {p : Nat}
    (h : b.drop p = optBytes enc y ++ rest) :
    (if c then some (read b p) else none) = y ∧ b.drop (if c then p + n else p) = rest := by
  subst hy
  cases y with
  | none => exact ⟨rfl, h⟩
  | some x => exact ⟨congrArg some (hcodec.read_enc h), hcodec.drop_enc h⟩

/-- A field that is read under the condition `c`, and all octets behind it, are the octets from its position on. -/
theorem optBytes_read {c : Bool} {b : Bytes} {p : Nat} (h : (if c then p + n else p) ≤ b.length) :
    optBytes enc (if c then some (read b p) else none) ++ b.drop (if c then p + n else p) = b.drop p := by
  cases c with
  | false => rfl
  | true => simpa [optBytes, hcodec.enc_read h] using slice_append_drop b p n

end FieldCodec

/-- The position behind a field that may be absent is not before the field. -/
theorem le_ite_add (c : Bool) (p n : Nat) : p ≤ if c then p + n else p := by
  cases c <;> simp

theorem isSome_ite_some {α : Type} (c : Bool) (x : α) : (if c then some x else none).isSome = c := by
  cases c <;> rfl

/-! ### F-TEID (R182 to R185) -/

/-- The fields of an F-TEID behind its flags octet, in their order (R85, R184). -/
def fteidBody (f : FTEID) : Bytes :=
  optBytes (fun t => beBytes 4 t.toNat) f.teid ++ optBytes Octets.bytes f.ipv4 ++ optBytes Octets.bytes f.ipv6
    ++ optBytes (fun c => [c]) f.chooseId ++ f.tail

theorem encodeFTEID_ok_iff_eq {cfg : Cfg} {f : FTEID} {o : Nat} {b : Bytes} :
    encodeFTEID cfg f o = .ok b ↔
      consistentFTEID f = true ∧ b = fteidFlags cfg.fteidFlagPos f.v4 f.v6 f.ch f.chid :: fteidBody f := by
  cases hc : consistentFTEID f with
  | false => simp [encodeFTEID, hc]
  | true => simp [encodeFTEID, hc, fteidBody, eq_comm]

theorem consistentFTEID_iff (f : FTEID) : consistentFTEID f = true ↔
    f.teid.isSome = !f.ch ∧ f.ipv4.isSome = (f.v4 && !f.ch) ∧ f.ipv6.isSome = (f.v6 && !f.ch) ∧
      f.chooseId.isSome = f.chid := by
  simp [consistentFTEID, and_assoc]

/-- What the F-TEID decoder reads behind flags of these values (R182). -/
def fteidFields (v4 v6 ch chid : Bool) (v : Bytes) : FTEID :=
  let p1 := if !ch then 1 + 4 else 1
  let p2 := if v4 && !ch then p1 + 4 else p1
  let p3 := if v6 && !ch then p2 + 16 else p2
  let p4 := if chid then p3 + 1 else p3
  { v4 := v4, v6 := v6, ch := ch, chid := chid
    teid := if !ch then some (u32 v 1) else none
    ipv4 := if v4 && !ch then some (octetsAt 4 v p1) else none
    ipv6 := if v6 && !ch then some (octetsAt 16 v p2) else none
    chooseId := if chid then some (u8 v p3) else none
    tail := v.drop p4 }

theorem decodeFTEID_cons (cfg : Cfg) (x : Byte) (body : Bytes) (ieOff : Nat) :
    decodeFTEID cfg (x :: body) ieOff =
      if body.length + 1 < needFTEID (x.getLsbD cfg.fteidFlagPos.v4) (x.getLsbD cfg.fteidFlagPos.v6)
        (x.getLsbD cfg.fteidFlagPos.ch) (x.getLsbD cfg.fteidFlagPos.chid)
      then .error (badLayout ieOff)
      else .ok (fteidFields (x.getLsbD cfg.fteidFlagPos.v4) (x.getLsbD cfg.fteidFlagPos.v6)
        (x.getLsbD cfg.fteidFlagPos.ch) (x.getLsbD cfg.fteidFlagPos.chid) (x :: body)) := by
  have hlen : ¬ (x :: body).length < 1 := by simp
  simp only [decodeFTEID, if_neg hlen, u8_cons_zero]
  cases x.getLsbD cfg.fteidFlagPos.ch <;> rfl

theorem consistentFTEID_fteidFields (v4 v6 ch chid : Bool) (v : Bytes) :
    consistentFTEID (fteidFields v4 v6 ch chid v) = true := by
  rw [consistentFTEID_iff]
  exact ⟨isSome_ite_some .., isSome_ite_some .., isSome_ite_some .., isSome_ite_some ..⟩

/-- `NeedFTEID` is where the tail begins (R183). -/
theorem needFTEID_eq_tail_position (v4 v6 ch chid : Bool) :
    needFTEID v4 v6 ch chid =
      let p1 := if !ch then 1 + 4 else 1
      let p2 := if v4 && !ch then p1 + 4 else p1
      let p3 := if v6 && !ch then p2 + 16 else p2
      if chid then p3 + 1 else p3 := by
  revert v4 v6 ch chid
  decide

/-- The fields that are read make up the whole value behind its flags octet. -/
theorem fteidBody_fteidFields {v4 v6 ch chid : Bool} {v : Bytes} (h4 : needFTEID v4 v6 ch chid ≤ v.length) :
    fteidBody (fteidFields v4 v6 ch chid v) = v.drop 1 := by
  rw [needFTEID_eq_tail_position] at h4
  have h3 := (le_ite_add chid _ 1).trans h4
  have h2 := (le_ite_add (v6 && !ch) _ 16).trans h3
  have h1 := (le_ite_add (v4 && !ch) _ 4).trans h2
  simp only [fteidBody, fteidFields, List.append_assoc]
  rw [fieldCodec_u8.optBytes_read h4, (fieldCodec_octetsAt 16).optBytes_read h3,
    (fieldCodec_octetsAt 4).optBytes_read h2, fieldCodec_u32.optBytes_read h1]

/-- Fields written in order behind a flags octet read back (R182, R184). -/
theorem fteidFields_cons_fteidBody {f : FTEID} (hc : consistentFTEID f = true) (x : Byte) :
    fteidFields f.v4 f.v6 f.ch f.chid (x :: fteidBody f) = f := by
  obtain ⟨hteid, hipv4, hipv6, hchid⟩ := (consistentFTEID_iff f).mp hc
  have hbody : (x :: fteidBody f).drop 1 = optBytes (fun t => beBytes 4 t.toNat) f.teid ++
      (optBytes Octets.bytes f.ipv4 ++ (optBytes Octets.bytes f.ipv6 ++
        (optBytes (fun c => [c]) f.chooseId ++ f.tail))) := by simp [fteidBody]
  obtain ⟨h1, hbody⟩ := fieldCodec_u32.read_optBytes hteid hbody
  obtain ⟨h2, hbody⟩ := (fieldCodec_octetsAt 4).read_optBytes hipv4 hbody
  obtain ⟨h3, hbody⟩ := (fieldCodec_octetsAt 16).read_optBytes hipv6 hbody
  obtain ⟨h4, htail⟩ := fieldCodec_u8.read_optBytes hchid hbody
  simp only [fteidFields, h1, h2, h3, h4, htail]

/-- The F-TEID decoder: `f` is what `x :: body` decodes to exactly if `f` is consistent, `x` has its flags, and `body` is
its fields (R182, R185). -/
theorem decodeFTEID_cons_ok_iff {cfg : Cfg} {x : Byte} {body : Bytes} {ieOff : Nat} {f : FTEID} :
    decodeFTEID cfg (x :: body) ieOff = .ok f ↔
      consistentFTEID f = true ∧ f.v4 = x.getLsbD cfg.fteidFlagPos.v4 ∧ f.v6 = x.getLsbD cfg.fteidFlagPos.v6 ∧
        f.ch = x.getLsbD cfg.fteidFlagPos.ch ∧ f.chid = x.getLsbD cfg.fteidFlagPos.chid ∧ body = fteidBody f := by
  rw [decodeFTEID_cons]
  constructor
  · intro h
    split at h
    · cases h
    case isFalse hlen =>
      cases h
      refine ⟨consistentFTEID_fteidFields .., rfl, rfl, rfl, rfl, ?_⟩
      rw [fteidBody_fteidFields (by rw [List.length_cons]; omega), List.drop_one, List.tail_cons]
  · rintro ⟨hc, h1, h2, h3, h4, rfl⟩
    have hneed := encodeFTEID_length ((encodeFTEID_ok_iff_eq (cfg := cfg) (o := ieOff)).mpr ⟨hc, rfl⟩)
    rw [List.length_cons] at hneed
    rw [← h1, ← h2, ← h3, ← h4, if_neg (by omega), fteidFields_cons_fteidBody hc]

/-! ### The F-TEID flags octet (R90, R91) -/

theorem getLsbD_flagBit (x : Bool) (pos : Fin 4) (i : Nat) :
    (flagBit x pos).getLsbD i = (x && decide (i = pos)) := by
  cases x with
  | false => simp [flagBit]
  | true =>
    have hpos : (pos : Nat) < 8 := by omega
    change (BitVec.twoPow 8 pos).getLsbD i = _
    simp [BitVec.getLsbD_twoPow, hpos, eq_comm]

theorem getLsbD_fteidFlags (p : FlagPos) (v4 v6 ch chid : Bool) (i : Nat) :
    (fteidFlags p v4 v6 ch chid).getLsbD i =
      (v4 && decide (i = p.v4) || v6 && decide (i = p.v6) || ch && decide (i = p.ch) || chid && decide (i = p.chid)) := by
  simp only [fteidFlags, BitVec.getLsbD_or, getLsbD_flagBit]

theorem flagPos_injective_iff (p : FlagPos) : p.injective = true ↔
    p.chid ≠ p.ch ∧ p.chid ≠ p.v6 ∧ p.chid ≠ p.v4 ∧ p.ch ≠ p.v6 ∧ p.ch ≠ p.v4 ∧ p.v6 ≠ p.v4 := by
  simp [FlagPos.injective, and_assoc]

/-- Four different positions are all the positions of the low nibble. -/
theorem eq_flagPos_of_injective {p : FlagPos} (hp : p.injective = true) (i : Fin 4) :
    i = p.v4 ∨ i = p.v6 ∨ i = p.ch ∨ i = p.chid := by
  have hne := (flagPos_injective_iff p).mp hp
  omega

/-- Flags written at different positions read back. -/
theorem fteidFlags_bits {p : FlagPos} (hp : p.injective = true) (v4 v6 ch chid : Bool) :
    (fteidFlags p v4 v6 ch chid).getLsbD p.v4 = v4 ∧ (fteidFlags p v4 v6 ch chid).getLsbD p.v6 = v6 ∧
      (fteidFlags p v4 v6 ch chid).getLsbD p.ch = ch ∧ (fteidFlags p v4 v6 ch chid).getLsbD p.chid = chid := by
  obtain ⟨h1, h2, h3, h4, h5, h6⟩ := (flagPos_injective_iff p).mp hp
  simp [getLsbD_fteidFlags, Fin.val_inj, h1, h2, h3, h4, h5, h6, h1.symm, h2.symm, h3.symm, h4.symm, h5.symm, h6.symm]

/-- The flags of an octet, written back, are the octet without its spare bits 7:4. -/
theorem fteidFlags_getLsbD {p : FlagPos} (hp : p.injective = true) (x : Byte) :
    fteidFlags p (x.getLsbD p.v4) (x.getLsbD p.v6) (x.getLsbD p.ch) (x.getLsbD p.chid) = x &&& ~~~0xF0#8 := by
  have hmask : ∀ i : Fin 8, (~~~0xF0#8).getLsbD i = decide (i.val < 4) := by decide
  apply BitVec.eq_of_getLsbD_eq
  intro i hi
  rw [BitVec.getLsbD_and, hmask ⟨i, hi⟩]
  by_cases hi4 : i < 4
  · obtain ⟨hv4, hv6, hch, hchid⟩ := fteidFlags_bits hp (x.getLsbD p.v4) (x.getLsbD p.v6) (x.getLsbD p.ch)
      (x.getLsbD p.chid)
    rw [decide_eq_true hi4, Bool.and_true]
    obtain h | h | h | h := eq_flagPos_of_injective hp ⟨i, hi4⟩ <;> obtain rfl := congrArg Fin.val h
    · exact hv4
    · exact hv6
    · exact hch
    · exact hchid
  · have hne : ∀ q : Fin 4, i ≠ q := by omega
    simp [getLsbD_fteidFlags, hi4, hne]

/-- R199 for F-TEID, decoding what was encoded. -/
theorem decodeFTEID_encodeFTEID {cfg : Cfg} (hp : cfg.fteidFlagPos.injective = true) {f : FTEID} {o : Nat} {b : Bytes}
    (h : encodeFTEID cfg f o = .ok b) (ieOff : Nat) : decodeFTEID cfg b ieOff = .ok f := by
  obtain ⟨hc, rfl⟩ := encodeFTEID_ok_iff_eq.mp h
  obtain ⟨hv4, hv6, hch, hchid⟩ := fteidFlags_bits hp f.v4 f.v6 f.ch f.chid
  exact decodeFTEID_cons_ok_iff.mpr ⟨hc, hv4.symm, hv6.symm, hch.symm, hchid.symm, rfl⟩

/-- R199 for F-TEID, encoding what was decoded. -/
theorem encodeFTEID_of_decodeFTEID {cfg : Cfg} (hp : cfg.fteidFlagPos.injective = true) {v : Bytes} {ieOff : Nat}
    {f : FTEID} (h : decodeFTEID cfg v ieOff = .ok f) (o : Nat) : encodeFTEID cfg f o = .ok (clearOctet0 0xF0#8 v) := by
  cases v with
  | nil => cases h
  | cons x body =>
    obtain ⟨hc, hv4, hv6, hch, hchid, rfl⟩ := decodeFTEID_cons_ok_iff.mp h
    refine encodeFTEID_ok_iff_eq.mpr ⟨hc, ?_⟩
    rw [hv4, hv6, hch, hchid, fteidFlags_getLsbD hp, clearOctet0]

/-! ### F-SEID (R193 to R195) -/

/-- The fields of an F-SEID behind its flags octet, in their order (R87, R194). -/
def fseidBody (f : FSEID) : Bytes :=
  beBytes 8 f.seid.toNat ++ optBytes Octets.bytes f.ipv4 ++ optBytes Octets.bytes f.ipv6 ++ f.tail

theorem encodeFSEID_ok_iff_eq {f : FSEID} {o : Nat} {b : Bytes} :
    encodeFSEID f o = .ok b ↔ consistentFSEID f = true ∧ b = fseidFlags f.v4 f.v6 :: fseidBody f := by
  cases hc : consistentFSEID f with
  | false => simp [encodeFSEID, hc]
  | true => simp [encodeFSEID, hc, fseidBody, eq_comm]

theorem consistentFSEID_iff (f : FSEID) :
    consistentFSEID f = true ↔ f.ipv4.isSome = f.v4 ∧ f.ipv6.isSome = f.v6 := by
  simp [consistentFSEID]

/-- What the F-SEID decoder reads behind flags of these values (R193). -/
def fseidFields (v4 v6 : Bool) (v : Bytes) : FSEID :=
  let p2 := if v4 then 9 + 4 else 9
  let p3 := if v6 then p2 + 16 else p2
  { v4 := v4, v6 := v6, seid := u64 v 1
    ipv4 := if v4 then some (octetsAt 4 v 9) else none
    ipv6 := if v6 then some (octetsAt 16 v p2) else none
    tail := v.drop p3 }

theorem decodeFSEID_cons (x : Byte) (body : Bytes) (ieOff : Nat) :
    decodeFSEID (x :: body) ieOff =
      if body.length + 1 < needFSEID (fseidV4 x) (fseidV6 x) then .error (badLayout ieOff)
      else .ok (fseidFields (fseidV4 x) (fseidV6 x) (x :: body)) := by
  have hlen : ¬ (x :: body).length < 1 := by simp
  simp only [decodeFSEID, if_neg hlen, u8_cons_zero]
  rfl

theorem consistentFSEID_fseidFields (v4 v6 : Bool) (v : Bytes) : consistentFSEID (fseidFields v4 v6 v) = true :=
  (consistentFSEID_iff _).mpr ⟨isSome_ite_some .., isSome_ite_some ..⟩

/-- `need` of an F-SEID is where the tail begins (R193). -/
theorem needFSEID_eq_tail_position (v4 v6 : Bool) :
    needFSEID v4 v6 = let p2 := if v4 then 9 + 4 else 9; if v6 then p2 + 16 else p2 := by
  revert v4 v6
  decide

/-- The fields that are read make up the whole value behind its flags octet. -/
theorem fseidBody_fseidFields {v4 v6 : Bool} {v : Bytes} (h3 : needFSEID v4 v6 ≤ v.length) :
    fseidBody (fseidFields v4 v6 v) = v.drop 1 := by
  rw [needFSEID_eq_tail_position] at h3
  have h2 := (le_ite_add v6 _ 16).trans h3
  have h1 := (le_ite_add v4 _ 4).trans h2
  simp only [fseidBody, fseidFields, List.append_assoc]
  rw [(fieldCodec_octetsAt 16).optBytes_read h3, (fieldCodec_octetsAt 4).optBytes_read h2, fieldCodec_u64.enc_read h1,
    slice_append_drop v 1 8]

/-- Fields written in order behind a flags octet read back (R193, R194). -/
theorem fseidFields_cons_fseidBody {f : FSEID} (hc : consistentFSEID f = true) (x : Byte) :
    fseidFields f.v4 f.v6 (x :: fseidBody f) = f := by
  obtain ⟨hipv4, hipv6⟩ := (consistentFSEID_iff f).mp hc
  have hbody : (x :: fseidBody f).drop 1 = beBytes 8 f.seid.toNat ++
      (optBytes Octets.bytes f.ipv4 ++ (optBytes Octets.bytes f.ipv6 ++ f.tail)) := by simp [fseidBody]
  have h1 := fieldCodec_u64.read_enc hbody
  obtain ⟨h2, hbody⟩ := (fieldCodec_octetsAt 4).read_optBytes hipv4 (fieldCodec_u64.drop_enc hbody)
  obtain ⟨h3, htail⟩ := (fieldCodec_octetsAt 16).read_optBytes hipv6 hbody
  simp only [fseidFields, h1, h2, h3, htail]

/-- The F-SEID decoder: `f` is what `x :: body` decodes to exactly if `f` is consistent, `x` has its flags, and `body` is
its fields (R193, R195). -/
theorem decodeFSEID_cons_ok_iff {x : Byte} {body : Bytes} {ieOff : Nat} {f : FSEID} :
    decodeFSEID (x :: body) ieOff = .ok f ↔
      consistentFSEID f = true ∧ f.v4 = fseidV4 x ∧ f.v6 = fseidV6 x ∧ body = fseidBody f := by
  rw [decodeFSEID_cons]
  constructor
  · intro h
    split at h
    · cases h
    case isFalse hlen =>
      cases h
      refine ⟨consistentFSEID_fseidFields .., rfl, rfl, ?_⟩
      rw [fseidBody_fseidFields (by rw [List.length_cons]; omega), List.drop_one, List.tail_cons]
  · rintro ⟨hc, h1, h2, rfl⟩
    have hneed := encodeFSEID_length ((encodeFSEID_ok_iff_eq (o := ieOff)).mpr ⟨hc, rfl⟩)
    rw [List.length_cons] at hneed
    rw [← h1, ← h2, if_neg (by omega), fseidFields_cons_fseidBody hc]

theorem fseidV4_fseidFlags (v4 v6 : Bool) : fseidV4 (fseidFlags v4 v6) = v4 := by
  revert v4 v6; decide

theorem fseidV6_fseidFlags (v4 v6 : Bool) : fseidV6 (fseidFlags v4 v6) = v6 := by
  revert v4 v6; decide

/-- The flags of an octet, written back, are the octet without its spare bits 7:2. -/
theorem fseidFlags_fseidV4_fseidV6 (x : Byte) : fseidFlags (fseidV4 x) (fseidV6 x) = x &&& ~~~0xFC#8 := by
  revert x; decide

/-- R199 for F-SEID, decoding what was encoded. -/
theorem decodeFSEID_encodeFSEID {f : FSEID} {o : Nat} {b : Bytes} (h : encodeFSEID f o = .ok b) (ieOff : Nat) :
    decodeFSEID b ieOff = .ok f := by
  obtain ⟨hc, rfl⟩ := encodeFSEID_ok_iff_eq.mp h
  exact decodeFSEID_cons_ok_iff.mpr ⟨hc, (fseidV4_fseidFlags ..).symm, (fseidV6_fseidFlags ..).symm, rfl⟩

/-- R199 for F-SEID, encoding what was decoded. -/
theorem encodeFSEID_of_decodeFSEID {v : Bytes} {ieOff : Nat} {f : FSEID} (h : decodeFSEID v ieOff = .ok f) (o : Nat) :
    encodeFSEID f o = .ok (clearOctet0 0xFC#8 v) := by
  cases v with
  | nil => cases h
  | cons x body =>
    obtain ⟨hc, hv4, hv6, rfl⟩ := decodeFSEID_cons_ok_iff.mp h
    refine encodeFSEID_ok_iff_eq.mpr ⟨hc, ?_⟩
    rw [hv4, hv6, fseidFlags_fseidV4_fseidV6, clearOctet0]

/-! ### Node ID (R188, R189) -/

/-- The node type of a Node ID value (R86). -/
def nodeIdType : NodeIdValue → BitVec 4
  | .v4 _ _ => 0#4
  | .v6 _ _ => 1#4
  | .fqdn _ => 2#4
  | .other t _ => t.code

/-- The octets of a Node ID behind its octet 0 (R86). -/
def nodeIdBody : NodeIdValue → Bytes
  | .v4 addr tail => addr.bytes ++ tail
  | .v6 addr tail => addr.bytes ++ tail
  | .fqdn name => name
  | .other _ tail => tail

theorem encodeNodeID_eq (n : NodeIdValue) : encodeNodeID n = (nodeIdType n).setWidth 8 :: nodeIdBody n := by
  cases n <;> rfl

/-- The sub-format a Node ID value has (R93). -/
def formOf : NodeIdValue → NodeForm
  | .v4 _ _ => .v4
  | .v6 _ _ => .v6
  | .fqdn _ => .fqdn
  | .other t _ => .other t

theorem nodeForm_nodeIdType (n : NodeIdValue) : nodeForm (nodeIdType n) = formOf n := by
  cases n with
  | other t tail => exact dif_pos t.listed
  | _ => rfl

theorem nodeForm_eq_other {nt : BitVec 4} {t : OtherType} (h : nodeForm nt = .other t) : t.code = nt := by
  unfold nodeForm at h
  split at h
  · cases h; rfl
  · split_ifs at h

theorem nodeForm_eq_listed : ∀ nt : BitVec 4,
    (nodeForm nt = .v4 → 0#4 = nt) ∧ (nodeForm nt = .v6 → 1#4 = nt) ∧ (nodeForm nt = .fqdn → 2#4 = nt) := by
  decide

/-- A node type that selects the sub-format of a value is the value's own. -/
theorem nodeIdType_of_nodeForm {nt : BitVec 4} {n : NodeIdValue} (h : nodeForm nt = formOf n) : nodeIdType n = nt := by
  obtain ⟨hv4, hv6, hfqdn⟩ := nodeForm_eq_listed nt
  cases n with
  | v4 addr tail => exact hv4 h
  | v6 addr tail => exact hv6 h
  | fqdn name => exact hfqdn h
  | other t tail => exact nodeForm_eq_other h

/-- The address forms: an address of `n` octets behind octet 0, then the tail. -/
theorem addressForm_cons_ok_iff {n : Nat} (form : Octets n → Bytes → NodeIdValue) {x : Byte} {body : Bytes} {e : Err}
    {y : NodeIdValue} :
    (if (x :: body).length < 1 + n then Except.error e
      else .ok (form (octetsAt n (x :: body) 1) ((x :: body).drop (1 + n)))) = .ok y ↔
    ∃ addr tail, y = form addr tail ∧ addr.bytes ++ tail = body := by
  constructor
  · intro h
    split at h
    · cases h
    case isFalse hlen =>
      cases h
      refine ⟨_, _, rfl, ?_⟩
      rw [(fieldCodec_octetsAt n).enc_read (by omega), slice_append_drop _ 1 n, List.drop_one, List.tail_cons]
  · rintro ⟨addr, tail, rfl, rfl⟩
    have hbody : (x :: (addr.bytes ++ tail)).drop 1 = addr.bytes ++ tail := rfl
    have hlen : ¬ (x :: (addr.bytes ++ tail)).length < 1 + n := by simp [addr.len]; omega
    rw [if_neg hlen, (fieldCodec_octetsAt n).read_enc hbody, (fieldCodec_octetsAt n).drop_enc hbody]

theorem decodeNodeIdV4_cons_ok_iff {x : Byte} {body : Bytes} {ieOff : Nat} {n : NodeIdValue} :
    decodeNodeIdV4 (x :: body) ieOff = .ok n ↔ ∃ addr tail, n = .v4 addr tail ∧ addr.bytes ++ tail = body :=
  addressForm_cons_ok_iff .v4

theorem decodeNodeIdV6_cons_ok_iff {x : Byte} {body : Bytes} {ieOff : Nat} {n : NodeIdValue} :
    decodeNodeIdV6 (x :: body) ieOff = .ok n ↔ ∃ addr tail, n = .v6 addr tail ∧ addr.bytes ++ tail = body :=
  addressForm_cons_ok_iff .v6

theorem decodeNodeIdFQDN_cons (x : Byte) (body : Bytes) (ieOff : Nat) :
    decodeNodeIdFQDN (x :: body) ieOff = .ok (.fqdn body) := by
  simp [decodeNodeIdFQDN]

theorem decodeNodeIdOther_cons (t : OtherType) (x : Byte) (body : Bytes) (ieOff : Nat) :
    decodeNodeIdOther t (x :: body) ieOff = .ok (.other t body) := by
  simp [decodeNodeIdOther]

/-- The Node ID decoder: `n` is what `x :: body` decodes to exactly if the low nibble of `x` is the type of `n` and `body`
is what follows octet 0 (R188). -/
theorem decodeNodeID_cons_ok_iff {x : Byte} {body : Bytes} {ieOff : Nat} {n : NodeIdValue} :
    decodeNodeID (x :: body) ieOff = .ok n ↔ nodeIdType n = nodeNibble x ∧ nodeIdBody n = body := by
  have hlen : ¬ (x :: body).length < 1 := by simp
  simp only [decodeNodeID, if_neg hlen, u8_cons_zero]
  constructor
  · intro h
    split at h
    next hform =>
      obtain ⟨addr, tail, rfl, hbody⟩ := decodeNodeIdV4_cons_ok_iff.mp h
      exact ⟨nodeIdType_of_nodeForm hform, hbody⟩
    next hform =>
      obtain ⟨addr, tail, rfl, hbody⟩ := decodeNodeIdV6_cons_ok_iff.mp h
      exact ⟨nodeIdType_of_nodeForm hform, hbody⟩
    next hform =>
      cases h
      exact ⟨nodeIdType_of_nodeForm hform, rfl⟩
    next t hform =>
      cases h
      exact ⟨nodeIdType_of_nodeForm hform, rfl⟩
  · rintro ⟨htype, rfl⟩
    rw [← htype, nodeForm_nodeIdType]
    cases n with
    | v4 addr tail => exact decodeNodeIdV4_cons_ok_iff.mpr ⟨addr, tail, rfl, rfl⟩
    | v6 addr tail => exact decodeNodeIdV6_cons_ok_iff.mpr ⟨addr, tail, rfl, rfl⟩
    | fqdn name => exact decodeNodeIdFQDN_cons x name ieOff
    | other t tail => exact decodeNodeIdOther_cons t x tail ieOff

theorem nodeNibble_setWidth (nt : BitVec 4) : nodeNibble (nt.setWidth 8) = nt := by
  revert nt; decide

/-- The node type of an octet, written back, is the octet without its spare bits 7:4. -/
theorem setWidth_nodeNibble (x : Byte) : (nodeNibble x).setWidth 8 = x &&& ~~~0xF0#8 := by
  revert x; decide

/-- R199 for Node ID, decoding what was encoded. -/
theorem decodeNodeID_encodeNodeID (n : NodeIdValue) (ieOff : Nat) : decodeNodeID (encodeNodeID n) ieOff = .ok n := by
  rw [encodeNodeID_eq, decodeNodeID_cons_ok_iff, nodeNibble_setWidth]
  exact ⟨rfl, rfl⟩

/-- R199 for Node ID, encoding what was decoded. -/
theorem encodeNodeID_of_decodeNodeID {v : Bytes} {ieOff : Nat} {n : NodeIdValue} (h : decodeNodeID v ieOff = .ok n) :
    encodeNodeID n = clearOctet0 0xF0#8 v := by
  cases v with
  | nil => cases h
  | cons x body =>
    obtain ⟨htype, rfl⟩ := decodeNodeID_cons_ok_iff.mp h
    rw [encodeNodeID_eq, htype, setWidth_nodeNibble, clearOctet0]

/-! ### Cause (R178, R179) -/

theorem decodeCause_cons (x : Byte) (body : Bytes) (ieOff : Nat) : decodeCause (x :: body) ieOff = .ok ⟨x, body⟩ := by
  simp [decodeCause, u8_cons_zero]

/-- R199 for Cause, decoding what was encoded. -/
theorem decodeCause_encodeCause (c : CauseValue) (ieOff : Nat) : decodeCause (encodeCause c) ieOff = .ok c :=
  decodeCause_cons c.cause c.tail ieOff

/-- R199 for Cause, encoding what was decoded. -/
theorem encodeCause_of_decodeCause {v : Bytes} {ieOff : Nat} {c : CauseValue} (h : decodeCause v ieOff = .ok c) :
    encodeCause c = v := by
  cases v with
  | nil => cases h
  | cons x body =>
    rw [decodeCause_cons] at h
    cases h
    rfl

end Sys2Proof.Machine
end

section
/-! IE lists round trip (`spec/41_ie_list.md` R151): one IE on the wire, one turn of the list codec in each direction over
it, and the two inductions, over the value encoded and over the budget of the list decoded. -/

namespace Sys2Proof.Machine

/-! ### One IE on the wire (R82) -/

/-- An IE of type `t` with the value octets `v`: type, length, value (R82, R145). -/
def ieOctets (t : BitVec 16) (v : Bytes) : Bytes := beBytes 2 t.toNat ++ beBytes 2 v.length ++ v

@[simp] theorem ieOctets_length (t : BitVec 16) (v : Bytes) : (ieOctets t v).length = 4 + v.length := by
  simp [ieOctets]; omega

theorem u16_zero_ieOctets (t : BitVec 16) (v tail : Bytes) : u16 (ieOctets t v ++ tail) 0 = t := by
  simpa [ieOctets] using u16_beBytes t (beBytes 2 v.length ++ (v ++ tail))

theorem u16_two_ieOctets (t : BitVec 16) {v : Bytes} (tail : Bytes) (hv : v.length ≤ 65535) :
    (u16 (ieOctets t v ++ tail) 2).toNat = v.length := by
  have hlen : (BitVec.ofNat 16 v.length).toNat = v.length := Nat.mod_eq_of_lt (by omega)
  have hread := ofNat_memRead_beBytes 2 (BitVec.ofNat 16 v.length) (beBytes 2 t.toNat) (v ++ tail)
  rw [hlen, beBytes_length] at hread
  rw [ieOctets, List.append_assoc, List.append_assoc, u16, hread, hlen]

theorem slice_ieOctets (t : BitVec 16) (v tail : Bytes) : slice (ieOctets t v ++ tail) 4 v.length = v := by
  have h := slice_append_right (beBytes 2 t.toNat ++ beBytes 2 v.length) (v ++ tail) 0 v.length
  rw [slice_zero_append] at h
  simpa [ieOctets] using h

theorem drop_ieOctets (t : BitVec 16) (v tail : Bytes) : (ieOctets t v ++ tail).drop (4 + v.length) = tail :=
  List.drop_left' (ieOctets_length t v)

/-- A byte string that holds type, length and the octets that length counts begins with that IE. -/
theorem eq_ieOctets_append {b : Bytes} (h4 : 4 ≤ b.length) (hL : 4 + (u16 b 2).toNat ≤ b.length) :
    b = ieOctets (u16 b 0) (slice b 4 (u16 b 2).toNat) ++ b.drop (4 + (u16 b 2).toNat) := by
  have hlen : (slice b 4 (u16 b 2).toNat).length = (u16 b 2).toNat := by rw [slice_length]; omega
  have htype : beBytes 2 (u16 b 0).toNat = slice b 0 2 := beBytes_ofNat_memRead (by omega)
  have hlength : beBytes 2 (u16 b 2).toNat = slice b 2 2 := beBytes_ofNat_memRead (by omega)
  rw [ieOctets, hlen, htype, hlength, List.append_assoc, slice_append_drop, slice_append_slice b 0 2 2,
    slice_append_drop b 0 4]
  rfl

/-! ### One turn of the list codec -/

/-- A turn of `DecodeIEList` on an IE that lies within the window (R140). -/
theorem decodeIEList_ieOctets (cfg : Cfg) (reg : Registry) (t : BitVec 16) {v : Bytes} (hv : v.length ≤ 65535)
    (tail : Bytes) (total depth base : Nat) {x : IE} (hx : decodeValue cfg reg t v depth base = .ok x) {rest : IEList}
    (hrest : decodeIEList cfg reg tail total depth (base + 4 + v.length) = .ok rest) :
    decodeIEList cfg reg (ieOctets t v ++ tail) (4 + v.length + total) depth base = .ok (.cons x.type x.value rest) := by
  have hlen : (ieOctets t v ++ tail).length = 4 + v.length + tail.length := by simp
  rw [decodeIEList_turn _ _ _ _ _ _ (by omega), hlen, u16_two_ieOctets t tail hv, u16_zero_ieOctets, slice_ieOctets,
    drop_ieOctets, if_neg (by omega), if_neg (by omega), if_neg (by omega), if_neg (by omega), hx,
    show 4 + v.length + total - (4 + v.length) = total by omega, hrest]

theorem decodeValue_ok_iff {cfg : Cfg} {reg : Registry} {t : BitVec 16} {v : Bytes} {depth ieOff : Nat} {x : IE} :
    decodeValue cfg reg t v depth ieOff = .ok x ↔
      x.type = t ∧ decodeValueWith (decodeIEList cfg reg) cfg reg t v depth ieOff = .ok x.value := by
  rw [decodeValue]
  cases decodeValueWith (decodeIEList cfg reg) cfg reg t v depth ieOff with
  | error e => simp [Except.map]
  | ok y => cases x; simp [Except.map, eq_comm]

/-- A list that decodes from a window that is not empty begins with an IE that decodes, and goes on with a list that
decodes from the rest of the window (R140). -/
theorem decodeIEList_ok_cases {cfg : Cfg} {reg : Registry} {b : Bytes} {total depth base : Nat} {ies : IEList}
    (h0 : total ≠ 0) (h : decodeIEList cfg reg b total depth base = .ok ies) :
    ∃ (x : IE) (v tail : Bytes) (total' : Nat) (rest : IEList),
      b = ieOctets x.type v ++ tail ∧ v.length ≤ 65535 ∧ total = 4 + v.length + total' ∧
      ies = .cons x.type x.value rest ∧ decodeValue cfg reg x.type v depth base = .ok x ∧
      decodeIEList cfg reg tail total' depth (base + 4 + v.length) = .ok rest := by
  rw [decodeIEList_turn _ _ _ _ _ _ h0] at h
  split_ifs at h
  split at h
  · cases h
  next x hx =>
  split at h
  · cases h
  next rest hrest =>
  cases h
  have hL : (u16 b 2).toNat ≤ 65535 := by have := (u16 b 2).isLt; omega
  have hlen : (slice b 4 (u16 b 2).toNat).length = (u16 b 2).toNat := by rw [slice_length]; omega
  refine ⟨x, slice b 4 (u16 b 2).toNat, b.drop (4 + (u16 b 2).toNat), total - (4 + (u16 b 2).toNat), rest, ?_, ?_, ?_,
    rfl, ?_, ?_⟩
  · rw [(decodeValue_ok_iff.mp hx).1]
    exact eq_ieOctets_append (by omega) (by omega)
  · rw [hlen]; exact hL
  · omega
  · rw [(decodeValue_ok_iff.mp hx).1]; exact hx
  · rw [hlen]; exact hrest

theorem encodeIEList_cons_ok_iff {cfg : Cfg} {reg : Registry} {t : BitVec 16} {v : Value} {rest : IEList}
    {depth off : Nat} {b : Bytes} : encodeIEList cfg reg (.cons t v rest) depth off = .ok b ↔
      ∃ vb rb, encodeValueAt cfg reg t v depth off = .ok vb ∧ vb.length ≤ 65535 ∧
        encodeIEList cfg reg rest depth (off + 4 + vb.length) = .ok rb ∧ b = ieOctets t vb ++ rb := by
  rw [encodeIEList]
  constructor
  · intro h
    split at h
    · cases h
    next vb hvb =>
    split at h
    · cases h
    next hlen =>
    split at h
    · cases h
    next rb hrb =>
    cases h
    exact ⟨vb, rb, hvb, by omega, hrb, rfl⟩
  · rintro ⟨vb, rb, hvb, hlen, hrb, rfl⟩
    rw [hvb]
    simp only
    rw [if_neg (by omega), hrb]
    rfl

/-! ### Decode after encode -/

theorem decodeGrouped_of_lt {cfg : Cfg} {depth : Nat} (h : depth < cfg.maxDepth) (reg : Registry) (v : Bytes)
    (ieOff : Nat) :
    decodeGrouped cfg reg v depth ieOff = decodeIEList cfg reg v v.length (depth + 1) (ieOff + 4) :=
  if_neg (by omega)

mutual

/-- The registry opens encoded octets as the value they were encoded from (R162, R164). -/
theorem decodeValue_of_encodeValueAt {cfg : Cfg} (hp : cfg.fteidFlagPos.injective = true) (reg : Registry)
    (t : BitVec 16) (v : Value) (depth o ieOff : Nat) (b : Bytes) (h : encodeValueAt cfg reg t v depth o = .ok b) :
    decodeValue cfg reg t b depth ieOff = .ok ⟨t, v⟩ := by
  rw [encodeValueAt.eq_def] at h
  split at h
  · cases h
  next hvariant =>
  rw [decodeValue, decodeValueWith, ← not_not.mp hvariant]
  cases v with
  | unrecognized raw => cases h; rfl
  | cause c => cases h; simp only [variantOf, decodeCause_encodeCause]; rfl
  | fteid f => simp only [variantOf, decodeFTEID_encodeFTEID hp h]; rfl
  | nodeId n => cases h; simp only [variantOf, decodeNodeID_encodeNodeID]; rfl
  | fseid x => simp only [variantOf, decodeFSEID_encodeFSEID h]; rfl
  | grouped children =>
    simp only at h
    split at h
    · cases h
    next hdepth =>
    have hlist := decodeIEList_of_encodeIEList hp reg children (depth + 1) (o + 4) (ieOff + 4) b [] h
    rw [List.append_nil] at hlist
    simp only [variantOf, decodeGroupedWith, if_neg hdepth, hlist]
    rfl

/-- R151, decoding what was encoded: whatever follows the window. -/
theorem decodeIEList_of_encodeIEList {cfg : Cfg} (hp : cfg.fteidFlagPos.injective = true) (reg : Registry)
    (ies : IEList) (depth off base : Nat) (b after : Bytes) (h : encodeIEList cfg reg ies depth off = .ok b) :
    decodeIEList cfg reg (b ++ after) b.length depth base = .ok ies := by
  cases ies with
  | nil => rw [encodeIEList] at h; cases h; rfl
  | cons t v rest =>
    obtain ⟨vb, rb, hvb, hlen, hrb, rfl⟩ := encodeIEList_cons_ok_iff.mp h
    have hvalue := decodeValue_of_encodeValueAt hp reg t v depth off base vb hvb
    have hrest := decodeIEList_of_encodeIEList hp reg rest depth _ (base + 4 + vb.length) rb after hrb
    rw [List.append_assoc, List.length_append, ieOctets_length]
    exact decodeIEList_ieOctets cfg reg t hlen (rb ++ after) rb.length depth base hvalue hrest

end

/-! ### Encode after decode -/

theorem clearOctet0_length (mask : Byte) (v : Bytes) : (clearOctet0 mask v).length = v.length := by
  cases v <;> rfl

theorem clearOctet0_zero (v : Bytes) : clearOctet0 0#8 v = v := by
  cases v with
  | nil => rfl
  | cons x xs =>
    have hx : x &&& ~~~0#8 = x := BitVec.and_allOnes
    rw [clearOctet0, hx]

/-- The octets of an IE's value with the spare bits cleared, by the kind the registry has for it (R227, R228). -/
def clearValueFuel (reg : Registry) (n : Nat) (k : Option Kind) (v : Bytes) : Bytes :=
  if k = some .grouped then clearListFuel reg n v else clearOctet0 (spareMask k) v

theorem clearListFuel_succ (reg : Registry) (n : Nat) {b : Bytes} (h : 4 ≤ b.length) :
    clearListFuel reg (n + 1) b = b.take 4 ++ clearValueFuel reg n (reg.kindAt (u16 b 0)) (slice b 4 (u16 b 2).toNat)
      ++ clearListFuel reg n (b.drop (4 + (u16 b 2).toNat)) := by
  rw [clearListFuel, if_neg (by omega)]
  rfl

theorem clearValueFuel_length_of_list {reg : Registry} {n : Nat}
    (hlist : ∀ b : Bytes, (clearListFuel reg n b).length = b.length) (k : Option Kind) (v : Bytes) :
    (clearValueFuel reg n k v).length = v.length := by
  unfold clearValueFuel
  split
  · exact hlist v
  · exact clearOctet0_length _ v

/-- Clearing spare bits changes no length. -/
theorem clearListFuel_length (reg : Registry) (n : Nat) : ∀ b : Bytes, (clearListFuel reg n b).length = b.length := by
  induction n with
  | zero => exact fun _ => rfl
  | succ n ih =>
    intro b
    by_cases h : b.length < 4
    · rw [clearListFuel, if_pos h]
    · rw [clearListFuel_succ reg n (by omega)]
      simp only [List.length_append, List.length_take, clearValueFuel_length_of_list ih, slice_length, ih,
        List.length_drop]
      omega

theorem clearValueFuel_length (reg : Registry) (n : Nat) (k : Option Kind) (v : Bytes) :
    (clearValueFuel reg n k v).length = v.length :=
  clearValueFuel_length_of_list (clearListFuel_length reg n) k v

/-- Clearing a list goes IE by IE, and leaves type and length (R227). -/
theorem clearListFuel_ieOctets (reg : Registry) (n : Nat) (t : BitVec 16) {v : Bytes} (hv : v.length ≤ 65535)
    (tail : Bytes) : clearListFuel reg (n + 1) (ieOctets t v ++ tail) =
      ieOctets t (clearValueFuel reg n (reg.kindAt t) v) ++ clearListFuel reg n tail := by
  have hhead : (ieOctets t v ++ tail).take 4 = beBytes 2 t.toNat ++ beBytes 2 v.length := by
    rw [ieOctets, List.append_assoc]
    exact List.take_left' (by simp)
  rw [clearListFuel_succ reg n (by simp; omega), hhead, u16_zero_ieOctets, u16_two_ieOctets t tail hv, slice_ieOctets,
    drop_ieOctets, ieOctets, clearValueFuel_length]

theorem exceptMap_eq_ok {α β : Type} {f : α → β} {r : Except Err α} {y : β} (h : r.map f = .ok y) :
    ∃ a, r = .ok a ∧ f a = y := by
  cases r with
  | error e => cases h
  | ok a => cases h; exact ⟨a, rfl, rfl⟩

/-- Encoding a decoded value gives its octets with the spare bits cleared (R162, R164, R199), if that holds of the list
inside a grouped one. -/
theorem encodeValueAt_of_decodeValue {cfg : Cfg} (hp : cfg.fteidFlagPos.injective = true) {reg : Registry} {n : Nat}
    {x : IE} {v : Bytes} {depth ieOff o : Nat}
    (hlist : ∀ children, decodeIEList cfg reg v v.length (depth + 1) (ieOff + 4) = .ok children →
      encodeIEList cfg reg children (depth + 1) (o + 4) = .ok (clearListFuel reg n v))
    (h : decodeValue cfg reg x.type v depth ieOff = .ok x) :
    encodeValueAt cfg reg x.type x.value depth o = .ok (clearValueFuel reg n (reg.kindAt x.type) v) := by
  obtain ⟨t, y⟩ := x
  obtain ⟨-, hy⟩ := decodeValue_ok_iff.mp h
  simp only at hy ⊢
  rw [encodeValueAt.eq_def, if_neg (not_not.mpr (decodeValueWith_variant hy))]
  unfold decodeValueWith at hy
  split at hy
  next hk =>
    cases hy
    simp [hk, clearValueFuel, spareMask, clearOctet0_zero]
  next hk =>
    obtain ⟨c, hc, rfl⟩ := exceptMap_eq_ok hy
    simp [hk, clearValueFuel, spareMask, clearOctet0_zero, encodeCause_of_decodeCause hc]
  next hk =>
    obtain ⟨f, hf, rfl⟩ := exceptMap_eq_ok hy
    simp [hk, clearValueFuel, spareMask, encodeFTEID_of_decodeFTEID hp hf o]
  next hk =>
    obtain ⟨m, hm, rfl⟩ := exceptMap_eq_ok hy
    simp [hk, clearValueFuel, spareMask, encodeNodeID_of_decodeNodeID hm]
  next hk =>
    obtain ⟨f, hf, rfl⟩ := exceptMap_eq_ok hy
    simp [hk, clearValueFuel, spareMask, encodeFSEID_of_decodeFSEID hf o]
  next hk =>
    obtain ⟨children, hc, rfl⟩ := exceptMap_eq_ok hy
    unfold decodeGroupedWith at hc
    split at hc
    · cases hc
    next hdepth => simp [hk, clearValueFuel, hdepth, hlist children hc]

/-- R151, encoding what was decoded: with any budget the window fits in. -/
theorem encodeIEList_of_decodeIEList {cfg : Cfg} (hp : cfg.fteidFlagPos.injective = true) (reg : Registry) (n : Nat) :
    ∀ (b : Bytes) (total depth base off : Nat) (ies : IEList), total ≤ n →
      decodeIEList cfg reg b total depth base = .ok ies →
      encodeIEList cfg reg ies depth off = .ok (clearListFuel reg n (b.take total)) := by
  induction n with
  | zero =>
    intro b total depth base off ies hn h
    obtain rfl : total = 0 := by omega
    cases h
    rfl
  | succ n ih =>
    intro b total depth base off ies hn h
    by_cases h0 : total = 0
    · subst h0
      cases h
      rfl
    obtain ⟨x, v, tail, total', rest, rfl, hv, rfl, rfl, hx, hrest⟩ := decodeIEList_ok_cases h0 h
    have hwindow : (ieOctets x.type v ++ tail).take (4 + v.length + total') = ieOctets x.type v ++ tail.take total' := by
      rw [← ieOctets_length x.type v, List.take_length_add_append]
    have hvalue := encodeValueAt_of_decodeValue (n := n) (o := off) hp
      (fun children hc => by simpa using ih v v.length (depth + 1) (base + 4) (off + 4) children (by omega) hc) hx
    rw [hwindow, clearListFuel_ieOctets reg n x.type hv]
    refine encodeIEList_cons_ok_iff.mpr ⟨_, _, hvalue, ?_, ih tail total' depth _ _ rest (by omega) hrest, rfl⟩
    rw [clearValueFuel_length]
    exact hv

/-! ### The rows run by themselves -/

/-- `CUR` holds every offset a message has (R22). -/
theorem toNat_ofNat_cur {v : Nat} (h : v ≤ 65539) : (BitVec.ofNat 17 v).toNat = v :=
  Nat.mod_eq_of_lt (by omega)

theorem exec_decodeIEList_of_ok {s : State} {b : Bytes} {total depth base : Nat} {ies : IEList}
    (h : decodeIEList s.cfg s.registry b total depth base = .ok ies) :
    exec (.decodeIEList b total depth base) s = .next (deliverList (base + total) ies s) :=
  congrArg (answerDecode (deliverList (base + total)) · s) h

theorem exec_encodeIEList_of_ok {s : State} {ies : IEList} {depth off : Nat} {b : Bytes}
    (h : encodeIEList s.cfg s.registry ies depth off = .ok b) :
    exec (.encodeIEList ies depth off) s = .next (deliverOctets b s) :=
  congrArg (answerEncode deliverOctets · s) h

theorem exec_decodeValue_of_ok {s : State} {t : BitVec 16} {v : Bytes} {depth ieOff : Nat} {x : IE}
    (h : decodeValue s.cfg s.registry t v depth ieOff = .ok x) :
    exec (.decodeValue t v depth ieOff) s = .next (deliverIE (ieOff + 4 + v.length) x s) :=
  congrArg (answerDecode (deliverIE (ieOff + 4 + v.length)) · s) h

/-- Both grouped rows do the same (assumption 7). -/
theorem exec_decodeGrouped_of_ok {s : State} {v : Bytes} {depth ieOff : Nat} {children : IEList}
    (h : decodeGrouped s.cfg s.registry v depth ieOff = .ok children) {i : Instr}
    (hi : i = .decodeGroupedCreatePDR v depth ieOff ∨ i = .decodeGroupedPDI v depth ieOff) :
    exec i s = .next (deliverGrouped (ieOff + 4 + v.length) children s) := by
  have hanswer := congrArg (answerDecode (deliverGrouped (ieOff + 4 + v.length)) · s) h
  obtain rfl | rfl := hi
  · exact hanswer
  · exact hanswer

theorem deliverIE_grouped (stop : Nat) (t : BitVec 16) (children : IEList) (s : State) :
    deliverIE stop ⟨t, .grouped children⟩ s = setCur stop (deliver (.ie ⟨t, .grouped children⟩) s) := rfl

theorem deliverIE_of_not_grouped (stop : Nat) {x : IE} (h : ∀ children, x.value ≠ .grouped children) (s : State) :
    deliverIE stop x s = deliver (.ie x) s := by
  unfold deliverIE
  split
  next children hx => exact absurd hx (h children)
  next => rfl

/-! ### The obligations -/

/-- Settles O41: the list on the wire goes back and forth IE by IE, by induction on the list encoded, and on the budget of
the list decoded. -/
theorem listRoundTrip : Obligations.ListRoundTrip := by
  refine ⟨fun s ies depth off base b rest hp h => ?_, fun s b total depth base off ies hp h => ?_⟩
  · have hlist := decodeIEList_of_encodeIEList hp s.registry ies depth off base b rest h
    exact ⟨_, exec_decodeIEList_of_ok hlist, toNat_ofNat_cur⟩
  · exact exec_encodeIEList_of_ok
      (encodeIEList_of_decodeIEList hp s.registry total b total depth base off ies le_rfl h)

/-- Settles O45: the registry opens the octets as the variant that was encoded, and only a grouped value moves CUR. -/
theorem encodedValueDecodes : Obligations.EncodedValueDecodes := by
  rintro s ⟨t, v⟩ depth o ieOff b hp h
  have hvalue := decodeValue_of_encodeValueAt hp s.registry t v depth o ieOff b h
  refine ⟨_, exec_decodeValue_of_ok hvalue, ?_, fun hng => deliverIE_of_not_grouped _ hng s⟩
  rintro ⟨children, rfl⟩
  exact ⟨_, deliverIE_grouped _ t children s, toNat_ofNat_cur⟩

/-- Settles O48: below the depth limit a group decodes as the list in it does. -/
theorem encodedGroupDecodes : Obligations.EncodedGroupDecodes := by
  intro s children depth o ieOff b hp hdepth h
  have hlist := decodeIEList_of_encodeIEList hp s.registry children (depth + 1) o (ieOff + 4) b [] h
  rw [List.append_nil, ← decodeGrouped_of_lt hdepth] at hlist
  exact ⟨_, toNat_ofNat_cur, exec_decodeGrouped_of_ok hlist (.inl rfl), exec_decodeGrouped_of_ok hlist (.inr rfl)⟩

end Sys2Proof.Machine
end

section
/-! The registry's commands (`spec/42_registry.md` R165 to R172): `REG_WRITE` as one equation per outcome, the one way an
instruction can change the table, and the phase gate of the codecs. -/

namespace Sys2Proof.Machine

/-! ### Kind codes (R161) -/

theorem kindOfCode_eq_none_iff {kind : BitVec 3} : kindOfCode kind = none ↔ ¬ (1 ≤ kind.toNat ∧ kind.toNat ≤ 5) := by
  revert kind
  decide

theorem exists_kindOfCode {kind : BitVec 3} (h1 : 1 ≤ kind.toNat) (h5 : kind.toNat ≤ 5) :
    ∃ k, kindOfCode kind = some k :=
  Option.ne_none_iff_exists'.mp fun hnone => kindOfCode_eq_none_iff.mp hnone ⟨h1, h5⟩

/-- The table of R161. -/
theorem kind_of_kindOfCode {kind : BitVec 3} {k : Kind} (h : kindOfCode kind = some k) :
    (kind = 1#3 ∧ k = .cause) ∨ (kind = 2#3 ∧ k = .fteid) ∨ (kind = 3#3 ∧ k = .nodeId) ∨ (kind = 4#3 ∧ k = .fseid) ∨
      (kind = 5#3 ∧ k = .grouped) := by
  revert kind
  cases k <;> decide

theorem kindOfCode_of_reserved {kind : BitVec 3} (h : kind = 0#3 ∨ kind = 6#3 ∨ kind = 7#3) : kindOfCode kind = none := by
  obtain rfl | rfl | rfl := h <;> rfl

/-! ### REG_WRITE, check by check (R165) -/

section RegWrite

variable {kind : BitVec 3} {k : Kind} {s : State}

theorem exec_regWrite_reserved (hkind : kindOfCode kind = none) (code : BitVec 16) (name : String) (s : State) :
    exec (.regWrite code kind name) s = .next (refuse .illegalCommand s) := by
  simp [exec, execRegWrite, hkind]

theorem exec_regWrite_locked (hkind : kindOfCode kind = some k) (hrun : s.phase = .run) (code : BitVec 16)
    (name : String) : exec (.regWrite code kind name) s = .next (refuse .registryLocked s) := by
  simp [exec, execRegWrite, hkind, hrun]

theorem exec_regWrite_conflict (hkind : kindOfCode kind = some k) (hinit : s.phase = .init) {code : BitVec 16}
    (hfull : s.registry.lookup code.toNat ≠ none) (name : String) :
    exec (.regWrite code kind name) s = .next (refuse .registryConflict s) := by
  simp [exec, execRegWrite, hkind, hinit, Registry.at, Option.isSome_iff_ne_none, hfull]

theorem exec_regWrite_accepted (hkind : kindOfCode kind = some k) (hinit : s.phase = .init) {code : BitVec 16}
    (hempty : s.registry.lookup code.toNat = none) (name : String) :
    exec (.regWrite code kind name) s =
      .next (complete .done Status.zero { s with registry := s.registry.set code.toNat ⟨k, name⟩ }) := by
  simp [exec, execRegWrite, hkind, hinit, Registry.at, hempty]

end RegWrite

/-! ### What an instruction can do to the table and to the phase (R165, R166) -/

/-- The table stays as it is, unless an entry is written in INIT where it was empty. -/
theorem Effect.registry_cases {s t : State} (h : Effect s t) :
    t.registry = s.registry ∨ ∃ (code : BitVec 16) (e : Entry), s.phase = .init ∧ s.registry.lookup code.toNat = none ∧
      t.registry = s.registry.set code.toNat e := by
  cases h with
  | wrote code k name hinit hempty => exact .inr ⟨code, ⟨k, name⟩, hinit, hempty, rfl⟩
  | _ => exact .inl rfl

theorem Effect.registry_eq_of_run {s t : State} (h : Effect s t) (hrun : s.phase = .run) : t.registry = s.registry := by
  obtain heq | ⟨_, _, hinit, -, -⟩ := h.registry_cases
  · exact heq
  · exact absurd (hrun.symm.trans hinit) nofun

/-- No effect clears or replaces an entry. -/
theorem Effect.lookup_eq_of_ne_none {s t : State} (h : Effect s t) {c : Nat} (hfull : s.registry.lookup c ≠ none) :
    t.registry.lookup c = s.registry.lookup c := by
  obtain heq | ⟨code, e, -, hempty, hset⟩ := h.registry_cases
  · rw [heq]
  · have hother : c ≠ code.toNat := fun hc => hfull (hc ▸ hempty)
    rw [hset, Registry.lookup_set_other _ _ hother]

/-- No effect leaves RUN: the only phase one writes is RUN (R28). -/
theorem Effect.phase_eq_run {s t : State} (h : Effect s t) (hrun : s.phase = .run) : t.phase = .run := by
  cases h with
  | locked => rfl
  | _ => exact hrun

/-! ### The obligations -/

/-- Settles O8: the one effect that writes the table needs INIT, and the phase check stands before the conflict check. -/
theorem runFreezesRegistry : Obligations.RunFreezesRegistry := by
  refine ⟨fun i s t hrun h => ?_, fun code kind name s hrun h1 h5 => ?_⟩
  · exact ⟨(exec_effect h).registry_eq_of_run hrun, (exec_effect h).phase_eq_run hrun⟩
  · obtain ⟨k, hkind⟩ := exists_kindOfCode h1 h5
    exact exec_regWrite_locked hkind hrun code name

/-- Settles O17: the equation of each outcome, and what the table reads after the one write to it. -/
theorem regWriteOutcomes : Obligations.RegWriteOutcomes := by
  refine ⟨fun _ _ => rfl, fun i s t c h => (exec_effect h).lookup_eq_of_ne_none, fun code kind name s =>
    ⟨fun hreserved => ?_, fun h1 h5 hrun => ?_, fun h1 h5 hinit hfull => ?_, fun h1 h5 hinit hempty => ?_⟩⟩
  · exact exec_regWrite_reserved (kindOfCode_eq_none_iff.mpr hreserved) code name s
  · obtain ⟨k, hkind⟩ := exists_kindOfCode h1 h5
    exact exec_regWrite_locked hkind hrun code name
  · obtain ⟨k, hkind⟩ := exists_kindOfCode h1 h5
    exact exec_regWrite_conflict hkind hinit hfull name
  · obtain ⟨k, hkind⟩ := exists_kindOfCode h1 h5
    exact ⟨k, s.registry.set code.toNat ⟨k, name⟩, exec_regWrite_accepted hkind hinit hempty name,
      kind_of_kindOfCode hkind, Registry.lookup_set_same .., fun _ => Registry.lookup_set_other _ _⟩

/-- Settles O20: in INIT both codecs raise before they read their operand; CLASSIFY reads CFG alone. -/
theorem codecsGatedByPhase : Obligations.CodecsGatedByPhase := by
  refine ⟨fun s hinit => ?_, fun S code => ?_⟩
  · refine ⟨raise ⟨.notInitialised, 0⟩ s, raiseEncode ⟨.notInitialised, 0⟩ s, execDecode_init hinit,
      execEncode_init hinit, ?_⟩
    simp [hinit, Err.status, errCode]
  · exact ⟨fun cfg => .classified (classify cfg S code) code, fun _ => rfl⟩

/-- Settles O16: command code 0 selects NOP whatever the operands are, and NOP hands its state on. -/
theorem nopChangesNothing : Obligations.NopChangesNothing :=
  ⟨fun _ => rfl, fun _ _ => rfl⟩

/-- Settles O19: the reserved codes select the two refusing commands, and a reserved kind fails the first check of
`REG_WRITE`, before the phase is looked at. -/
theorem reservedEncodingsRefused : Obligations.ReservedEncodingsRefused := fun s =>
  ⟨rfl, rfl, fun _ _ => ⟨rfl, rfl⟩, fun code _ name hkind =>
    exec_regWrite_reserved (kindOfCode_of_reserved hkind) code name s⟩

end Sys2Proof.Machine
end

section
/-! The rows of the value codecs run by themselves (`spec/43_ie_values.md` R177, R184, R189, R194): the octets an encoder
puts on the bus, what an encoder refuses, and the values a decoder finds too short. -/

namespace Sys2Proof.Machine

/-! ### The encoder rows -/

theorem exec_encodeFTEID_of_ok {s : State} {f : FTEID} {o : Nat} {b : Bytes} (h : encodeFTEID s.cfg f o = .ok b) :
    exec (.encodeFTEID f o) s = .next (deliverOctets b s) :=
  congrArg (answerEncode deliverOctets · s) h

theorem exec_encodeFTEID_of_error {s : State} {f : FTEID} {o : Nat} {e : Err} (h : encodeFTEID s.cfg f o = .error e) :
    exec (.encodeFTEID f o) s = .next (raiseEncode e s) :=
  congrArg (answerEncode deliverOctets · s) h

theorem exec_encodeFSEID_of_ok {s : State} {x : FSEID} {o : Nat} {b : Bytes} (h : encodeFSEID x o = .ok b) :
    exec (.encodeFSEID x o) s = .next (deliverOctets b s) :=
  congrArg (answerEncode deliverOctets · s) h

theorem exec_encodeFSEID_of_error {s : State} {x : FSEID} {o : Nat} {e : Err} (h : encodeFSEID x o = .error e) :
    exec (.encodeFSEID x o) s = .next (raiseEncode e s) :=
  congrArg (answerEncode deliverOctets · s) h

theorem exec_encodeNodeID (n : NodeIdValue) (s : State) :
    exec (.encodeNodeID n) s = .next (deliverOctets (encodeNodeID n) s) := rfl

theorem encodeFTEID_of_inconsistent {f : FTEID} (hc : consistentFTEID f = false) (cfg : Cfg) (o : Nat) :
    encodeFTEID cfg f o = .error ⟨.inconsistentIEValue, o⟩ :=
  if_pos hc

theorem encodeFSEID_of_inconsistent {x : FSEID} (hc : consistentFSEID x = false) (o : Nat) :
    encodeFSEID x o = .error ⟨.inconsistentIEValue, o⟩ :=
  if_pos hc

/-- An F-TEID flags octet has no bit set away from the four positions (R91). -/
theorem getLsbD_fteidFlags_of_ne {p : FlagPos} {i : Nat} (h1 : i ≠ p.v4) (h2 : i ≠ p.v6) (h3 : i ≠ p.ch)
    (h4 : i ≠ p.chid) (v4 v6 ch chid : Bool) : (fteidFlags p v4 v6 ch chid).getLsbD i = false := by
  simp [getLsbD_fteidFlags, h1, h2, h3, h4]

/-- V4 is bit 1 and V6 bit 0 of the F-SEID flags octet, under six spare bits (R91). -/
theorem fseidFlags_eq_append (v4 v6 : Bool) : fseidFlags v4 v6 = 0#6 ++ BitVec.ofBool v4 ++ BitVec.ofBool v6 := by
  revert v4 v6; decide

/-- The node type stands under a zero spare nibble (R91, R189). -/
theorem setWidth_eq_zero_append (nt : BitVec 4) : nt.setWidth 8 = 0#4 ++ nt := by
  revert nt; decide

/-! ### When a value decoder raises (R177) -/

theorem ite_error_eq_error_iff {α : Type} {c : Prop} [Decidable c] {e₀ e : Err} {x : α} :
    (if c then Except.error e₀ else .ok x) = .error e ↔ c ∧ e = e₀ := by
  by_cases hc : c <;> simp [hc, eq_comm]

theorem decodeCause_eq_error_iff {v : Bytes} {off : Nat} {e : Err} :
    decodeCause v off = .error e ↔ v.length < 1 ∧ e = badLayout off :=
  ite_error_eq_error_iff

/-- Without an octet 0, or with fewer octets than its flags need: both checks raise the same error. -/
theorem decodeFTEID_eq_error_iff {cfg : Cfg} {v : Bytes} {off : Nat} {e : Err} :
    decodeFTEID cfg v off = .error e ↔
      (v.length < 1 ∨ v.length < needFTEID ((u8 v 0).getLsbD cfg.fteidFlagPos.v4)
        ((u8 v 0).getLsbD cfg.fteidFlagPos.v6) ((u8 v 0).getLsbD cfg.fteidFlagPos.ch)
        ((u8 v 0).getLsbD cfg.fteidFlagPos.chid)) ∧ e = badLayout off := by
  simp only [decodeFTEID, ← ite_or, ite_error_eq_error_iff]

theorem decodeFSEID_eq_error_iff {v : Bytes} {off : Nat} {e : Err} :
    decodeFSEID v off = .error e ↔
      (v.length < 1 ∨ v.length < needFSEID ((u8 v 0).getLsbD 1) ((u8 v 0).getLsbD 0)) ∧ e = badLayout off := by
  simp only [decodeFSEID, ← ite_or, ite_error_eq_error_iff]
  rfl

theorem decodeNodeIdV4_eq_error_iff {v : Bytes} {off : Nat} {e : Err} :
    decodeNodeIdV4 v off = .error e ↔ v.length < 5 ∧ e = badLayout off :=
  ite_error_eq_error_iff

theorem decodeNodeIdV6_eq_error_iff {v : Bytes} {off : Nat} {e : Err} :
    decodeNodeIdV6 v off = .error e ↔ v.length < 17 ∧ e = badLayout off :=
  ite_error_eq_error_iff

theorem decodeNodeIdFQDN_eq_error_iff {v : Bytes} {off : Nat} {e : Err} :
    decodeNodeIdFQDN v off = .error e ↔ v.length < 1 ∧ e = badLayout off :=
  ite_error_eq_error_iff

theorem decodeNodeIdOther_eq_error_iff {t : OtherType} {v : Bytes} {off : Nat} {e : Err} :
    decodeNodeIdOther t v off = .error e ↔ v.length < 1 ∧ e = badLayout off :=
  ite_error_eq_error_iff

/-- An unlisted node type is none of the address types (R93). -/
theorem OtherType.code_ne_address (t : OtherType) : t.code ≠ 0#4 ∧ t.code ≠ 1#4 := by
  have hlisted := t.listed
  constructor <;> bv_omega

/-- Only the address forms need octets behind octet 0 (R188). -/
theorem decodeNodeID_eq_error_iff {v : Bytes} {off : Nat} {e : Err} :
    decodeNodeID v off = .error e ↔
      (v.length < 1 ∨ (nodeNibble (u8 v 0) = 0#4 ∧ v.length < 5) ∨ (nodeNibble (u8 v 0) = 1#4 ∧ v.length < 17)) ∧
        e = badLayout off := by
  by_cases hlen : v.length < 1
  · simp [decodeNodeID, hlen, eq_comm]
  obtain ⟨hv4, hv6, hfqdn⟩ := nodeForm_eq_listed (nodeNibble (u8 v 0))
  rw [decodeNodeID, if_neg hlen]
  split
  next hform => simp [decodeNodeIdV4_eq_error_iff, ← hv4 hform, hlen]
  next hform => simp [decodeNodeIdV6_eq_error_iff, ← hv6 hform, hlen]
  next hform => simp [decodeNodeIdFQDN_eq_error_iff, ← hfqdn hform, hlen]
  next t hform =>
    obtain ⟨h0, h1⟩ := OtherType.code_ne_address t
    simp [decodeNodeIdOther_eq_error_iff, ← nodeForm_eq_other hform, h0, h1, hlen]

/-- A decode-side row hands its decoder's error to `raise`. -/
theorem answerDecode_of_error {α : Type} {r : Except Err α} {e : Err} (h : r = .error e) (ok : α → State → State)
    (s : State) : answerDecode ok r s = .next (raise e s) :=
  congrArg (answerDecode ok · s) h

/-! ### The obligations -/

/-- Settles O31: the encoder writes the flags octet before the fields, each flag reads back at its own position, and no
bit is set elsewhere. -/
theorem encodeFTEIDResult : Obligations.EncodeFTEIDResult := by
  intro s f o hp
  constructor
  · intro hc
    have hok := (encodeFTEID_ok_iff_eq (cfg := s.cfg) (o := o)).mpr ⟨hc, rfl⟩
    obtain ⟨hv4, hv6, hch, hchid⟩ := fteidFlags_bits hp f.v4 f.v6 f.ch f.chid
    exact ⟨_, fteidBody f, exec_encodeFTEID_of_ok hok, rfl, encodeFTEID_length hok, hv4, hv6, hch, hchid,
      fun i h1 h2 h3 h4 => getLsbD_fteidFlags_of_ne h1 h2 h3 h4 ..⟩
  · intro hc
    exact ⟨_, exec_encodeFTEID_of_error (encodeFTEID_of_inconsistent hc s.cfg o), rfl, rfl, rfl, rfl⟩

/-- Settles O35: the encoder writes the flags octet before the fields, `need` octets and the tail. -/
theorem encodeFSEIDResult : Obligations.EncodeFSEIDResult := by
  intro s f o
  constructor
  · intro hc
    have hok := (encodeFSEID_ok_iff_eq (o := o)).mpr ⟨hc, rfl⟩
    have hlen := encodeFSEID_length hok
    rw [List.length_cons, Nat.add_comm, needFSEID] at hlen
    rw [fseidFlags_eq_append] at hok
    exact ⟨fseidBody f, exec_encodeFSEID_of_ok hok, rfl, hlen⟩
  · intro hc
    exact ⟨_, exec_encodeFSEID_of_error (encodeFSEID_of_inconsistent hc o), rfl, rfl, rfl, rfl⟩

/-- Settles O36: each decoder's checks come before its `Ok` value and all raise the layout error, which a row hands on. -/
theorem layoutErrorExactlyWhenShort : Obligations.LayoutErrorExactlyWhenShort := by
  refine ⟨by decide, fun cfg v off e => ⟨decodeCause_eq_error_iff, decodeFTEID_eq_error_iff,
    decodeNodeID_eq_error_iff, decodeFSEID_eq_error_iff⟩, fun s v off i hshort => ?_⟩
  have hraise : exec i s = .next (raise (badLayout off) s) := by
    obtain ⟨rfl, h⟩ | ⟨rfl, h⟩ | ⟨rfl, h⟩ | ⟨rfl, h⟩ | ⟨rfl, -, h⟩ | ⟨rfl, -, h⟩ := hshort
    · exact answerDecode_of_error (decodeCause_eq_error_iff.mpr ⟨h, rfl⟩) _ s
    · exact answerDecode_of_error (decodeFTEID_eq_error_iff.mpr ⟨h, rfl⟩) _ s
    · exact answerDecode_of_error (decodeNodeID_eq_error_iff.mpr ⟨h, rfl⟩) _ s
    · exact answerDecode_of_error (decodeFSEID_eq_error_iff.mpr ⟨h, rfl⟩) _ s
    · exact answerDecode_of_error (decodeNodeIdV4_eq_error_iff.mpr ⟨h, rfl⟩) _ s
    · exact answerDecode_of_error (decodeNodeIdV6_eq_error_iff.mpr ⟨h, rfl⟩) _ s
  exact ⟨_, hraise, rfl, rfl, rfl, rfl, rfl, rfl, rfl⟩

/-- Settles O33: the encoder's equation for each form; an unlisted type is widened by the zero spare nibble. -/
theorem encodeNodeIDResult : Obligations.EncodeNodeIDResult := by
  intro s a4 a6 nt tail
  refine ⟨rfl, rfl, rfl, ?_, fun n => ⟨_, exec_encodeNodeID n s, encodeNodeID_length n⟩⟩
  rw [exec_encodeNodeID, encodeNodeID_eq, nodeIdType, setWidth_eq_zero_append]
  rfl

end Sys2Proof.Machine
end

section
/-! The two top-level operations (`spec/45_codec_top.md` R221 to R231): what DECODE and ENCODE deliver as one equivalence
each over the header and the list, the sizes of what is decoded, and the round trips of a whole message. -/

namespace Sys2Proof.Machine

/-! ### The commands over the pure functions -/

section Commands

variable {s t : State} (hrun : s.phase = .run)
include hrun

theorem exec_decode_of_ok {input : Bytes} {r : DecodeOk} (h : decodeMessage s.cfg s.registry input = .ok r) :
    exec (.decode input) s = .next (complete (.decoded r) ⟨0, r.uv, r.uk, 0⟩ (unspecifyWork s)) :=
  (execDecode_run hrun input).trans (by rw [h])

theorem exec_decode_of_error {input : Bytes} {e : Err} (h : decodeMessage s.cfg s.registry input = .error e) :
    exec (.decode input) s = .next (raise e s) :=
  (execDecode_run hrun input).trans (by rw [h])

theorem exec_encode_of_ok {m : Message} {out : Bytes} (h : encodeMessage s.cfg s.registry m = .ok out) :
    exec (.encode m) s = .next (complete (.encoded out) Status.zero (unspecifyWork { s with out := out })) :=
  (execEncode_run hrun m).trans (by rw [h])

theorem exec_encode_of_error {m : Message} {e : Err} (h : encodeMessage s.cfg s.registry m = .error e) :
    exec (.encode m) s = .next (raiseEncode e s) :=
  (execEncode_run hrun m).trans (by rw [h])

/-- A DECODE that delivers a Message had it from the pure function, and its STATUS is zero but for the report flags. -/
theorem decodeMessage_of_exec_decode {input : Bytes} {r : DecodeOk} (h : exec (.decode input) s = .next t)
    (hr : t.result = .decoded r) :
    decodeMessage s.cfg s.registry input = .ok r ∧ t.status = ⟨0, r.uv, r.uk, 0⟩ := by
  cases hd : decodeMessage s.cfg s.registry input with
  | error e =>
    cases (exec_decode_of_error hrun hd).symm.trans h
    cases hr
  | ok r' =>
    cases (exec_decode_of_ok hrun hd).symm.trans h
    cases hr
    exact ⟨rfl, rfl⟩

/-- An ENCODE that delivers octets had them from the pure function. -/
theorem encodeMessage_of_exec_encode {m : Message} {out : Bytes} (h : exec (.encode m) s = .next t)
    (hr : t.result = .encoded out) : encodeMessage s.cfg s.registry m = .ok out := by
  cases he : encodeMessage s.cfg s.registry m with
  | error e =>
    cases (exec_encode_of_error hrun he).symm.trans h
    cases hr
  | ok out' =>
    cases (exec_encode_of_ok hrun he).symm.trans h
    cases hr
    rfl

end Commands

/-! ### The pure functions, over the header and the list (R221, R224) -/

/-- What a DECODE delivers beside the Message and the length it read (R221). -/
def decodedResult (cfg : Cfg) (m : Message) (length : BitVec 16) : DecodeOk where
  msg := m
  length := length
  kind := messageKind cfg m
  consumed := 4 + length.toNat
  uv := reportUV cfg m.hdr.version
  uk := reportUK (messageKind cfg m)

theorem decodeMessage_ok_iff {cfg : Cfg} {reg : Registry} {input : Bytes} {r : DecodeOk} :
    decodeMessage cfg reg input = .ok r ↔
      ∃ d ies, decodeHeader input = .ok d ∧ d.size - 4 ≤ d.length.toNat ∧
        decodeIEList cfg reg (input.drop d.size) (d.length.toNat - (d.size - 4)) 0 d.size = .ok ies ∧
        r = decodedResult cfg ⟨d.hdr, ies⟩ d.length := by
  rw [decodeMessage]
  constructor
  · intro h
    split at h
    · cases h
    next d hd =>
    simp only at h
    split at h
    · cases h
    next hlength =>
    split at h
    · cases h
    next ies hies =>
    cases h
    exact ⟨d, ies, hd, by omega, hies, rfl⟩
  · rintro ⟨d, ies, hd, hlength, hies, rfl⟩
    rw [hd]
    simp only
    rw [if_neg (by omega), hies]
    rfl

theorem encodeMessage_ok_iff {cfg : Cfg} {reg : Registry} {m : Message} {out : Bytes} :
    encodeMessage cfg reg m = .ok out ↔
      ∃ body, encodeIEList cfg reg m.ies 0 (headerSize m.hdr) = .ok body ∧ headerRest m.hdr + body.length ≤ 65535 ∧
        out = encodeHeader m.hdr (BitVec.ofNat 16 (headerRest m.hdr + body.length)) ++ body := by
  rw [encodeMessage]
  constructor
  · intro h
    simp only at h
    split at h
    · cases h
    next body hbody =>
    split at h
    · cases h
    next hlength =>
    cases h
    exact ⟨body, hbody, Nat.le_of_not_lt hlength, rfl⟩
  · rintro ⟨body, hbody, hlength, rfl⟩
    simp only [hbody]
    exact if_neg (Nat.not_lt.mpr hlength)

theorem headerSize_eq (h : Header) : headerSize h = 4 + headerRest h := by
  unfold headerRest headerSize
  split <;> rfl

/-- The length field holds what it counts, if that fits. -/
theorem toNat_ofNat_length {n : Nat} (h : n ≤ 65535) : (BitVec.ofNat 16 n).toNat = n :=
  Nat.mod_eq_of_lt (by omega)

/-- Both shapes have the length field in octets 2 and 3 (R80, R81). -/
theorem length_of_decodeHeader {b : Bytes} {d : DecodedHeader} (h : decodeHeader b = .ok d) : d.length = u16 b 2 := by
  obtain ⟨-, -, rfl⟩ | ⟨-, -, rfl⟩ := decodeHeader_ok_cases h
  · rfl
  · rfl

/-! ### When a Message encodes (R229) -/

/-- Whether an encoded value fits the length field of its IE is a matter of `ValueSize` (R148). -/
theorem encodeValueAt_fits_iff (cfg : Cfg) (reg : Registry) (t : BitVec 16) (v : Value) (depth o : Nat) :
    (∃ b, encodeValueAt cfg reg t v depth o = .ok b ∧ b.length ≤ 65535) ↔
      (∃ b, encodeValueAt cfg reg t v depth o = .ok b) ∧ valueSize v ≤ 65535 := by
  constructor
  · rintro ⟨b, hb, hlen⟩
    exact ⟨⟨b, hb⟩, encodeValueAt_length cfg reg t v depth o b hb ▸ hlen⟩
  · rintro ⟨⟨b, hb⟩, hlen⟩
    exact ⟨b, hb, (encodeValueAt_length cfg reg t v depth o b hb).symm ▸ hlen⟩

mutual

/-- A value encodes, within the length field of its IE, exactly under the conditions of R229. -/
theorem exists_encodeValueAt_iff (cfg : Cfg) (reg : Registry) (t : BitVec 16) (v : Value) (depth o : Nat) :
    (∃ b, encodeValueAt cfg reg t v depth o = .ok b ∧ b.length ≤ 65535) ↔ encodableValue cfg reg t v depth = true := by
  rw [encodeValueAt_fits_iff, encodeValueAt.eq_def, encodableValue.eq_def]
  by_cases hvariant : variantOf v = reg.kindAt t
  case neg => simp [hvariant]
  simp only [hvariant, ne_eq, not_true_eq_false, if_false, beq_self_eq_true, Bool.true_and, Bool.and_eq_true,
    decide_eq_true_eq, and_comm (a := ∃ _, _)]
  refine and_congr_right fun _ => ?_
  cases v with
  | unrecognized raw => simp
  | cause c => simp
  | fteid f => exact encodeFTEID_ok_iff cfg f o
  | nodeId n => simp
  | fseid x => exact encodeFSEID_ok_iff x o
  | grouped children =>
    by_cases hdepth : depth < cfg.maxDepth
    · simp only [if_neg (show ¬ cfg.maxDepth < depth + 1 by omega), hdepth, decide_true, Bool.true_and]
      exact exists_encodeIEList_iff cfg reg children (depth + 1) (o + 4)
    · simp [hdepth, show cfg.maxDepth < depth + 1 by omega]

/-- A list encodes exactly if every IE in it does. -/
theorem exists_encodeIEList_iff (cfg : Cfg) (reg : Registry) (ies : IEList) (depth off : Nat) :
    (∃ b, encodeIEList cfg reg ies depth off = .ok b) ↔ encodableList cfg reg ies depth = true := by
  cases ies with
  | nil => simp [encodeIEList, encodableList]
  | cons t v rest =>
    rw [encodableList, Bool.and_eq_true]
    have hvalue := exists_encodeValueAt_iff cfg reg t v depth off
    have hrest := exists_encodeIEList_iff cfg reg rest depth
    constructor
    · rintro ⟨_, h⟩
      obtain ⟨vb, rb, hvb, hlen, hrb, -⟩ := encodeIEList_cons_ok_iff.mp h
      exact ⟨hvalue.mp ⟨vb, hvb, hlen⟩, (hrest _).mp ⟨rb, hrb⟩⟩
    · rintro ⟨hv, hr⟩
      obtain ⟨vb, hvb, hlen⟩ := hvalue.mpr hv
      obtain ⟨rb, hrb⟩ := (hrest (off + 4 + vb.length)).mpr hr
      exact ⟨_, encodeIEList_cons_ok_iff.mpr ⟨vb, rb, hvb, hlen, hrb, rfl⟩⟩

end

theorem exists_encodeMessage_iff (cfg : Cfg) (reg : Registry) (m : Message) :
    (∃ out, encodeMessage cfg reg m = .ok out) ↔ encodable cfg reg m = true := by
  rw [encodable, Bool.and_eq_true, decide_eq_true_eq, ← exists_encodeIEList_iff cfg reg m.ies 0 (headerSize m.hdr),
    msgLength]
  simp only [encodeMessage_ok_iff]
  constructor
  · rintro ⟨_, body, hbody, hlength, -⟩
    exact ⟨⟨body, hbody⟩, encodeIEList_length cfg reg m.ies 0 _ body hbody ▸ hlength⟩
  · rintro ⟨⟨body, hbody⟩, hlength⟩
    exact ⟨_, body, hbody, (encodeIEList_length cfg reg m.ies 0 _ body hbody).symm ▸ hlength, rfl⟩

/-! ### The size of what is decoded (R148) -/

/-- A decoded F-TEID has the size of its octets, whatever the flag positions are. -/
theorem valueSize_of_decodeFTEID {cfg : Cfg} {v : Bytes} {ieOff : Nat} {f : FTEID}
    (h : decodeFTEID cfg v ieOff = .ok f) : valueSize (.fteid f) = v.length := by
  cases v with
  | nil => cases h
  | cons x body =>
    obtain ⟨hc, -, -, -, -, rfl⟩ := decodeFTEID_cons_ok_iff.mp h
    have hsize := encodeFTEID_length ((encodeFTEID_ok_iff_eq (cfg := cfg) (o := ieOff)).mpr ⟨hc, rfl⟩)
    rw [valueSize, ← hsize]
    rfl

theorem valueSize_of_decodeFSEID {v : Bytes} {ieOff : Nat} {f : FSEID} (h : decodeFSEID v ieOff = .ok f) :
    valueSize (.fseid f) = v.length := by
  rw [valueSize, ← encodeFSEID_length (encodeFSEID_of_decodeFSEID h ieOff), clearOctet0_length]

theorem valueSize_of_decodeNodeID {v : Bytes} {ieOff : Nat} {n : NodeIdValue} (h : decodeNodeID v ieOff = .ok n) :
    valueSize (.nodeId n) = v.length := by
  rw [valueSize, ← encodeNodeID_length, encodeNodeID_of_decodeNodeID h, clearOctet0_length]

theorem valueSize_of_decodeCause {v : Bytes} {ieOff : Nat} {c : CauseValue} (h : decodeCause v ieOff = .ok c) :
    valueSize (.cause c) = v.length := by
  rw [valueSize, ← encodeCause_length, encodeCause_of_decodeCause h]

/-- A decoded value has the size of its octets, if a list inside a grouped one has. -/
theorem valueSize_of_decodeValue {cfg : Cfg} {reg : Registry} {x : IE} {v : Bytes} {depth ieOff : Nat}
    (hlist : ∀ children, decodeIEList cfg reg v v.length (depth + 1) (ieOff + 4) = .ok children →
      listSize children = v.length)
    (h : decodeValue cfg reg x.type v depth ieOff = .ok x) : valueSize x.value = v.length := by
  obtain ⟨t, y⟩ := x
  obtain ⟨-, hy⟩ := decodeValue_ok_iff.mp h
  simp only at hy ⊢
  unfold decodeValueWith at hy
  split at hy
  · cases hy
    rw [valueSize]
  · obtain ⟨c, hc, rfl⟩ := exceptMap_eq_ok hy
    exact valueSize_of_decodeCause hc
  · obtain ⟨f, hf, rfl⟩ := exceptMap_eq_ok hy
    exact valueSize_of_decodeFTEID hf
  · obtain ⟨n, hn, rfl⟩ := exceptMap_eq_ok hy
    exact valueSize_of_decodeNodeID hn
  · obtain ⟨f, hf, rfl⟩ := exceptMap_eq_ok hy
    exact valueSize_of_decodeFSEID hf
  · obtain ⟨children, hc, rfl⟩ := exceptMap_eq_ok hy
    unfold decodeGroupedWith at hc
    split at hc
    · cases hc
    · exact hlist children hc

/-- A list that decodes fills its window, which lies inside the byte string (R143, R148). -/
theorem listSize_of_decodeIEList {cfg : Cfg} {reg : Registry} (total : Nat) :
    ∀ (b : Bytes) (depth base : Nat) (ies : IEList), decodeIEList cfg reg b total depth base = .ok ies →
      listSize ies = total ∧ total ≤ b.length := by
  induction total using Nat.strongRecOn with
  | ind total ih =>
    intro b depth base ies h
    by_cases h0 : total = 0
    · subst h0
      cases h
      exact ⟨rfl, Nat.zero_le _⟩
    obtain ⟨x, v, tail, total', rest, rfl, hv, rfl, rfl, hx, hrest⟩ := decodeIEList_ok_cases h0 h
    have hvalue : valueSize x.value = v.length :=
      valueSize_of_decodeValue (fun children hc => (ih v.length (by omega) v _ _ children hc).1) hx
    obtain ⟨hsize, hle⟩ := ih total' (by omega) tail _ _ rest hrest
    rw [listSize, hvalue, hsize, List.length_append, ieOctets_length]
    exact ⟨rfl, by omega⟩

/-! ### The length of a message (R225) -/

/-- `MsgLength` counts the octets behind octet 3 (R148, R224). -/
theorem length_of_encodeMessage {cfg : Cfg} {reg : Registry} {m : Message} {out : Bytes}
    (h : encodeMessage cfg reg m = .ok out) : out.length = 4 + msgLength m := by
  obtain ⟨body, hbody, -, rfl⟩ := encodeMessage_ok_iff.mp h
  rw [List.length_append, encodeHeader_length, headerSize_eq, msgLength,
    encodeIEList_length cfg reg m.ies 0 _ body hbody]
  omega

/-- The length that is written fits its field, so it reads back. -/
theorem u16_of_encodeMessage {cfg : Cfg} {reg : Registry} {m : Message} {out : Bytes}
    (h : encodeMessage cfg reg m = .ok out) : (u16 out 2).toNat = msgLength m := by
  obtain ⟨body, hbody, hlength, rfl⟩ := encodeMessage_ok_iff.mp h
  rw [← length_of_decodeHeader (decodeHeader_encodeHeader m.hdr _ body), toNat_ofNat_length hlength, msgLength,
    encodeIEList_length cfg reg m.ies 0 _ body hbody]

/-- The length that is read counts the list that was decoded from its window. -/
theorem length_of_decodeMessage {cfg : Cfg} {reg : Registry} {input : Bytes} {r : DecodeOk}
    (h : decodeMessage cfg reg input = .ok r) : r.length.toNat = msgLength r.msg ∧ r.consumed = 4 + msgLength r.msg := by
  obtain ⟨d, ies, hd, hlength, hies, rfl⟩ := decodeMessage_ok_iff.mp h
  obtain ⟨hsize, -, -⟩ := decodeHeader_size hd
  obtain ⟨hlist, -⟩ := listSize_of_decodeIEList _ _ _ _ _ hies
  have hmsg : d.length.toNat = msgLength ⟨d.hdr, ies⟩ := by
    rw [msgLength, headerRest, ← hsize, hlist]
    omega
  exact ⟨hmsg, congrArg (4 + ·) hmsg⟩

/-! ### Round trips of a message (R226 to R228) -/

/-- R226, decoding what was encoded. -/
theorem decodeMessage_of_encodeMessage {cfg : Cfg} (hp : cfg.fteidFlagPos.injective = true) {reg : Registry}
    {m : Message} {out : Bytes} (h : encodeMessage cfg reg m = .ok out) :
    decodeMessage cfg reg out = .ok (decodedResult cfg m (BitVec.ofNat 16 (out.length - 4))) := by
  obtain ⟨body, hbody, hlength, rfl⟩ := encodeMessage_ok_iff.mp h
  have hsize := headerSize_eq m.hdr
  have hlist := decodeIEList_of_encodeIEList hp reg m.ies 0 _ (headerSize m.hdr) body [] hbody
  rw [List.append_nil] at hlist
  have hcount : (encodeHeader m.hdr (BitVec.ofNat 16 (headerRest m.hdr + body.length)) ++ body).length - 4 =
      headerRest m.hdr + body.length := by
    rw [List.length_append, encodeHeader_length]
    omega
  refine decodeMessage_ok_iff.mpr ⟨_, m.ies, decodeHeader_encodeHeader m.hdr _ body, ?_, ?_, by rw [hcount]⟩
  · rw [toNat_ofNat_length hlength]
    exact Nat.le_add_right ..
  · rw [toNat_ofNat_length hlength, List.drop_left' (encodeHeader_length _ _),
      show headerRest m.hdr + body.length - (headerSize m.hdr - 4) = body.length by omega]
    exact hlist

/-- The spare bits of a message are those of its header and those of its list (R228). -/
theorem clearSpare_take (reg : Registry) {b : Bytes} {d : DecodedHeader} (h : decodeHeader b = .ok d) (n : Nat) :
    clearSpare reg (b.take (d.size + n)) =
      clearSpare [] (b.take d.size) ++ clearListFuel reg (b.take (d.size + n)).length ((b.drop d.size).take n) := by
  obtain ⟨hS, -, rfl⟩ | ⟨hS, -, rfl⟩ := decodeHeader_ok_cases h
  · have h7 : min 7 (8 + n) = 7 := by omega
    rw [show (nodeHeaderFields b).size = 8 from rfl, clearSpare_take_node [] hS, clearSpare,
      selectS_take b (by omega), hS]
    simp [List.take_take, List.drop_take, h7]
  · have h15 : min 15 (16 + n) = 15 := by omega
    rw [show (sessionHeaderFields b).size = 16 from rfl, clearSpare_take_session [] hS, clearSpare,
      selectS_take b (by omega), hS]
    simp [List.take_take, List.drop_take, h15, u8_take b (show 15 + 1 ≤ 16 + n by omega)]

/-- R227, encoding what was decoded: the length ENCODE counts is the one DECODE read, so the header is that of the
buffer. -/
theorem encodeMessage_of_decodeMessage {cfg : Cfg} (hp : cfg.fteidFlagPos.injective = true) {reg : Registry}
    {input : Bytes} {r : DecodeOk} (h : decodeMessage cfg reg input = .ok r) :
    encodeMessage cfg reg r.msg = .ok (clearSpare reg (input.take r.consumed)) := by
  obtain ⟨d, ies, hd, hlength, hies, rfl⟩ := decodeMessage_ok_iff.mp h
  obtain ⟨hsize, hheader, -⟩ := decodeHeader_size hd
  have hrest := headerSize_eq d.hdr
  have hmax : d.length.toNat ≤ 65535 := by have := d.length.isLt; omega
  obtain ⟨-, hwindow⟩ := listSize_of_decodeIEList _ _ _ _ _ hies
  rw [List.length_drop] at hwindow
  generalize htotal : d.length.toNat - (d.size - 4) = total at hies hwindow
  have hconsumed : (decodedResult cfg ⟨d.hdr, ies⟩ d.length).consumed = d.size + total := by
    change 4 + d.length.toNat = _
    omega
  have htake : total ≤ (input.take (d.size + total)).length := by rw [List.length_take]; omega
  have hbody := encodeIEList_of_decodeIEList hp reg _ _ total 0 d.size (headerSize d.hdr) ies htake hies
  have hlen : headerRest d.hdr +
      (clearListFuel reg (input.take (d.size + total)).length ((input.drop d.size).take total)).length =
      d.length.toNat := by
    rw [clearListFuel_length, List.length_take, List.length_drop]
    omega
  refine encodeMessage_ok_iff.mpr ⟨_, hbody, hlen ▸ hmax, ?_⟩
  rw [hconsumed, clearSpare_take reg hd, ← encodeHeader_of_decodeHeader hd]
  simp only [hlen, decodedResult, BitVec.ofNat_toNat, BitVec.setWidth_eq]

/-! ### Version and message type (R26, R231) -/

/-- The same header with another version and another message type. -/
def relabel (version : BitVec 3) (messageType : BitVec 8) (h : Header) : Header :=
  { h with version := version, messageType := messageType }

/-- Beyond S and MP, octets 0 and 1 hold the version and the message type alone, so a header with other values there is
read as the same header but for these two fields. -/
theorem decodeHeader_relabel {b0 mt b0' mt' : Byte} {rest : Bytes} {d : DecodedHeader} (hS : hdrS b0' = hdrS b0)
    (hMP : hdrMP b0' = hdrMP b0) (h : decodeHeader (b0 :: mt :: rest) = .ok d) :
    decodeHeader (b0' :: mt' :: rest) = .ok { d with hdr := relabel (hdrVersion b0') mt' d.hdr } := by
  have hselect : selectS (b0' :: mt' :: rest) = selectS (b0 :: mt :: rest) := by rw [selectS_cons, selectS_cons, hS]
  have hu1 : ∀ x y : Byte, u8 (x :: y :: rest) 1 = y := fun x y => u8_append_cons [x] y rest
  obtain ⟨hnode, hlen, rfl⟩ | ⟨hsession, hlen, rfl⟩ := decodeHeader_ok_cases h
  · replace hlen : 8 ≤ (b0' :: mt' :: rest).length := hlen
    rw [decodeHeader_of_node (hselect.trans hnode), if_neg (Nat.not_lt.mpr hlen)]
    simp only [nodeHeaderFields, relabel, u8_cons_zero, hu1, hMP]
    rfl
  · replace hlen : 16 ≤ (b0' :: mt' :: rest).length := hlen
    rw [decodeHeader_of_session (hselect.trans hsession), if_neg (Nat.not_lt.mpr hlen)]
    simp only [sessionHeaderFields, relabel, u8_cons_zero, hu1, hMP]
    rfl

theorem drop_cons_cons_congr {x y x' y' : Byte} {rest : Bytes} {n : Nat} (h : 2 ≤ n) :
    (x :: y :: rest).drop n = (x' :: y' :: rest).drop n := by
  obtain ⟨k, rfl⟩ := Nat.exists_eq_add_of_le' h
  rfl

/-- The list behind the header is read the same whatever version and message type are (R231). -/
theorem decodeMessage_relabel {cfg : Cfg} {reg : Registry} {b0 mt b0' mt' : Byte} {rest : Bytes} {r : DecodeOk}
    (hS : hdrS b0' = hdrS b0) (hMP : hdrMP b0' = hdrMP b0)
    (h : decodeMessage cfg reg (b0 :: mt :: rest) = .ok r) :
    decodeMessage cfg reg (b0' :: mt' :: rest) =
      .ok (decodedResult cfg { r.msg with hdr := relabel (hdrVersion b0') mt' r.msg.hdr } r.length) := by
  obtain ⟨d, ies, hd, hlength, hies, rfl⟩ := decodeMessage_ok_iff.mp h
  obtain ⟨-, -, hsize⟩ := decodeHeader_size hd
  rw [drop_cons_cons_congr (x' := b0') (y' := mt') (show 2 ≤ d.size by omega)] at hies
  exact decodeMessage_ok_iff.mpr ⟨_, ies, decodeHeader_relabel hS hMP hd, hlength, hies, rfl⟩

/-! ### The obligations -/

/-- Settles O51: the header reads back what was written, and the list behind it, whose octets its length counts, decodes
to the list encoded. -/
theorem decodeUndoesEncode : Obligations.DecodeUndoesEncode := by
  intro s t s' m out hp hrun h hr hrun' hcfg hreg
  have hencode := encodeMessage_of_exec_encode hrun h hr
  have hdecode := decodeMessage_of_encodeMessage hp hencode
  have hconsumed := (length_of_decodeMessage hdecode).2.trans (length_of_encodeMessage hencode).symm
  rw [← hcfg, ← hreg] at hdecode
  rw [← hcfg]
  refine ⟨_, _, exec_decode_of_ok hrun' hdecode, rfl, ?_, rfl, rfl, rfl, rfl, rfl, rfl⟩
  exact congrArg (fun n => CmdResult.decoded { decodedResult s'.cfg m _ with consumed := n }) hconsumed

/-- Settles O52: a message that decodes is canonical up to the spare bits that the encoder clears. -/
theorem encodeUndoesDecode : Obligations.EncodeUndoesDecode := by
  intro s t input r hp hrun h hr
  obtain ⟨hdecode, -⟩ := decodeMessage_of_exec_decode hrun h hr
  have hencode := encodeMessage_of_decodeMessage hp hdecode
  have hlen := (length_of_encodeMessage hencode).trans (length_of_decodeMessage hdecode).2.symm
  refine ⟨_, _, exec_encode_of_ok hrun hencode, rfl, hlen, rfl, ?_⟩
  rw [canonical, beq_iff_eq]
  constructor
  · intro heq
    rw [heq] at hlen
    rw [heq, List.take_of_length_le hlen.le]
    exact ⟨rfl, hlen⟩
  · rintro ⟨hcanonical, hinput⟩
    rw [hcanonical, List.take_of_length_le hinput.le]

/-- Settles O50: by induction on the list, IE by IE. -/
theorem encodeSucceedsExactly : Obligations.EncodeSucceedsExactly := by
  intro s m hrun
  rw [← exists_encodeMessage_iff]
  refine ⟨⟨?_, ?_⟩, ?_⟩
  · rintro ⟨t, out, h, hr⟩
    exact ⟨out, encodeMessage_of_exec_encode hrun h hr⟩
  · rintro ⟨out, hout⟩
    exact ⟨_, out, exec_encode_of_ok hrun hout, rfl⟩
  · rintro ⟨out, hout⟩
    exact ⟨_, out, exec_encode_of_ok hrun hout, rfl, rfl, rfl, rfl, rfl, rfl, rfl⟩

/-- Settles O53: an encoded message has the size R148 counts, and a list that decodes fills its window. -/
theorem headerLengthInvariant : Obligations.HeaderLengthInvariant := by
  refine ⟨fun s t m out hrun h hr => ?_, fun s t input r hrun h hr => ?_⟩
  · have hencode := encodeMessage_of_exec_encode hrun h hr
    rw [u16_of_encodeMessage hencode, length_of_encodeMessage hencode]
    omega
  · exact (length_of_decodeMessage (decodeMessage_of_exec_decode hrun h hr).1).1

/-- Settles O56: octets 0 and 1 reach the version and the message type alone, and no check reads these. -/
theorem reportsDoNotStopDecode : Obligations.ReportsDoNotStopDecode := by
  intro s t b0 mt rest r hrun h hr
  obtain ⟨hdecode, hstatus⟩ := decodeMessage_of_exec_decode hrun h hr
  obtain ⟨d, ies, -, -, -, rfl⟩ := decodeMessage_ok_iff.mp hdecode
  refine ⟨rfl, rfl, hstatus, fun b0' mt' hS hMP => ?_⟩
  exact ⟨_, _, exec_decode_of_ok hrun (decodeMessage_relabel hS hMP hdecode), rfl, rfl, rfl, rfl⟩

end Sys2Proof.Machine
end

section
/-! What an instruction can do, said once by instruction (`spec/60_exceptions.md` R246, R248): `Effect` of
`Laws/Exec.lean` lists the next states, `InstrEffect` says which instruction can answer which of them. The rules over all
instructions and over all steps follow by cases on it. -/

namespace Sys2Proof.Machine

/-! ### Internal operations run by themselves (R16, R246) -/

/-- What an internal operation that leaves `OUT` alone can do: hand its value over, or raise. -/
inductive LocalEffect (s : State) : State → Prop where
  | delivered (b : Bus) : LocalEffect s (deliver b s)
  | deliveredAt (b : Bus) (v : Nat) : LocalEffect s (setCur v (deliver b s))
  | raised (e : Err) : LocalEffect s (raise e s)

/-- What an internal operation can do: on the encode side an error reaches `OUT` as well (R60). -/
def InternalEffect (s t : State) : Prop := LocalEffect s t ∨ ∃ e, t = raiseEncode e s

/-- The rows below DECODE: those of the header, the list, the values and the Node ID sub-formats, on decode. -/
def isDecodeRow : Instr → Bool
  | .decodeHdrNode _ | .decodeHdrSession _ | .decodeIEList _ _ _ _ | .decodeValue _ _ _ _ | .decodeCause _ _
  | .decodeFTEID _ _ | .decodeNodeID _ _ | .decodeFSEID _ _ | .decodeGroupedCreatePDR _ _ _ | .decodeGroupedPDI _ _ _
  | .decodeUnrecognized _ | .nodeIdV4 _ _ | .nodeIdV6 _ _ | .nodeIdFQDN _ _ | .nodeIdOther _ _ _ => true
  | _ => false

section Answers

variable {α : Type} {ok : α → State → State} {r : Except Err α} {s t : State}

theorem answerDecode_localEffect (h : answerDecode ok r s = .next t) (hok : ∀ x, LocalEffect s (ok x s)) :
    LocalEffect s t := by
  cases r with
  | error e => cases h; exact .raised e
  | ok x => cases h; exact hok x

theorem answerEncode_internalEffect (h : answerEncode ok r s = .next t) (hok : ∀ x, LocalEffect s (ok x s)) :
    InternalEffect s t := by
  cases r with
  | error e => cases h; exact .inr ⟨e, rfl⟩
  | ok x => cases h; exact .inl (hok x)

end Answers

theorem deliverIE_localEffect (stop : Nat) (x : IE) (s : State) : LocalEffect s (deliverIE stop x s) := by
  obtain h | h := deliverIE_eq stop x s
  · rw [h]; exact .deliveredAt _ _
  · rw [h]; exact .delivered _

theorem exec_decodeRow_effect {i : Instr} {s t : State} (hi : isDecodeRow i = true) (h : exec i s = .next t) :
    LocalEffect s t := by
  cases i with
  | decodeHdrNode | decodeHdrSession | decodeIEList | decodeGroupedCreatePDR | decodeGroupedPDI =>
    exact answerDecode_localEffect h fun _ => .deliveredAt _ _
  | decodeValue => exact answerDecode_localEffect h fun x => deliverIE_localEffect _ x s
  | decodeCause | decodeFTEID | decodeNodeID | decodeFSEID | nodeIdV4 | nodeIdV6 | nodeIdFQDN | nodeIdOther =>
    exact answerDecode_localEffect h fun _ => .delivered _
  | decodeUnrecognized => cases h; exact .delivered _
  | _ => cases hi

theorem exec_internal_effect {i : Instr} {s t : State} (hi : isCommand i = false) (h : exec i s = .next t) :
    InternalEffect s t := by
  cases i with
  | nop | regWrite | regLock | decode | encode | classify | reservedCmd6 | reservedCmd7 => cases hi
  | decodeHdrNode | decodeHdrSession | decodeIEList | decodeValue | decodeCause | decodeFTEID | decodeNodeID | decodeFSEID
    | decodeGroupedCreatePDR | decodeGroupedPDI | decodeUnrecognized | nodeIdV4 | nodeIdV6 | nodeIdFQDN | nodeIdOther =>
    exact .inl (exec_decodeRow_effect rfl h)
  | encodeIEList | encodeValue | encodeFTEID | encodeFSEID | encodeGroupedCreatePDR | encodeGroupedPDI =>
    exact answerEncode_internalEffect h fun _ => .delivered _
  | _ => cases h; exact .inl (.delivered _)

/-! ### Every instruction -/

/-- The next states of each instruction, by the shared operation that makes them. -/
inductive InstrEffect (s : State) : Instr → State → Prop where
  | nop : InstrEffect s .nop s
  | refused (code : BitVec 16) (kind : BitVec 3) (name : String) (k : ErrKind) :
      InstrEffect s (.regWrite code kind name) (refuse k s)
  | reserved6 : InstrEffect s .reservedCmd6 (refuse .illegalCommand s)
  | reserved7 : InstrEffect s .reservedCmd7 (refuse .illegalCommand s)
  | wrote (code : BitVec 16) (kind : BitVec 3) (name : String) (k : Kind) (hkind : kindOfCode kind = some k)
      (hinit : s.phase = .init) (hempty : s.registry.lookup code.toNat = none) :
      InstrEffect s (.regWrite code kind name)
        (complete .done Status.zero { s with registry := s.registry.set code.toNat ⟨k, name⟩ })
  | locked : InstrEffect s .regLock (complete .done Status.zero { s with phase := .run })
  | decoded (input : Bytes) (r : DecodeOk) (hrun : s.phase = .run)
      (h : decodeMessage s.cfg s.registry input = .ok r) :
      InstrEffect s (.decode input) (complete (.decoded r) ⟨0, r.uv, r.uk, 0⟩ (unspecifyWork s))
  | decodeRaised (input : Bytes) (e : Err)
      (h : (s.phase = .init ∧ e = ⟨.notInitialised, 0⟩) ∨
        (s.phase = .run ∧ decodeMessage s.cfg s.registry input = .error e)) :
      InstrEffect s (.decode input) (raise e s)
  | encoded (m : Message) (out : Bytes) (hrun : s.phase = .run)
      (h : encodeMessage s.cfg s.registry m = .ok out) :
      InstrEffect s (.encode m) (complete (.encoded out) Status.zero (unspecifyWork { s with out := out }))
  | encodeRaised (m : Message) (e : Err)
      (h : (s.phase = .init ∧ e = ⟨.notInitialised, 0⟩) ∨
        (s.phase = .run ∧ encodeMessage s.cfg s.registry m = .error e)) :
      InstrEffect s (.encode m) (raiseEncode e s)
  | classified (S : Bool) (code : BitVec 8) :
      InstrEffect s (.classify S code) (complete (.classified (classify s.cfg S code) code) Status.zero s)
  | internal {i : Instr} {t : State} (hi : isCommand i = false) (h : InternalEffect s t) : InstrEffect s i t

theorem exec_regWrite_instrEffect {code : BitVec 16} {kind : BitVec 3} {name : String} {s t : State}
    (h : exec (.regWrite code kind name) s = .next t) : InstrEffect s (.regWrite code kind name) t := by
  cases hkind : kindOfCode kind with
  | none => cases (exec_regWrite_reserved hkind code name s).symm.trans h; exact .refused _ _ _ _
  | some k =>
    cases hphase : s.phase with
    | run => cases (exec_regWrite_locked hkind hphase code name).symm.trans h; exact .refused _ _ _ _
    | init =>
      by_cases hempty : s.registry.lookup code.toNat = none
      · cases (exec_regWrite_accepted hkind hphase hempty name).symm.trans h
        exact .wrote code kind name k hkind hphase hempty
      · cases (exec_regWrite_conflict hkind hphase hempty name).symm.trans h; exact .refused _ _ _ _

theorem exec_decode_instrEffect {input : Bytes} {s t : State} (h : exec (.decode input) s = .next t) :
    InstrEffect s (.decode input) t := by
  cases hphase : s.phase with
  | init => cases (execDecode_init hphase input).symm.trans h; exact .decodeRaised input _ (.inl ⟨hphase, rfl⟩)
  | run =>
    cases hd : decodeMessage s.cfg s.registry input with
    | error e => cases (exec_decode_of_error hphase hd).symm.trans h; exact .decodeRaised input e (.inr ⟨hphase, hd⟩)
    | ok r => cases (exec_decode_of_ok hphase hd).symm.trans h; exact .decoded input r hphase hd

theorem exec_encode_instrEffect {m : Message} {s t : State} (h : exec (.encode m) s = .next t) :
    InstrEffect s (.encode m) t := by
  cases hphase : s.phase with
  | init => cases (execEncode_init hphase m).symm.trans h; exact .encodeRaised m _ (.inl ⟨hphase, rfl⟩)
  | run =>
    cases he : encodeMessage s.cfg s.registry m with
    | error e => cases (exec_encode_of_error hphase he).symm.trans h; exact .encodeRaised m e (.inr ⟨hphase, he⟩)
    | ok out => cases (exec_encode_of_ok hphase he).symm.trans h; exact .encoded m out hphase he

/-- The inversion lemma by instruction. -/
theorem exec_instrEffect {i : Instr} {s t : State} (h : exec i s = .next t) : InstrEffect s i t := by
  cases i with
  | nop => cases h; exact .nop
  | regWrite code kind name => exact exec_regWrite_instrEffect h
  | regLock => cases h; exact .locked
  | decode input => exact exec_decode_instrEffect h
  | encode m => exact exec_encode_instrEffect h
  | classify S code => cases h; exact .classified S code
  | reservedCmd6 => cases h; exact .reserved6
  | reservedCmd7 => cases h; exact .reserved7
  | _ => exact .internal rfl (exec_internal_effect rfl h)

/-! ### What internal operations leave alone -/

theorem LocalEffect.frame {s t : State} (h : LocalEffect s t) :
    t.out = s.out ∧ t.pending = s.pending ∧ t.phase = s.phase ∧ t.registry = s.registry ∧ t.cfg = s.cfg := by
  cases h <;> exact ⟨rfl, rfl, rfl, rfl, rfl⟩

theorem InternalEffect.frame {s t : State} (h : InternalEffect s t) :
    t.pending = s.pending ∧ t.phase = s.phase ∧ t.registry = s.registry ∧ t.cfg = s.cfg := by
  obtain h | ⟨e, rfl⟩ := h
  · exact h.frame.2
  · exact ⟨rfl, rfl, rfl, rfl⟩

/-- An internal operation writes STATUS only by an error, which sets no report flag (R26, R246). -/
theorem InternalEffect.status_cases {s t : State} (h : InternalEffect s t) :
    t.status = s.status ∨ ∃ e, t.status = Err.status e := by
  obtain h | ⟨e, rfl⟩ := h
  · cases h with
    | delivered | deliveredAt => exact .inl rfl
    | raised e => exact .inr ⟨e, rfl⟩
  · exact .inr ⟨e, rfl⟩

/-! ### The invariant -/

/-- The end of a command keeps the invariant if the STATUS it writes is well-formed, agrees with the result it delivers,
and the result is what R221 makes of its Message. -/
theorem State.Inv.complete {s : State} (h : s.Inv) {r : CmdResult} {st : Status} (hwf : Status.wf st = true)
    (hagrees : agrees st r = true) (hresult : resultWf s.cfg r = true) : (complete r st s).Inv := by
  obtain ⟨hreg, -, -, -, hpos⟩ := h
  exact ⟨hreg, hwf, hagrees, hresult, hpos⟩

theorem State.Inv.complete_err {s : State} (h : s.Inv) (e : Err) :
    (Machine.complete (.err e) (Err.status e) s).Inv :=
  h.complete (Err.status_wf e) (beq_self_eq_true _) rfl

theorem State.Inv.set_registry {s : State} (h : s.Inv) (code : BitVec 16) (e : Entry) :
    ({ s with registry := s.registry.set code.toNat e } : State).Inv := by
  obtain ⟨hreg, hstatus, hagrees, hresult, hpos⟩ := h
  exact ⟨Registry.set_wf s.registry e code.isLt hreg, hstatus, hagrees, hresult, hpos⟩

/-- A successful DECODE has the STATUS of its report flags, which is well-formed as its code is 0 (R30, R221). -/
theorem State.Inv.complete_decoded {s : State} (h : s.Inv) {input : Bytes} {r : DecodeOk}
    (hd : decodeMessage s.cfg s.registry input = .ok r) :
    (Machine.complete (.decoded r) ⟨0, r.uv, r.uk, 0⟩ s).Inv := by
  obtain ⟨d, ies, -, -, -, rfl⟩ := decodeMessage_ok_iff.mp hd
  refine h.complete rfl (beq_self_eq_true _) ?_
  simp [resultWf, decodedResult]

theorem Effect.inv {s t : State} (he : Effect s t) (h : s.Inv) : t.Inv := by
  cases he with
  | same => exact h
  | refused k => exact h.complete_err _
  | raised e | raisedEncode e => exact State.Inv.complete_err (s := unspecifyWork _) h e
  | wrote code k name hinit hempty => exact (h.set_registry code ⟨k, name⟩).complete rfl rfl rfl
  | locked => exact State.Inv.complete (s := { s with phase := .run }) h rfl rfl rfl
  | decoded input r hrun hd => exact State.Inv.complete_decoded (s := unspecifyWork s) h hd
  | encoded m out hrun henc => exact State.Inv.complete (s := unspecifyWork { s with out := out }) h rfl rfl rfl
  | classified S code => exact h.complete rfl rfl rfl
  | delivered b | deliveredAt b v => exact h

/-- An error that stands as the result stands in STATUS too: delivered now, or left from an earlier command. -/
theorem status_of_result_err {s : State} (h : s.Inv) {e : Err} (hr : s.result = .err e) : s.status = Err.status e := by
  obtain ⟨-, -, hagrees, -, -⟩ := h
  rw [hr] at hagrees
  exact beq_iff_eq.mp hagrees

/-! ### Requests -/

/-- Every row's request selects the row again: the rows told apart by operands or through the registry are those of
`Laws/PerInstr.lean`, the others carry their selector bits. -/
theorem requestRoundTrip (i : Instr) : Laws.RequestRoundTrip.Statement i := by
  cases i with
  | decodeHdrNode => exact Laws.RequestRoundTrip.decodeHdrNode _
  | decodeHdrSession => exact Laws.RequestRoundTrip.decodeHdrSession _
  | decodeCause => exact Laws.RequestRoundTrip.decodeCause _ _
  | encodeCause => exact Laws.RequestRoundTrip.encodeCause _
  | decodeFTEID => exact Laws.RequestRoundTrip.decodeFTEID _ _
  | encodeFTEID => exact Laws.RequestRoundTrip.encodeFTEID _ _
  | decodeNodeID => exact Laws.RequestRoundTrip.decodeNodeID _ _
  | encodeNodeID => exact Laws.RequestRoundTrip.encodeNodeID _
  | decodeFSEID => exact Laws.RequestRoundTrip.decodeFSEID _ _
  | encodeFSEID => exact Laws.RequestRoundTrip.encodeFSEID _ _
  | decodeGroupedCreatePDR => exact Laws.RequestRoundTrip.decodeGroupedCreatePDR _ _ _
  | decodeGroupedPDI => exact Laws.RequestRoundTrip.decodeGroupedPDI _ _ _
  | encodeGroupedCreatePDR => exact Laws.RequestRoundTrip.encodeGroupedCreatePDR _ _ _
  | encodeGroupedPDI => exact Laws.RequestRoundTrip.encodeGroupedPDI _ _ _
  | decodeUnrecognized => exact Laws.RequestRoundTrip.decodeUnrecognized _
  | encodeUnrecognized => exact Laws.RequestRoundTrip.encodeUnrecognized _
  | nodeIdV4 => exact Laws.RequestRoundTrip.nodeIdV4 _ _
  | nodeIdV6 => exact Laws.RequestRoundTrip.nodeIdV6 _ _
  | nodeIdFQDN => exact Laws.RequestRoundTrip.nodeIdFQDN _ _
  | nodeIdOther => exact Laws.RequestRoundTrip.nodeIdOther _ _ _
  | kindUnknown => exact Laws.RequestRoundTrip.kindUnknown _ _
  | _ => exact fun _ _ _ => rfl

theorem step_of_pending {s : State} {r : Request} {rest : List Request} (h : s.pending = r :: rest) :
    step s = exec (decodeRequest s.registry r) { s with pending := rest } := by
  rw [step, h]

theorem step_of_no_pending {s : State} (h : s.pending = []) : step s = .next s := by
  rw [step, h]

/-! ### The obligations -/

/-- Settles O3, row by row. -/
theorem requestDecodesToItsInstruction : Obligations.RequestDecodesToItsInstruction :=
  fun i reg hwf href => requestRoundTrip i hwf reg href

/-- Settles O6: taking the request touches nothing the invariant speaks of, and each effect of an instruction keeps it. -/
theorem stepKeepsInvariant : Obligations.StepKeepsInvariant := by
  intro s t h hstep
  obtain ⟨-, rfl⟩ | ⟨r, rest, -, hexec⟩ := step_cases hstep
  · exact h
  · have htaken : ({ s with pending := rest } : State).Inv := h
    exact (exec_effect hexec).inv htaken

/-- Settles O7: every instruction answers a next state, and so does the idle step. -/
theorem stepNeverStops : Obligations.StepNeverStops := by
  intro s
  cases hp : s.pending with
  | nil => exact ⟨s, step_of_no_pending hp⟩
  | cons r rest =>
    obtain ⟨t, ht, -⟩ := exec_next_effect (decodeRequest s.registry r) { s with pending := rest }
    exact ⟨t, (step_of_pending hp).trans ht⟩

/-- Settles O9: REG_LOCK is the one instruction with an effect on the phase, which it sets to RUN. -/
theorem onlyLockChangesPhase : Obligations.OnlyLockChangesPhase := by
  intro i s t h hne
  cases exec_instrEffect h with
  | locked =>
    refine ⟨rfl, ?_, rfl⟩
    cases hphase : s.phase with
    | init => rfl
    | run => exact absurd hphase.symm hne
  | internal hi heff => exact absurd heff.frame.2.1 hne
  | _ => exact absurd rfl hne

/-- Settles O11: an accepted REG_WRITE is the one effect on the table, and it reads as before at every other code. -/
theorem onlyRegWriteChangesRegistry : Obligations.OnlyRegWriteChangesRegistry := by
  intro i s t c h hne
  cases exec_instrEffect h with
  | wrote code kind name k hkind hinit hempty =>
    obtain rfl : c = code.toNat := by
      by_contra hother
      exact hne (Registry.lookup_set_other s.registry ⟨k, name⟩ hother)
    exact ⟨code, kind, name, k, rfl, hinit, rfl, hempty, hkind, Registry.lookup_set_same ..⟩
  | internal hi heff =>
    obtain ⟨-, -, hreg, -⟩ := heff.frame
    exact absurd (congrArg (Registry.lookup · c) hreg) hne
  | _ => exact absurd rfl hne

/-- Settles O12: by the invariant STATUS agrees with the error, and the effects that write phase or registry deliver no
error. -/
theorem errorsAreDelivered : Obligations.ErrorsAreDelivered := by
  intro i s t e hinv h hr
  have heff := exec_effect h
  refine ⟨status_of_result_err (heff.inv hinv) hr, ?_⟩
  cases heff with
  | wrote | locked => cases hr
  | _ => exact ⟨rfl, rfl, rfl, rfl⟩

/-- Settles O13: every other instruction leaves STATUS, zeroes it, or writes that of an error. -/
theorem reportFlagsOnlyFromDecode : Obligations.ReportFlagsOnlyFromDecode := by
  intro i s t h hne hflags
  cases exec_instrEffect h with
  | nop => exact absurd rfl hne
  | decoded input | decodeRaised input => exact ⟨input, rfl⟩
  | internal hi heff =>
    obtain hsame | ⟨e, hstatus⟩ := heff.status_cases
    · exact absurd hsame hne
    · simp [hstatus] at hflags
  | _ => simp [Status.zero] at hflags

/-- Settles O14, by the effects of an internal operation. -/
theorem internalOperationFrame : Obligations.InternalOperationFrame := by
  intro i s t hi h
  obtain heff | ⟨e, rfl⟩ := exec_internal_effect hi h
  · cases heff with
    | delivered b => exact .inl ⟨b, s.work.cur, rfl⟩
    | deliveredAt b v => exact .inl ⟨b, BitVec.ofNat 17 v, rfl⟩
    | raised e => exact .inr ⟨e, rfl, rfl, rfl, rfl, rfl, rfl, rfl⟩
  · exact .inr ⟨e, rfl, rfl, rfl, rfl, rfl, rfl, rfl⟩

/-- Settles O15: DECODE completes or raises, and the rows below it hand over or raise; none of these writes OUT. -/
theorem decodeSideLeavesOut : Obligations.DecodeSideLeavesOut := by
  intro s t v x n d o nt h
  obtain h | hrow := h
  · cases exec_decode_instrEffect h with
    | internal hi => cases hi
    | _ => exact ⟨rfl, rfl, rfl, rfl, rfl⟩
  · obtain ⟨i, hi, h⟩ : ∃ i, isDecodeRow i = true ∧ exec i s = .next t := by
      obtain h | h | h | h | h | h | h | h | h | h | h | h | h | h | h := hrow <;> exact ⟨_, rfl, h⟩
    exact (exec_decodeRow_effect hi h).frame

/-- Settles O1: the reset event in the fields the spec defines, and a block with nothing issued is idle. -/
theorem resetGivesInitialState : Obligations.ResetGivesInitialState :=
  ⟨fun s => ⟨rfl, fun _ => rfl, rfl, hardReset_cfg s, rfl⟩, rfl, fun _ => rfl, rfl, rfl, rfl, rfl, rfl, rfl,
    step_of_no_pending rfl, fun s => step_of_no_pending (hardReset_pending s)⟩

/-- Settles O2: a step decodes the oldest request, and the request of a well-formed instruction decodes to it. -/
theorem stepRunsDecodedRequest : Obligations.StepRunsDecodedRequest := by
  refine ⟨fun _ _ _ => step_of_pending, fun s i rest hwf href hp => ?_, fun _ => step_of_no_pending⟩
  rw [step_of_pending hp, requestRoundTrip i hwf s.registry href]

/-- Settles O4, by running the decoder on each word. -/
theorem tableWordsDecode : Obligations.TableWordsDecode := by
  unfold Obligations.TableWordsDecode
  decide

/-- Settles O5: an empty table is canonical, and STATUS and result are both zero. -/
theorem invariantAtReset : Obligations.InvariantAtReset := ⟨rfl, rfl, rfl, rfl, rfl⟩

end Sys2Proof.Machine
end

section
/-! The message kinds and the message header (`spec/44_message_kind.md` R210, R211, `spec/40_header.md` R122 to R125):
CLASSIFY and the kind rows over the two code ranges, the header rows octet by octet, and what DECODE reads of a header. -/

namespace Sys2Proof.Machine

/-! ### Message kinds (R210) -/

theorem classify_eq_node_iff {cfg : Cfg} {S : Bool} {code : BitVec 8} :
    classify cfg S code = .node code ↔
      S = false ∧ cfg.nodeLo.toNat ≤ code.toNat ∧ code.toNat ≤ cfg.nodeHi.toNat := by
  unfold classify
  split_ifs with hnode hsession
  · exact iff_of_true rfl hnode
  · exact iff_of_false nofun hnode
  · exact iff_of_false nofun hnode

theorem classify_eq_session_iff {cfg : Cfg} {S : Bool} {code : BitVec 8} :
    classify cfg S code = .session code ↔
      S = true ∧ cfg.sessionLo.toNat ≤ code.toNat ∧ code.toNat ≤ cfg.sessionHi.toNat := by
  unfold classify
  split_ifs with hnode hsession
  · exact iff_of_false nofun fun h => by simp [h.1] at hnode
  · exact iff_of_true rfl hsession
  · exact iff_of_false nofun hsession

theorem classify_cases (cfg : Cfg) (S : Bool) (code : BitVec 8) :
    classify cfg S code = .node code ∨ classify cfg S code = .session code ∨ classify cfg S code = .unknown := by
  unfold classify
  split_ifs
  · exact .inl rfl
  · exact .inr (.inl rfl)
  · exact .inr (.inr rfl)

/-- A selector outside the range of its own code space is of no kind. -/
theorem classify_eq_unknown {cfg : Cfg} {S : Bool} {code : BitVec 8}
    (hnode : ¬ (S = false ∧ cfg.nodeLo.toNat ≤ code.toNat ∧ code.toNat ≤ cfg.nodeHi.toNat))
    (hsession : ¬ (S = true ∧ cfg.sessionLo.toNat ≤ code.toNat ∧ code.toNat ≤ cfg.sessionHi.toNat)) :
    classify cfg S code = .unknown :=
  (if_neg hnode).trans (if_neg hsession)

/-- The rows of the node code space are those of the codes 1 to 15 (R210). -/
theorem nodeKindInstr_ne_unknown {code : BitVec 8} (h : 1 ≤ code.toNat ∧ code.toNat ≤ 15) (S : Bool) (c : BitVec 8) :
    nodeKindInstr code ≠ .kindUnknown S c := by
  obtain ⟨h1, h15⟩ := h
  unfold nodeKindInstr
  interval_cases code.toNat <;> exact nofun

/-- The rows of the session code space are those of the codes 50 to 57 (R210). -/
theorem sessionKindInstr_ne_unknown {code : BitVec 8} (h : 50 ≤ code.toNat ∧ code.toNat ≤ 57) (S : Bool)
    (c : BitVec 8) : sessionKindInstr code ≠ .kindUnknown S c := by
  obtain ⟨h50, h57⟩ := h
  unfold sessionKindInstr
  interval_cases code.toNat <;> exact nofun

section KindRows

/-- The code ranges of R8. -/
structure DefaultRanges (cfg : Cfg) : Prop where
  nodeLo : cfg.nodeLo = 1#8
  nodeHi : cfg.nodeHi = 15#8
  sessionLo : cfg.sessionLo = 50#8
  sessionHi : cfg.sessionHi = 57#8

variable {s : State} (hranges : DefaultRanges s.cfg) {code : BitVec 8}
include hranges

theorem labelOp_node (h : 1 ≤ code.toNat ∧ code.toNat ≤ 15) :
    labelOp false code s = .next { s with bus := .kind (.node code) } := by
  have hkind : classify s.cfg false code = .node code := by
    rw [classify_eq_node_iff, hranges.nodeLo, hranges.nodeHi]
    exact ⟨rfl, h⟩
  rw [labelOp, hkind]
  rfl

theorem labelOp_session (h : 50 ≤ code.toNat ∧ code.toNat ≤ 57) :
    labelOp true code s = .next { s with bus := .kind (.session code) } := by
  have hkind : classify s.cfg true code = .session code := by
    rw [classify_eq_session_iff, hranges.sessionLo, hranges.sessionHi]
    exact ⟨rfl, h⟩
  rw [labelOp, hkind]
  rfl

/-- A selector that no other row has lies outside both ranges. -/
theorem labelOp_unknown {S : Bool} (h : wellFormed (.kindUnknown S code) = true) :
    labelOp S code s = .next { s with bus := .kind .unknown } := by
  have hrow : kindInstr S code = .kindUnknown S code := beq_iff_eq.mp h
  have hkind : classify s.cfg S code = .unknown := by
    refine classify_eq_unknown ?_ ?_
    · rw [hranges.nodeLo, hranges.nodeHi]
      rintro ⟨rfl, hin⟩
      exact nodeKindInstr_ne_unknown hin _ _ hrow
    · rw [hranges.sessionLo, hranges.sessionHi]
      rintro ⟨rfl, hin⟩
      exact sessionKindInstr_ne_unknown hin _ _ hrow
  rw [labelOp, hkind]
  rfl

end KindRows

/-! ### Fields of several octets (R50, R56) -/

theorem beNat_append_singleton (b : Bytes) (y : Byte) : beNat (b ++ [y]) = beNat b * 256 + y.toNat := by
  induction b with
  | nil => simp [beNat]
  | cons x xs ih =>
    rw [List.cons_append, beNat_cons, ih, beNat_cons, List.length_append, List.length_singleton, pow_succ]
    ring

/-- Big-endian: the last octet of a field is its low octet. -/
theorem ofNat_beNat_append_singleton (w : Nat) (b : Bytes) (y : Byte) :
    BitVec.ofNat (w + 8) (beNat (b ++ [y])) = BitVec.ofNat w (beNat b) ++ y := by
  have hy : y.toNat < 2 ^ 8 := y.isLt
  apply BitVec.eq_of_toNat_eq
  rw [BitVec.toNat_append, ← Nat.shiftLeft_add_eq_or_of_lt hy, Nat.shiftLeft_eq, BitVec.toNat_ofNat, BitVec.toNat_ofNat,
    beNat_append_singleton, pow_add, Nat.mul_comm (2 ^ w), Nat.mod_mul,
    show (beNat b * 256 + y.toNat) % 2 ^ 8 = y.toNat by omega,
    show (beNat b * 256 + y.toNat) / 2 ^ 8 = beNat b by omega]
  ring

theorem ofNat_beNat_one (x : Byte) : BitVec.ofNat 8 (beNat [x]) = x := by
  simp [beNat]

theorem ofNat_beNat_two (x y : Byte) : BitVec.ofNat 16 (beNat [x, y]) = x ++ y :=
  (ofNat_beNat_append_singleton 8 [x] y).trans (by rw [ofNat_beNat_one])

theorem ofNat_beNat_three (x y z : Byte) : BitVec.ofNat 24 (beNat [x, y, z]) = x ++ y ++ z :=
  (ofNat_beNat_append_singleton 16 [x, y] z).trans (by rw [ofNat_beNat_two])

theorem ofNat_beNat_eight (x1 x2 x3 x4 x5 x6 x7 x8 : Byte) :
    BitVec.ofNat 64 (beNat [x1, x2, x3, x4, x5, x6, x7, x8]) = x1 ++ x2 ++ x3 ++ x4 ++ x5 ++ x6 ++ x7 ++ x8 := by
  rw [← ofNat_beNat_three, ← ofNat_beNat_append_singleton, ← ofNat_beNat_append_singleton,
    ← ofNat_beNat_append_singleton, ← ofNat_beNat_append_singleton, ← ofNat_beNat_append_singleton]
  rfl

/-- The length field of a header and of an IE alike stands in octets 2 and 3 (R80 to R82). -/
theorem u16_two_cons (a b x y : Byte) (rest : Bytes) : u16 (a :: b :: x :: y :: rest) 2 = x ++ y :=
  ofNat_beNat_two x y

theorem toNat_append_octet (x y : Byte) : (x ++ y : BitVec 16).toNat = x.toNat * 256 + y.toNat := by
  have hy : y.toNat < 2 ^ 8 := y.isLt
  rw [BitVec.toNat_append, ← Nat.shiftLeft_add_eq_or_of_lt hy, Nat.shiftLeft_eq]

/-! ### The header rows -/

theorem decodeHdrNodeForm_eq (b : Bytes) :
    decodeHdrNodeForm b = if b.length < 8 then .error ⟨.truncatedHeader, 0⟩ else .ok (nodeHeaderFields b) := by
  by_cases h4 : b.length < 4
  · have h8 : b.length < 8 := by omega
    rw [decodeHdrNodeForm, if_pos h4, if_pos h8]
  · rw [decodeHdrNodeForm, if_neg h4]
    rfl

theorem decodeHdrSessionForm_eq (b : Bytes) :
    decodeHdrSessionForm b = if b.length < 16 then .error ⟨.truncatedHeader, 0⟩ else .ok (sessionHeaderFields b) := by
  by_cases h4 : b.length < 4
  · have h16 : b.length < 16 := by omega
    rw [decodeHdrSessionForm, if_pos h4, if_pos h16]
  · rw [decodeHdrSessionForm, if_neg h4]
    rfl

theorem exec_decodeHdrNode (b : Bytes) (s : State) :
    exec (.decodeHdrNode b) s =
      if b.length < 8 then .next (raise ⟨.truncatedHeader, 0⟩ s) else .next (deliverHeader (nodeHeaderFields b) s) := by
  change answerDecode deliverHeader (decodeHdrNodeForm b) s = _
  rw [decodeHdrNodeForm_eq]
  split <;> rfl

theorem exec_decodeHdrSession (b : Bytes) (s : State) :
    exec (.decodeHdrSession b) s =
      if b.length < 16 then .next (raise ⟨.truncatedHeader, 0⟩ s)
      else .next (deliverHeader (sessionHeaderFields b) s) := by
  change answerDecode deliverHeader (decodeHdrSessionForm b) s = _
  rw [decodeHdrSessionForm_eq]
  split <;> rfl

/-- Octet 0 of a header, every spare bit zero (R91). -/
theorem hdrByte0_eq_append (version : BitVec 3) (mp S : Bool) :
    hdrByte0 version mp S = version ++ 0#3 ++ BitVec.ofBool mp ++ BitVec.ofBool S := by
  revert version mp S; decide

/-- Octet 15 of a session header, its spare nibble zero (R91). -/
theorem hdrByte15_eq_append (priority : BitVec 4) : hdrByte15 priority = priority ++ 0#4 := by
  revert priority; decide

/-! ### What DECODE reads of a header (R122, R124, R222) -/

/-- A header has one error. -/
theorem err_of_decodeHeader {b : Bytes} {e : Err} (h : decodeHeader b = .error e) : e = ⟨.truncatedHeader, 0⟩ := by
  cases hS : selectS b with
  | false =>
    rw [decodeHeader_of_node hS] at h
    split at h <;> cases h
    rfl
  | true =>
    rw [decodeHeader_of_session hS] at h
    split at h <;> cases h
    rfl

theorem decodeHeader_short {b : Bytes} (h : b.length < 4 ∨ ((u8 b 0).getLsbD 0 = false ∧ b.length < 8) ∨
    ((u8 b 0).getLsbD 0 = true ∧ b.length < 16)) : decodeHeader b = .error ⟨.truncatedHeader, 0⟩ := by
  obtain h4 | ⟨hS, h8⟩ | ⟨hS, h16⟩ := h
  · exact if_pos h4
  · exact (decodeHeader_of_node hS).trans (if_pos h8)
  · exact (decodeHeader_of_session hS).trans (if_pos h16)

theorem decodeMessage_of_header_error {cfg : Cfg} {reg : Registry} {input : Bytes} {e : Err}
    (h : decodeHeader input = .error e) : decodeMessage cfg reg input = .error e := by
  rw [decodeMessage, h]

/-- A length that does not reach the end of its own header is refused as if the header were cut there (R222). -/
theorem decodeMessage_of_short_length {cfg : Cfg} {reg : Registry} {input : Bytes}
    (h : ∀ d, decodeHeader input = .ok d → d.length.toNat < d.size - 4) :
    decodeMessage cfg reg input = .error ⟨.truncatedHeader, 0⟩ := by
  cases hd : decodeHeader input with
  | error e => rw [decodeMessage_of_header_error hd, err_of_decodeHeader hd]
  | ok d =>
    rw [decodeMessage, hd]
    exact if_pos (h d hd)

theorem size_of_decodeHeader {b : Bytes} {d : DecodedHeader} (h : decodeHeader b = .ok d) :
    d.size = if (u8 b 0).getLsbD 0 then 16 else 8 := by
  obtain ⟨hS, -, rfl⟩ | ⟨hS, -, rfl⟩ := decodeHeader_ok_cases h
  · exact (if_neg (Bool.eq_false_iff.mp hS)).symm
  · exact (if_pos hS).symm

theorem memRead_take_append {b : Bytes} {e p n : Nat} (rest : Bytes) (he : e ≤ b.length) (h : p + n ≤ e) :
    memRead (b.take e ++ rest) p n = memRead b p n := by
  rw [memRead_append_left (by rw [List.length_take]; omega), memRead, memRead, slice_take b h]

/-- The decoded header is a function of the octets of its shape (R124). -/
theorem decodeHeader_take_append {b : Bytes} {d : DecodedHeader} (h : decodeHeader b = .ok d) (rest : Bytes) :
    decodeHeader (b.take d.size ++ rest) = .ok d := by
  have hselect : ∀ e, 1 ≤ e → e ≤ b.length → selectS (b.take e ++ rest) = selectS b := fun e h1 he => by
    rw [selectS, u8, memRead_take_append rest he (by omega)]
    rfl
  obtain ⟨hS, hlen, rfl⟩ | ⟨hS, hlen, rfl⟩ := decodeHeader_ok_cases h
  · change decodeHeader (b.take 8 ++ rest) = _
    rw [decodeHeader_of_node ((hselect 8 (by omega) hlen).trans hS), if_neg (by simp; omega)]
    simp [nodeHeaderFields, u8, u16, u24, memRead_take_append rest hlen]
  · change decodeHeader (b.take 16 ++ rest) = _
    rw [decodeHeader_of_session ((hselect 16 (by omega) hlen).trans hS), if_neg (by simp; omega)]
    simp [sessionHeaderFields, u8, u16, u24, u64, memRead_take_append rest hlen]

/-! ### The obligations -/

/-- Settles O18: REG_LOCK has no check; in RUN the phase it writes is the one that stands. -/
theorem regLockEntersRun : Obligations.RegLockEntersRun := by
  refine ⟨fun _ => rfl, fun s hrun => ?_, fun _ _ => rfl⟩
  change Host.Outcome.next { s with phase := .run, status := Status.zero, result := .done } = _
  rw [← hrun]
  rfl

/-- Settles O21: the kind is that of R210, and its two bits tell the three kinds apart. -/
theorem classifyLabels : Obligations.ClassifyLabels := by
  intro S code s
  have hkind := classify_cases s.cfg S code
  refine ⟨classify s.cfg S code, rfl, classify_eq_node_iff, classify_eq_session_iff, hkind, ?_⟩
  obtain h | h | h := hkind <;> simp [h, kindBits]

/-- Settles O22: the rows are those of the codes in the two ranges. -/
theorem kindRowsLabelTheirSelector : Obligations.KindRowsLabelTheirSelector := by
  intro s h1 h2 h3 h4
  have hnode := fun (code : BitVec 8) => labelOp_node (s := s) (code := code) ⟨h1, h2, h3, h4⟩
  have hsession := fun (code : BitVec 8) => labelOp_session (s := s) (code := code) ⟨h1, h2, h3, h4⟩
  exact ⟨hnode 1 (by decide), hnode 2 (by decide), hnode 3 (by decide), hnode 4 (by decide), hnode 5 (by decide),
    hnode 6 (by decide), hnode 7 (by decide), hnode 8 (by decide), hnode 9 (by decide), hnode 10 (by decide),
    hnode 11 (by decide), hnode 12 (by decide), hnode 13 (by decide), hnode 14 (by decide), hnode 15 (by decide),
    hsession 50 (by decide), hsession 51 (by decide), hsession 52 (by decide), hsession 53 (by decide),
    hsession 54 (by decide), hsession 55 (by decide), hsession 56 (by decide), hsession 57 (by decide),
    fun S code => labelOp_unknown ⟨h1, h2, h3, h4⟩⟩

/-- Settles O23: each field of the decoder's equation, octet by octet. -/
theorem decodeHdrNodeResult : Obligations.DecodeHdrNodeResult := by
  intro s b0 mt l1 l2 q1 q2 q3 spare rest _
  rw [exec_decodeHdrNode, if_neg (by simp)]
  generalize hb : b0 :: mt :: l1 :: l2 :: q1 :: q2 :: q3 :: spare :: rest = b
  have h0 : u8 b 0 = b0 := hb ▸ ofNat_beNat_one b0
  have h1 : u8 b 1 = mt := hb ▸ ofNat_beNat_one mt
  have hlength : u16 b 2 = l1 ++ l2 := hb ▸ ofNat_beNat_two l1 l2
  have hseq : u24 b 4 = q1 ++ q2 ++ q3 := hb ▸ ofNat_beNat_three q1 q2 q3
  rw [nodeHeaderFields, h0, h1, hlength, hseq]
  rfl

/-- Settles O24: each field of the decoder's equation, octet by octet. -/
theorem decodeHdrSessionResult : Obligations.DecodeHdrSessionResult := by
  intro s b0 mt l1 l2 s1 s2 s3 s4 s5 s6 s7 s8 q1 q2 q3 b15 rest _
  rw [exec_decodeHdrSession, if_neg (by simp)]
  generalize hb : b0 :: mt :: l1 :: l2 :: s1 :: s2 :: s3 :: s4 :: s5 :: s6 :: s7 :: s8 :: q1 :: q2 :: q3 :: b15 ::
    rest = b
  have h0 : u8 b 0 = b0 := hb ▸ ofNat_beNat_one b0
  have h1 : u8 b 1 = mt := hb ▸ ofNat_beNat_one mt
  have hlength : u16 b 2 = l1 ++ l2 := hb ▸ ofNat_beNat_two l1 l2
  have hseid : u64 b 4 = s1 ++ s2 ++ s3 ++ s4 ++ s5 ++ s6 ++ s7 ++ s8 :=
    hb ▸ ofNat_beNat_eight s1 s2 s3 s4 s5 s6 s7 s8
  have hseq : u24 b 12 = q1 ++ q2 ++ q3 := hb ▸ ofNat_beNat_three q1 q2 q3
  have h15 : u8 b 15 = b15 := hb ▸ ofNat_beNat_one b15
  rw [sessionHeaderFields, h0, h1, hlength, hseid, hseq, h15]
  rfl

/-- Settles O25: the octets 0 and 15 are the fields over zero spare bits, and a field's octets are its slices. -/
theorem encodeHdrResult : Obligations.EncodeHdrResult := by
  intro s version mp mt seq seid priority length
  constructor
  · change Host.Outcome.next (deliver (.octets (encodeHdrNodeForm version mp mt seq length)) s) = _
    rw [encodeHdrNodeForm, hdrByte0_eq_append]
    rfl
  · change Host.Outcome.next (deliver (.octets (encodeHdrSessionForm version mp mt seq ⟨seid, priority⟩ length)) s) = _
    rw [encodeHdrSessionForm, hdrByte0_eq_append, hdrByte15_eq_append]
    rfl

/-- Settles O26: a header cut short, or a length that does not cover its header, whichever of the two comes first. -/
theorem shortHeadersRefused : Obligations.ShortHeadersRefused := by
  refine ⟨fun s b h8 => ?_, fun s b h16 => ?_, fun s b hrun hshort => ?_, fun s b0 mt l1 l2 rest hrun hlength => ?_⟩
  · exact ⟨_, (exec_decodeHdrNode b s).trans (if_pos h8), rfl, rfl⟩
  · exact ⟨_, (exec_decodeHdrSession b s).trans (if_pos h16), rfl, rfl⟩
  · have herr := decodeMessage_of_header_error (cfg := s.cfg) (reg := s.registry) (decodeHeader_short hshort)
    exact ⟨_, exec_decode_of_error hrun herr, rfl, rfl⟩
  · have herr : decodeMessage s.cfg s.registry (b0 :: mt :: l1 :: l2 :: rest) = .error ⟨.truncatedHeader, 0⟩ := by
      refine decodeMessage_of_short_length fun d hd => ?_
      rw [size_of_decodeHeader hd, length_of_decodeHeader hd, u16_two_cons, toNat_append_octet, u8_cons_zero]
      refine hlength.trans_le ?_
      split <;> omega
    exact ⟨_, exec_decode_of_error hrun herr, rfl, rfl⟩

/-- Settles O27: the fields are read below the header's size. -/
theorem headerShapeFixesWhatIsRead : Obligations.HeaderShapeFixesWhatIsRead :=
  fun _ rest _ h => ⟨size_of_decodeHeader h, decodeHeader_take_append h rest⟩

end Sys2Proof.Machine
end

section
/-! The decode rows of the value codecs run by themselves (`spec/43_ie_values.md` R176 to R195): what each puts on the bus,
from the equivalences between a decoder's `Ok` value and its octets; and the leaf codecs' round trip (R199). -/

namespace Sys2Proof.Machine

/-! ### A row that completes -/

/-- A decode-side row hands its decoder's value over. -/
theorem answerDecode_of_ok {α : Type} {r : Except Err α} {x : α} (h : r = .ok x) (ok : α → State → State) (s : State) :
    answerDecode ok r s = .next (ok x s) :=
  congrArg (answerDecode ok · s) h

/-- An encode-side row hands its encoder's octets over. -/
theorem answerEncode_of_ok {α : Type} {r : Except Err α} {x : α} (h : r = .ok x) (ok : α → State → State) (s : State) :
    answerEncode ok r s = .next (ok x s) :=
  congrArg (answerEncode ok · s) h

/-- An encode-side row hands its encoder's error to `raiseEncode`. -/
theorem answerEncode_of_error {α : Type} {r : Except Err α} {e : Err} (h : r = .error e) (ok : α → State → State)
    (s : State) : answerEncode ok r s = .next (raiseEncode e s) :=
  congrArg (answerEncode ok · s) h

/-! ### Values long enough for their selector bits -/

theorem decodeFTEID_cons_of_long {cfg : Cfg} {x : Byte} {body : Bytes}
    (h : needFTEID (x.getLsbD cfg.fteidFlagPos.v4) (x.getLsbD cfg.fteidFlagPos.v6) (x.getLsbD cfg.fteidFlagPos.ch)
      (x.getLsbD cfg.fteidFlagPos.chid) ≤ body.length + 1) (ieOff : Nat) :
    ∃ f, decodeFTEID cfg (x :: body) ieOff = .ok f :=
  ⟨_, (decodeFTEID_cons cfg x body ieOff).trans (if_neg (Nat.not_lt.mpr h))⟩

theorem decodeFSEID_cons_of_long {x : Byte} {body : Bytes} (h : needFSEID (fseidV4 x) (fseidV6 x) ≤ body.length + 1)
    (ieOff : Nat) : ∃ f, decodeFSEID (x :: body) ieOff = .ok f :=
  ⟨_, (decodeFSEID_cons x body ieOff).trans (if_neg (Nat.not_lt.mpr h))⟩

theorem causeMeaningful_iff (c : Byte) :
    causeMeaningful c = true ↔ c = 0#8 ∨ c = 1#8 ∨ (64 ≤ c.toNat ∧ c.toNat ≤ 77) := by
  simp [causeMeaningful, BitVec.toNat_eq, or_assoc]

/-! ### The obligations -/

/-- Settles O29: octet 0 and the rest of a Cause, and an unrecognized value as it is. -/
theorem causeAndUnrecognizedResults : Obligations.CauseAndUnrecognizedResults :=
  fun s c tail _ off => ⟨answerDecode_of_ok (decodeCause_cons c tail off) (fun c => deliverValue (.cause c)) s, rfl, rfl,
    rfl, causeMeaningful_iff c⟩

/-- Settles O30: what the decoder reads is consistent with the flags, and its fields are the octets behind them. -/
theorem decodeFTEIDResult : Obligations.DecodeFTEIDResult := by
  intro s x body off hlong
  obtain ⟨f, hf⟩ := decodeFTEID_cons_of_long hlong off
  obtain ⟨hc, hv4, hv6, hch, hchid, hbody⟩ := decodeFTEID_cons_ok_iff.mp hf
  obtain ⟨hteid, hipv4, hipv6, hchoose⟩ := (consistentFTEID_iff f).mp hc
  refine ⟨f, answerDecode_of_ok hf _ s, hv4, hv6, hch, hchid, ?_, ?_, ?_, ?_, hbody⟩
  · simp [hteid]
  · simp [hipv4]
  · simp [hipv6]
  · rw [hchoose]

/-- Settles O32: a value's node type and what follows octet 0 determine it, for each form; the four rows check what
DecodeNodeID does. -/
theorem decodeNodeIDResult : Obligations.DecodeNodeIDResult := by
  intro s x off a4 a6 nt tail
  have hrow : ∀ n : NodeIdValue, x.extractLsb' 0 4 = nodeIdType n → exec (.decodeNodeID (x :: nodeIdBody n) off) s =
      .next { s with bus := .value (.nodeId n) } := fun n htype =>
    answerDecode_of_ok (decodeNodeID_cons_ok_iff.mpr ⟨htype.symm, rfl⟩) _ s
  refine ⟨fun h => ⟨hrow (.v4 a4 tail) h, ?_⟩, fun h => ⟨hrow (.v6 a6 tail) h, ?_⟩, fun h => ⟨hrow (.fqdn tail) h, ?_⟩,
    fun h => ⟨hrow (.other nt tail) h, ?_⟩, ?_⟩
  · exact answerDecode_of_ok (decodeNodeIdV4_cons_ok_iff.mpr ⟨a4, tail, rfl, rfl⟩) _ s
  · exact answerDecode_of_ok (decodeNodeIdV6_cons_ok_iff.mpr ⟨a6, tail, rfl, rfl⟩) _ s
  · exact answerDecode_of_ok (decodeNodeIdFQDN_cons x tail off) (fun n => deliverValue (.nodeId n)) s
  · exact answerDecode_of_ok (decodeNodeIdOther_cons nt x tail off) (fun n => deliverValue (.nodeId n)) s
  · intro i hi
    refine ⟨raise (badLayout off) s, ?_, rfl, rfl⟩
    obtain rfl | rfl | rfl | rfl := hi <;> rfl

/-- Settles O34: what the decoder reads is consistent with the flags, and its fields are the octets behind them. -/
theorem decodeFSEIDResult : Obligations.DecodeFSEIDResult := by
  intro s x body off hlong
  obtain ⟨f, hf⟩ := decodeFSEID_cons_of_long hlong off
  obtain ⟨hc, hv4, hv6, hbody⟩ := decodeFSEID_cons_ok_iff.mp hf
  obtain ⟨hipv4, hipv6⟩ := (consistentFSEID_iff f).mp hc
  refine ⟨f, answerDecode_of_ok hf _ s, hv4, hv6, ?_, ?_, hbody⟩
  · rw [hipv4]
  · rw [hipv6]

/-- Settles O37, codec by codec. -/
theorem valueCodecsRoundTrip : Obligations.ValueCodecsRoundTrip := fun _ o off hp =>
  ⟨fun c => decodeCause_encodeCause c off, fun _ _ h => decodeFTEID_encodeFTEID hp h off,
    fun n => decodeNodeID_encodeNodeID n off, fun _ _ h => decodeFSEID_encodeFSEID h off,
    fun _ _ h => ⟨encodeCause_of_decodeCause h, valueSize_of_decodeCause h⟩,
    fun _ _ h => ⟨encodeFTEID_of_decodeFTEID hp h o, valueSize_of_decodeFTEID h⟩,
    fun _ _ h => ⟨encodeNodeID_of_decodeNodeID h, valueSize_of_decodeNodeID h⟩,
    fun _ _ h => ⟨encodeFSEID_of_decodeFSEID h o, valueSize_of_decodeFSEID h⟩⟩

end Sys2Proof.Machine
end

section
/-! IE lists (`spec/41_ie_list.md` R140 to R150, `spec/42_registry.md` R162 to R164, `spec/43_ie_values.md` R197, R198): the
bound checks of a turn, where an error of a list comes from, how deep a decoded list nests, and the encode rows. -/

namespace Sys2Proof.Machine

/-! ### The bound checks of a turn (R142) -/

section BoundChecks

variable {cfg : Cfg} {reg : Registry} {b : Bytes} {total depth base : Nat}

theorem decodeIEList_truncated_header (h0 : total ≠ 0) (hb : b.length < 4) :
    decodeIEList cfg reg b total depth base = .error ⟨.truncatedIE, base⟩ := by
  rw [decodeIEList_turn _ _ _ _ _ _ h0, if_pos hb]

theorem decodeIEList_overrun_header (h0 : total ≠ 0) (hb : 4 ≤ b.length) (htotal : total < 4) :
    decodeIEList cfg reg b total depth base = .error ⟨.overrunIE, base⟩ := by
  rw [decodeIEList_turn _ _ _ _ _ _ h0, if_neg (by omega), if_pos htotal]

theorem decodeIEList_truncated_value (hb : 4 ≤ b.length) (htotal : 4 ≤ total) (hL : b.length < 4 + (u16 b 2).toNat) :
    decodeIEList cfg reg b total depth base = .error ⟨.truncatedIE, base⟩ := by
  rw [decodeIEList_turn _ _ _ _ _ _ (by omega), if_neg (by omega), if_neg (by omega), if_pos (by omega)]

theorem decodeIEList_overrun_value (htotal : 4 ≤ total) (hb : 4 + (u16 b 2).toNat ≤ b.length)
    (hL : total < 4 + (u16 b 2).toNat) : decodeIEList cfg reg b total depth base = .error ⟨.overrunIE, base⟩ := by
  rw [decodeIEList_turn _ _ _ _ _ _ (by omega), if_neg (by omega), if_neg (by omega), if_neg (by omega),
    if_pos (by omega)]

end BoundChecks

/-- A turn whose bounds hold (R140): the value, then the rest of the list. -/
theorem decodeIEList_ieOctets_eq (cfg : Cfg) (reg : Registry) (t : BitVec 16) {v : Bytes} (hv : v.length ≤ 65535)
    (tail : Bytes) (total depth base : Nat) :
    decodeIEList cfg reg (ieOctets t v ++ tail) (4 + v.length + total) depth base =
      (decodeValue cfg reg t v depth base).bind fun x =>
        (decodeIEList cfg reg tail total depth (base + 4 + v.length)).map (.cons x.type x.value) := by
  have hlen : (ieOctets t v ++ tail).length = 4 + v.length + tail.length := by simp
  rw [decodeIEList_turn _ _ _ _ _ _ (by omega), hlen, u16_two_ieOctets t tail hv, u16_zero_ieOctets, slice_ieOctets,
    drop_ieOctets, if_neg (by omega), if_neg (by omega), if_neg (by omega), if_neg (by omega),
    show 4 + v.length + total - (4 + v.length) = total by omega]
  cases decodeValue cfg reg t v depth base with
  | error e => rfl
  | ok x => cases decodeIEList cfg reg tail total depth (base + 4 + v.length) <;> rfl

/-- An IE written out octet by octet. -/
theorem cons_eq_ieOctets {t1 t2 l1 l2 : Byte} {v : Bytes} (hv : v.length = l1.toNat * 256 + l2.toNat) (rest : Bytes) :
    t1 :: t2 :: l1 :: l2 :: (v ++ rest) = ieOctets (t1 ++ t2) v ++ rest := by
  have htype : beBytes 2 (t1 ++ t2 : BitVec 16).toNat = [t1, t2] := by
    rw [toNat_append_octet]
    simpa [beNat] using beBytes_beNat [t1, t2]
  have hlength : beBytes 2 v.length = [l1, l2] := by
    rw [hv]
    simpa [beNat] using beBytes_beNat [l1, l2]
  simp [ieOctets, htype, hlength]

/-! ### Where an error of a list comes from (R142, R177, R197) -/

theorem exceptMap_eq_error {α β : Type} {f : α → β} {r : Except Err α} {e : Err} (h : r.map f = .error e) :
    r = .error e := by
  cases r with
  | error e' => cases h; rfl
  | ok a => cases h

/-- A list's error is that of a bound check at its first IE, that of the first IE's value, or that of the rest. Against
the window the check fails only if there are octets behind it. -/
theorem decodeIEList_error_cases {cfg : Cfg} {reg : Registry} {b : Bytes} {total depth base : Nat} {e : Err}
    (h : decodeIEList cfg reg b total depth base = .error e) :
    e = ⟨.truncatedIE, base⟩ ∨ (e = ⟨.overrunIE, base⟩ ∧ total < b.length) ∨
    ∃ (t : BitVec 16) (v tail : Bytes) (total' : Nat),
      b = ieOctets t v ++ tail ∧ v.length ≤ 65535 ∧ total = 4 + v.length + total' ∧
      (decodeValue cfg reg t v depth base = .error e ∨
        decodeIEList cfg reg tail total' depth (base + 4 + v.length) = .error e) := by
  by_cases h0 : total = 0
  · subst h0
    cases h
  by_cases h1 : b.length < 4
  · cases (decodeIEList_truncated_header h0 h1).symm.trans h
    exact .inl rfl
  by_cases h2 : total < 4
  · cases (decodeIEList_overrun_header h0 (by omega) h2).symm.trans h
    exact .inr (.inl ⟨rfl, by omega⟩)
  by_cases h3 : b.length < 4 + (u16 b 2).toNat
  · cases (decodeIEList_truncated_value (by omega) (by omega) h3).symm.trans h
    exact .inl rfl
  by_cases h4 : total < 4 + (u16 b 2).toNat
  · cases (decodeIEList_overrun_value (by omega) (by omega) h4).symm.trans h
    exact .inr (.inl ⟨rfl, by omega⟩)
  have hL : (u16 b 2).toNat ≤ 65535 := by have := (u16 b 2).isLt; omega
  have hlen : (slice b 4 (u16 b 2).toNat).length = (u16 b 2).toNat := by rw [slice_length]; omega
  have hb := eq_ieOctets_append (b := b) (by omega) (by omega)
  generalize slice b 4 (u16 b 2).toNat = v at hb hlen
  generalize b.drop (4 + (u16 b 2).toNat) = tail at hb
  obtain ⟨total', rfl⟩ : ∃ total', total = 4 + v.length + total' := ⟨total - (4 + v.length), by omega⟩
  refine .inr (.inr ⟨u16 b 0, v, tail, total', hb, by omega, rfl, ?_⟩)
  rw [hb, decodeIEList_ieOctets_eq _ _ _ (by omega)] at h
  cases hx : decodeValue cfg reg (u16 b 0) v depth base with
  | error e' =>
    rw [hx] at h
    cases h
    exact .inl rfl
  | ok x =>
    rw [hx] at h
    exact .inr (exceptMap_eq_error h)

/-- A value's error is that of its layout, that of the depth limit, or that of the list inside it. -/
theorem decodeValue_error_cases {cfg : Cfg} {reg : Registry} {t : BitVec 16} {v : Bytes} {depth ieOff : Nat} {e : Err}
    (h : decodeValue cfg reg t v depth ieOff = .error e) :
    e = badLayout ieOff ∨ e = ⟨.depthExceeded, ieOff⟩ ∨
      decodeIEList cfg reg v v.length (depth + 1) (ieOff + 4) = .error e := by
  replace h := exceptMap_eq_error h
  unfold decodeValueWith at h
  split at h
  · cases h
  · exact .inl (decodeCause_eq_error_iff.mp (exceptMap_eq_error h)).2
  · exact .inl (decodeFTEID_eq_error_iff.mp (exceptMap_eq_error h)).2
  · exact .inl (decodeNodeID_eq_error_iff.mp (exceptMap_eq_error h)).2
  · exact .inl (decodeFSEID_eq_error_iff.mp (exceptMap_eq_error h)).2
  · replace h := exceptMap_eq_error h
    unfold decodeGroupedWith at h
    split at h
    · cases h
      exact .inr (.inl rfl)
    · exact .inr (.inr h)

/-- What an error of a list in a window can be (R142, R241, R247): of one of the four kinds, not beyond the window's end,
and of the kind OverrunIE only if there are octets behind the window. -/
structure ListErr (base total len : Nat) (e : Err) : Prop where
  kind : e.kind ∈ [.truncatedIE, .overrunIE, .invalidConditionalLayout, .depthExceeded]
  off_le : e.off ≤ base + total
  overrun : e.kind = .overrunIE → total < len

/-- A list inside a grouped IE has nothing behind its window, so an error of the inner list is one of the outer. -/
theorem listErr_of_decodeIEList {cfg : Cfg} {reg : Registry} (total : Nat) :
    ∀ (b : Bytes) (depth base : Nat) (e : Err), decodeIEList cfg reg b total depth base = .error e →
      ListErr base total b.length e := by
  induction total using Nat.strongRecOn with
  | ind total ih =>
    intro b depth base e h
    obtain rfl | ⟨rfl, hlt⟩ | ⟨t, v, tail, total', rfl, hv, rfl, hvalue | hrest⟩ := decodeIEList_error_cases h
    · exact ⟨by simp, Nat.le_add_right .., nofun⟩
    · exact ⟨by simp, Nat.le_add_right .., fun _ => hlt⟩
    · obtain rfl | rfl | hinner := decodeValue_error_cases hvalue
      · exact ⟨by simp [badLayout], Nat.le_add_right .., nofun⟩
      · exact ⟨by simp, Nat.le_add_right .., nofun⟩
      · obtain ⟨hkind, hoff, hoverrun⟩ := ih v.length (by omega) v _ _ e hinner
        exact ⟨hkind, by omega, fun hk => absurd (hoverrun hk) (lt_irrefl _)⟩
    · obtain ⟨hkind, hoff, hoverrun⟩ := ih total' (by omega) tail _ _ e hrest
      refine ⟨hkind, by omega, fun hk => ?_⟩
      have := hoverrun hk
      rw [List.length_append, ieOctets_length]
      omega

/-! ### The depth limit (R197, R198) -/

theorem decodeGrouped_of_le {cfg : Cfg} {depth : Nat} (h : cfg.maxDepth ≤ depth) (reg : Registry) (v : Bytes)
    (ieOff : Nat) : decodeGrouped cfg reg v depth ieOff = .error ⟨.depthExceeded, ieOff⟩ :=
  if_pos (by omega)

theorem encodeGrouped_of_le {cfg : Cfg} {depth : Nat} (h : cfg.maxDepth ≤ depth) (reg : Registry) (children : IEList)
    (o : Nat) : encodeGrouped cfg reg children depth o = .error ⟨.depthExceeded, o⟩ :=
  if_pos (by omega)

theorem encodeGrouped_of_lt {cfg : Cfg} {depth : Nat} (h : depth < cfg.maxDepth) (reg : Registry) (children : IEList)
    (o : Nat) : encodeGrouped cfg reg children depth o = encodeIEList cfg reg children (depth + 1) (o + 4) :=
  if_neg (by omega)

/-- Below the limit an error inside a grouped value is the value's error (R197, R249). -/
theorem decodeValue_of_grouped_error {cfg : Cfg} {reg : Registry} {t : BitVec 16} {v : Bytes} {depth ieOff : Nat}
    {e : Err} (hkind : reg.kindAt t = some .grouped) (hdepth : depth < cfg.maxDepth)
    (h : decodeIEList cfg reg v v.length (depth + 1) (ieOff + 4) = .error e) :
    decodeValue cfg reg t v depth ieOff = .error e := by
  rw [← decodeGrouped_of_lt hdepth, decodeGrouped] at h
  rw [decodeValue, decodeValueWith, hkind]
  simp only [h]
  rfl

/-- A value that decodes as a grouped one does so below the depth limit, and its children decode from its octets. -/
theorem decodeIEList_of_decodeValue_grouped {cfg : Cfg} {reg : Registry} {t : BitVec 16} {v : Bytes} {depth ieOff : Nat}
    {children : IEList} (h : decodeValue cfg reg t v depth ieOff = .ok ⟨t, .grouped children⟩) :
    depth < cfg.maxDepth ∧ decodeIEList cfg reg v v.length (depth + 1) (ieOff + 4) = .ok children := by
  obtain ⟨-, hvalue⟩ := decodeValue_ok_iff.mp h
  have hkind : reg.kindAt t = some .grouped := (decodeValueWith_variant hvalue).symm
  rw [decodeValueWith, hkind] at hvalue
  obtain ⟨children', hgrouped, heq⟩ := exceptMap_eq_ok hvalue
  cases heq
  by_cases hdepth : depth < cfg.maxDepth
  · exact ⟨hdepth, (decodeGrouped_of_lt hdepth reg v ieOff).symm.trans hgrouped⟩
  · cases (decodeGrouped_of_le (Nat.le_of_not_lt hdepth) reg v ieOff).symm.trans hgrouped

/-- A value nests no deeper than the limit allows at its depth, if a list inside it does not. -/
theorem valueNesting_of_decodeValue {cfg : Cfg} {reg : Registry} {x : IE} {v : Bytes} {depth ieOff : Nat}
    (hlist : ∀ children, decodeIEList cfg reg v v.length (depth + 1) (ieOff + 4) = .ok children →
      listNesting children + (depth + 1) ≤ max (depth + 1) cfg.maxDepth)
    (h : decodeValue cfg reg x.type v depth ieOff = .ok x) : valueNesting x.value + depth ≤ max depth cfg.maxDepth := by
  obtain ⟨t, y⟩ := x
  cases y with
  | grouped children =>
    obtain ⟨hdepth, hchildren⟩ := decodeIEList_of_decodeValue_grouped h
    have := hlist children hchildren
    rw [valueNesting]
    omega
  | _ => rw [valueNesting]; omega

/-- A decoded list holds no grouped IE deeper than the limit (R197). -/
theorem listNesting_of_decodeIEList {cfg : Cfg} {reg : Registry} (total : Nat) :
    ∀ (b : Bytes) (depth base : Nat) (ies : IEList), decodeIEList cfg reg b total depth base = .ok ies →
      listNesting ies + depth ≤ max depth cfg.maxDepth := by
  induction total using Nat.strongRecOn with
  | ind total ih =>
    intro b depth base ies h
    by_cases h0 : total = 0
    · subst h0
      cases h
      rw [listNesting]
      omega
    obtain ⟨x, v, tail, total', rest, rfl, hv, rfl, rfl, hx, hrest⟩ := decodeIEList_ok_cases h0 h
    have hvalue : valueNesting x.value + depth ≤ max depth cfg.maxDepth :=
      valueNesting_of_decodeValue (fun children hc => ih v.length (by omega) v _ _ children hc) hx
    have htail := ih total' (by omega) tail _ _ rest hrest
    rw [listNesting]
    omega

/-! ### The rows run by themselves -/

theorem exec_decodeIEList_of_error {s : State} {b : Bytes} {total depth base : Nat} {e : Err}
    (h : decodeIEList s.cfg s.registry b total depth base = .error e) :
    exec (.decodeIEList b total depth base) s = .next (raise e s) :=
  answerDecode_of_error h _ s

theorem exec_encodeIEList_of_error {s : State} {ies : IEList} {depth off : Nat} {e : Err}
    (h : encodeIEList s.cfg s.registry ies depth off = .error e) :
    exec (.encodeIEList ies depth off) s = .next (raiseEncode e s) :=
  answerEncode_of_error h _ s

theorem exec_encodeValue_of_ok {s : State} {x : IE} {depth o : Nat} {b : Bytes}
    (h : encodeValueAt s.cfg s.registry x.type x.value depth o = .ok b) :
    exec (.encodeValue x depth o) s = .next (deliverOctets b s) :=
  answerEncode_of_ok (r := encodeValue s.cfg s.registry x depth o) h _ s

theorem exec_encodeValue_of_error {s : State} {x : IE} {depth o : Nat} {e : Err}
    (h : encodeValueAt s.cfg s.registry x.type x.value depth o = .error e) :
    exec (.encodeValue x depth o) s = .next (raiseEncode e s) :=
  answerEncode_of_error (r := encodeValue s.cfg s.registry x depth o) h deliverOctets s

theorem encodeValueAt_of_variant_ne {reg : Registry} {t : BitVec 16} {v : Value} (h : variantOf v ≠ reg.kindAt t)
    (cfg : Cfg) (depth o : Nat) : encodeValueAt cfg reg t v depth o = .error ⟨.inconsistentIEValue, o⟩ := by
  rw [encodeValueAt.eq_def, if_pos h]

theorem encodeValueAt_of_unregistered {reg : Registry} {t : BitVec 16} (h : reg.kindAt t = none) (cfg : Cfg)
    (raw : Bytes) (depth o : Nat) : encodeValueAt cfg reg t (.unrecognized raw) depth o = .ok raw := by
  rw [encodeValueAt.eq_def, if_neg (by rw [h]; exact not_not.mpr rfl)]

theorem decodeValue_of_unregistered {reg : Registry} {t : BitVec 16} (h : reg.kindAt t = none) (cfg : Cfg)
    (raw : Bytes) (depth ieOff : Nat) : decodeValue cfg reg t raw depth ieOff = .ok ⟨t, .unrecognized raw⟩ := by
  rw [decodeValue, decodeValueWith, h]
  rfl

/-! ### The obligations -/

/-- Settles O38: a bound check fails at the IE where it is made; a value's error is its list's; whole IEs before an IE
shift its error, and a window that goes on behind them finds no header there. -/
theorem listBoundChecks : Obligations.ListBoundChecks := by
  refine ⟨fun s b rest t1 t2 l1 l2 total depth base h0 => ⟨fun hb => ?_, fun hb ht => ?_, fun ht hL => ?_,
      fun ht hb hL => ?_⟩, fun s v rest t1 t2 l1 l2 total depth base e hkind hdepth hv htotal herr => ?_,
    fun s b1 b2 ies total depth base e hok herr => ?_, fun s b ies total depth base hok hlt => ?_⟩
  · exact ⟨_, exec_decodeIEList_of_error (decodeIEList_truncated_header h0 hb), rfl, rfl⟩
  · exact ⟨_, exec_decodeIEList_of_error (decodeIEList_overrun_header h0 hb ht), rfl, rfl⟩
  · refine ⟨_, exec_decodeIEList_of_error (decodeIEList_truncated_value ?_ ht ?_), rfl, rfl⟩
    · simp only [List.length_cons]; omega
    · rw [u16_two_cons, toNat_append_octet]; simp only [List.length_cons]; omega
  · refine ⟨_, exec_decodeIEList_of_error (decodeIEList_overrun_value ht ?_ ?_), rfl, rfl⟩
    · rw [u16_two_cons, toNat_append_octet]; simp only [List.length_cons]; omega
    · rw [u16_two_cons, toNat_append_octet]; exact hL
  · have hvalue := decodeValue_of_grouped_error hkind hdepth herr
    have hlen : v.length ≤ 65535 := by have := l1.isLt; have := l2.isLt; omega
    obtain ⟨total', rfl⟩ := Nat.exists_eq_add_of_le htotal
    refine ⟨_, exec_decodeIEList_of_error (e := e) ?_, rfl, rfl⟩
    rw [cons_eq_ieOctets hv, decodeIEList_ieOctets_eq _ _ _ hlen, hvalue]
    rfl
  · refine ⟨_, exec_decodeIEList_of_error (e := e) ?_, rfl, rfl⟩
    rw [decodeIEList_append s.cfg s.registry b2 total depth _ b1 base ies rfl hok, herr]
    rfl
  · obtain ⟨more, rfl⟩ := Nat.exists_eq_add_of_le hlt.le
    have hend : decodeIEList s.cfg s.registry [] more depth (base + b.length) = .error ⟨.truncatedIE, base + b.length⟩ :=
      decodeIEList_truncated_header (by omega) (by simp)
    have happend := decodeIEList_append s.cfg s.registry [] more depth _ b base ies rfl hok
    rw [List.append_nil, hend] at happend
    exact ⟨_, exec_decodeIEList_of_error happend, rfl, rfl⟩

/-- Settles O39: the window of a grouped IE's list is all the octets there are. -/
theorem noOverrunInsideGrouped : Obligations.NoOverrunInsideGrouped := by
  intro cfg reg v depth off e
  have hlist : ∀ d o, decodeIEList cfg reg v v.length d o = .error e → e.kind ≠ .overrunIE := fun d o h hk =>
    absurd ((listErr_of_decodeIEList v.length v d o e h).overrun hk) (lt_irrefl _)
  refine ⟨hlist depth off, fun h => ?_⟩
  by_cases hdepth : depth < cfg.maxDepth
  · rw [decodeGrouped_of_lt hdepth] at h
    exact hlist _ _ h
  · cases (decodeGrouped_of_le (Nat.le_of_not_lt hdepth) reg v off).symm.trans h
    exact nofun

/-- Settles O40: by induction on the window, IE by IE. -/
theorem decodedListFillsWindow : Obligations.DecodedListFillsWindow := by
  intro s b total depth base ies h
  obtain ⟨hsize, hle⟩ := listSize_of_decodeIEList total b depth base ies h
  exact ⟨hsize, hle, listNesting_of_decodeIEList total b depth base ies h, _, exec_decodeIEList_of_ok h, toNat_ofNat_cur⟩

/-- Settles O42: encodable lists and values encode, and what is encoded has the size R148 counts. -/
theorem encodableOperandsComplete : Obligations.EncodableOperandsComplete := by
  intro s ies x depth off
  refine ⟨fun hlist => ?_, fun hvalue => ?_, fun hlist hdepth => ?_⟩
  · obtain ⟨b, hb⟩ := (exists_encodeIEList_iff s.cfg s.registry ies depth off).mpr hlist
    exact ⟨b, exec_encodeIEList_of_ok hb, encodeIEList_length _ _ _ _ _ b hb⟩
  · obtain ⟨b, hb, -⟩ := (exists_encodeValueAt_iff s.cfg s.registry x.type x.value depth off).mpr hvalue
    exact ⟨b, exec_encodeValue_of_ok hb, encodeValueAt_length _ _ _ _ _ _ b hb⟩
  · obtain ⟨b, hb⟩ := (exists_encodeIEList_iff s.cfg s.registry ies (depth + 1) (off + 4)).mpr hlist
    have hgrouped := (encodeGrouped_of_lt hdepth s.registry ies off).trans hb
    exact ⟨b, answerEncode_of_ok hgrouped deliverOctets s, answerEncode_of_ok hgrouped deliverOctets s,
      encodeIEList_length _ _ _ _ _ b hb⟩

/-- Settles O43: the encoder's turn, with the octets of the value counted. -/
theorem emittedLengthFieldIsValueSize : Obligations.EmittedLengthFieldIsValueSize := by
  intro cfg reg t v rest depth off b h
  obtain ⟨vb, rb, hvb, hlen, hrb, rfl⟩ := encodeIEList_cons_ok_iff.mp h
  have hsize := encodeValueAt_length cfg reg t v depth off vb hvb
  rw [← hsize]
  exact ⟨vb, rb, rfl, rfl, u16_two_ieOctets t rb hlen, hvb, hrb⟩

/-- Settles O44: without a registry entry a value is its octets, both ways. -/
theorem unregisteredTypesPassThrough : Obligations.UnregisteredTypesPassThrough := fun _ _ raw depth off h =>
  ⟨exec_decodeValue_of_ok (decodeValue_of_unregistered h _ raw depth off),
    exec_encodeValue_of_ok (encodeValueAt_of_unregistered h _ raw depth off)⟩

/-- Settles O46: the variant check is the encoder's first. -/
theorem wrongVariantRefused : Obligations.WrongVariantRefused := fun s _ depth o h =>
  ⟨_, exec_encodeValue_of_error (encodeValueAt_of_variant_ne h s.cfg depth o), rfl, rfl, rfl, rfl⟩

/-- Settles O47: the depth check is the first of either direction. -/
theorem depthLimit : Obligations.DepthLimit := by
  intro s v children depth off i hdepth hi
  have hdecode := decodeGrouped_of_le hdepth s.registry v off
  have hencode := encodeGrouped_of_le hdepth s.registry children off
  obtain rfl | rfl | rfl | rfl := hi
  · exact ⟨_, answerDecode_of_error hdecode _ s, rfl, rfl, rfl, rfl⟩
  · exact ⟨_, answerDecode_of_error hdecode _ s, rfl, rfl, rfl, rfl⟩
  · exact ⟨_, answerEncode_of_error hencode deliverOctets s, rfl, rfl, rfl, rfl⟩
  · exact ⟨_, answerEncode_of_error hencode deliverOctets s, rfl, rfl, rfl, rfl⟩

end Sys2Proof.Machine
end

section
/-! DECODE and ENCODE as commands (`spec/45_codec_top.md` R221 to R230, `spec/60_exceptions.md` R241, R246, R247): which
error each ends with, what of the input and of the state a result depends on, and the working registers at the end. -/

namespace Sys2Proof.Machine

/-! ### The errors of DECODE (R221, R222, R241) -/

theorem decodeMessage_of_list_error {cfg : Cfg} {reg : Registry} {input : Bytes} {d : DecodedHeader} {e : Err}
    (hd : decodeHeader input = .ok d) (hlength : d.size - 4 ≤ d.length.toNat)
    (h : decodeIEList cfg reg (input.drop d.size) (d.length.toNat - (d.size - 4)) 0 d.size = .error e) :
    decodeMessage cfg reg input = .error e := by
  rw [decodeMessage, hd]
  simp only
  rw [if_neg (by omega), h]

theorem decodeMessage_error_cases {cfg : Cfg} {reg : Registry} {input : Bytes} {e : Err}
    (h : decodeMessage cfg reg input = .error e) : e = ⟨.truncatedHeader, 0⟩ ∨
      ∃ d, decodeHeader input = .ok d ∧ d.size - 4 ≤ d.length.toNat ∧
        decodeIEList cfg reg (input.drop d.size) (d.length.toNat - (d.size - 4)) 0 d.size = .error e := by
  cases hd : decodeHeader input with
  | error e' =>
    cases (decodeMessage_of_header_error hd).symm.trans h
    exact .inl (err_of_decodeHeader hd)
  | ok d =>
    by_cases hlength : d.length.toNat < d.size - 4
    · have hshort : ∀ d', decodeHeader input = .ok d' → d'.length.toNat < d'.size - 4 := fun d' hd' => by
        cases hd.symm.trans hd'
        exact hlength
      cases (decodeMessage_of_short_length hshort).symm.trans h
      exact .inl rfl
    · cases hies : decodeIEList cfg reg (input.drop d.size) (d.length.toNat - (d.size - 4)) 0 d.size with
      | error e' =>
        cases (decodeMessage_of_list_error hd (Nat.le_of_not_lt hlength) hies).symm.trans h
        exact .inr ⟨d, rfl, Nat.le_of_not_lt hlength, hies⟩
      | ok ies => cases (decodeMessage_ok_iff.mpr ⟨d, ies, hd, Nat.le_of_not_lt hlength, hies, rfl⟩).symm.trans h

/-- The kinds of R241 on the decode side, and the bound of R247: the window of the body ends at `4 + length`. -/
theorem err_of_decodeMessage {cfg : Cfg} {reg : Registry} {input : Bytes} {e : Err}
    (h : decodeMessage cfg reg input = .error e) :
    e.kind ∈ [.truncatedHeader, .truncatedIE, .overrunIE, .invalidConditionalLayout, .depthExceeded] ∧
      e.off ≤ 65539 := by
  obtain rfl | ⟨d, hd, hlength, hies⟩ := decodeMessage_error_cases h
  · simp
  · obtain ⟨-, -, hsize⟩ := decodeHeader_size hd
    obtain ⟨hkind, hoff, -⟩ := listErr_of_decodeIEList _ _ _ _ _ hies
    have hmax := d.length.isLt
    exact ⟨List.mem_cons_of_mem _ hkind, by omega⟩

/-! ### The errors of ENCODE (R223, R224, R241) -/

theorem encodeMessage_of_list_error {cfg : Cfg} {reg : Registry} {m : Message} {e : Err}
    (h : encodeIEList cfg reg m.ies 0 (headerSize m.hdr) = .error e) : encodeMessage cfg reg m = .error e := by
  simp only [encodeMessage, h]

theorem encodeMessage_of_long {cfg : Cfg} {reg : Registry} {m : Message} {body : Bytes}
    (h : encodeIEList cfg reg m.ies 0 (headerSize m.hdr) = .ok body) (hlong : 65535 < headerRest m.hdr + body.length) :
    encodeMessage cfg reg m = .error ⟨.lengthOverflow, 0⟩ := by
  simp only [encodeMessage, h]
  exact if_pos hlong

theorem encodeMessage_error_cases {cfg : Cfg} {reg : Registry} {m : Message} {e : Err}
    (h : encodeMessage cfg reg m = .error e) :
    e = ⟨.lengthOverflow, 0⟩ ∨ encodeIEList cfg reg m.ies 0 (headerSize m.hdr) = .error e := by
  cases hbody : encodeIEList cfg reg m.ies 0 (headerSize m.hdr) with
  | error e' =>
    cases (encodeMessage_of_list_error hbody).symm.trans h
    exact .inr rfl
  | ok body =>
    by_cases hlong : 65535 < headerRest m.hdr + body.length
    · cases (encodeMessage_of_long hbody hlong).symm.trans h
      exact .inl rfl
    · cases (encodeMessage_ok_iff.mpr ⟨body, hbody, Nat.le_of_not_lt hlong, rfl⟩).symm.trans h

section ListEncoder

variable {cfg : Cfg} {reg : Registry} {t : BitVec 16} {v : Value} {depth off : Nat}

theorem encodeIEList_cons_of_value_error {e : Err} (h : encodeValueAt cfg reg t v depth off = .error e)
    (rest : IEList) : encodeIEList cfg reg (.cons t v rest) depth off = .error e := by
  rw [encodeIEList, h]

theorem encodeIEList_cons_of_long {vb : Bytes} (h : encodeValueAt cfg reg t v depth off = .ok vb)
    (hlong : 65535 < vb.length) (rest : IEList) :
    encodeIEList cfg reg (.cons t v rest) depth off = .error ⟨.lengthOverflow, off⟩ := by
  rw [encodeIEList, h]
  exact if_pos hlong

theorem encodeIEList_cons_error_cases {rest : IEList} {e : Err}
    (h : encodeIEList cfg reg (.cons t v rest) depth off = .error e) :
    encodeValueAt cfg reg t v depth off = .error e ∨ e = ⟨.lengthOverflow, off⟩ ∨
      ∃ off', encodeIEList cfg reg rest depth off' = .error e := by
  rw [encodeIEList] at h
  split at h
  next e' hv => cases h; exact .inl hv
  next vb hv =>
  split at h
  next => cases h; exact .inr (.inl rfl)
  next =>
  split at h
  next e' hrest => cases h; exact .inr (.inr ⟨_, hrest⟩)
  next => cases h

theorem encodeValueAt_grouped {children : IEList} (hkind : reg.kindAt t = some .grouped) (hdepth : depth < cfg.maxDepth)
    (o : Nat) :
    encodeValueAt cfg reg t (.grouped children) depth o = encodeIEList cfg reg children (depth + 1) (o + 4) := by
  rw [encodeValueAt.eq_def, if_neg (by rw [hkind]; exact not_not.mpr rfl)]
  exact if_neg (by omega)

end ListEncoder

mutual

/-- The kinds of R241 on the encode side, in a value. -/
theorem kind_of_encodeValueAt_error (cfg : Cfg) (reg : Registry) (t : BitVec 16) (v : Value) (depth o : Nat) (e : Err)
    (h : encodeValueAt cfg reg t v depth o = .error e) :
    e.kind ∈ [.inconsistentIEValue, .depthExceeded, .lengthOverflow] := by
  rw [encodeValueAt.eq_def] at h
  split at h
  · cases h; simp
  cases v with
  | unrecognized | cause | nodeId => cases h
  | fteid f => obtain ⟨-, rfl⟩ := ite_error_eq_error_iff.mp h; simp
  | fseid x => obtain ⟨-, rfl⟩ := ite_error_eq_error_iff.mp h; simp
  | grouped children =>
    simp only at h
    split at h
    · cases h; simp
    · exact kind_of_encodeIEList_error cfg reg children (depth + 1) (o + 4) e h

/-- The kinds of R241 on the encode side, in a list. -/
theorem kind_of_encodeIEList_error (cfg : Cfg) (reg : Registry) (ies : IEList) (depth off : Nat) (e : Err)
    (h : encodeIEList cfg reg ies depth off = .error e) :
    e.kind ∈ [.inconsistentIEValue, .depthExceeded, .lengthOverflow] := by
  cases ies with
  | nil => rw [encodeIEList] at h; cases h
  | cons t v rest =>
    obtain hv | rfl | ⟨off', hrest⟩ := encodeIEList_cons_error_cases h
    · exact kind_of_encodeValueAt_error cfg reg t v depth off e hv
    · simp
    · exact kind_of_encodeIEList_error cfg reg rest depth off' e hrest

end

theorem kind_of_encodeMessage_error {cfg : Cfg} {reg : Registry} {m : Message} {e : Err}
    (h : encodeMessage cfg reg m = .error e) : e.kind ∈ [.inconsistentIEValue, .depthExceeded, .lengthOverflow] := by
  obtain rfl | hlist := encodeMessage_error_cases h
  · simp
  · exact kind_of_encodeIEList_error _ _ _ _ _ _ hlist

/-! ### Two commands with one outcome -/

section Agreement

variable {s s' : State} (hrun : s.phase = .run) (hrun' : s'.phase = .run)
include hrun hrun'

/-- In RUN, result and STATUS of a DECODE are functions of what the pure function of R221 answers. -/
theorem exec_decode_agree {b b' : Bytes}
    (hsame : decodeMessage s.cfg s.registry b = decodeMessage s'.cfg s'.registry b') :
    ∃ t t', exec (.decode b) s = .next t ∧ exec (.decode b') s' = .next t' ∧ t.result = t'.result ∧
      t.status = t'.status := by
  cases hd : decodeMessage s.cfg s.registry b with
  | error e =>
    exact ⟨_, _, exec_decode_of_error hrun hd, exec_decode_of_error hrun' (hsame.symm.trans hd), rfl, rfl⟩
  | ok r => exact ⟨_, _, exec_decode_of_ok hrun hd, exec_decode_of_ok hrun' (hsame.symm.trans hd), rfl, rfl⟩

/-- In RUN, result and STATUS of an ENCODE are functions of what the pure function of R223 answers. -/
theorem exec_encode_agree {m m' : Message}
    (hsame : encodeMessage s.cfg s.registry m = encodeMessage s'.cfg s'.registry m') :
    ∃ t t', exec (.encode m) s = .next t ∧ exec (.encode m') s' = .next t' ∧ t.result = t'.result ∧
      t.status = t'.status := by
  cases he : encodeMessage s.cfg s.registry m with
  | error e =>
    exact ⟨_, _, exec_encode_of_error hrun he, exec_encode_of_error hrun' (hsame.symm.trans he), rfl, rfl⟩
  | ok out => exact ⟨_, _, exec_encode_of_ok hrun he, exec_encode_of_ok hrun' (hsame.symm.trans he), rfl, rfl⟩

end Agreement

/-! ### What a DECODE reads of its input (R230) -/

theorem decodeHeader_append {b : Bytes} {d : DecodedHeader} (h : decodeHeader b = .ok d) (rest : Bytes) :
    decodeHeader (b ++ rest) = .ok d := by
  have hd := decodeHeader_take_append h (b.drop d.size ++ rest)
  rwa [← List.append_assoc, List.take_append_drop] at hd

/-- DECODE is a function of the header and of the list behind it. -/
theorem decodeMessage_congr {cfg : Cfg} {reg : Registry} {b b' : Bytes} {d : DecodedHeader}
    (hd : decodeHeader b = .ok d) (hd' : decodeHeader b' = .ok d)
    (hlist : decodeIEList cfg reg (b.drop d.size) (d.length.toNat - (d.size - 4)) 0 d.size =
      decodeIEList cfg reg (b'.drop d.size) (d.length.toNat - (d.size - 4)) 0 d.size) :
    decodeMessage cfg reg b = decodeMessage cfg reg b' := by
  simp only [decodeMessage, hd, hd', hlist]

/-- A list that decodes does so from its window, with any octets after it. -/
theorem decodeIEList_take_append {cfg : Cfg} {reg : Registry} (extra : Bytes) (total : Nat) :
    ∀ (b : Bytes) (depth base : Nat) (ies : IEList), decodeIEList cfg reg b total depth base = .ok ies →
      decodeIEList cfg reg (b.take total ++ extra) total depth base = .ok ies := by
  induction total using Nat.strongRecOn with
  | ind total ih =>
    intro b depth base ies h
    by_cases h0 : total = 0
    · subst h0
      exact h
    obtain ⟨x, v, tail, total', rest, rfl, hv, rfl, rfl, hx, hrest⟩ := decodeIEList_ok_cases h0 h
    rw [← ieOctets_length x.type v, List.take_length_add_append, ieOctets_length, List.append_assoc]
    exact decodeIEList_ieOctets cfg reg x.type hv _ total' depth base hx (ih total' (by omega) tail depth _ rest hrest)

/-- R230 for a delivered Message: it lies inside the buffer, and the octets after it are not read. -/
theorem decodeMessage_take_append {cfg : Cfg} {reg : Registry} {input : Bytes} {r : DecodeOk}
    (h : decodeMessage cfg reg input = .ok r) (extra : Bytes) :
    r.consumed ≤ input.length ∧ decodeMessage cfg reg (input.take r.consumed ++ extra) = .ok r := by
  obtain ⟨d, ies, hd, hlength, hies, rfl⟩ := decodeMessage_ok_iff.mp h
  obtain ⟨-, hheader, hsize⟩ := decodeHeader_size hd
  obtain ⟨-, hwindow⟩ := listSize_of_decodeIEList _ _ _ _ _ hies
  rw [List.length_drop] at hwindow
  have hlist := decodeIEList_take_append extra _ _ _ _ _ hies
  generalize htotal : d.length.toNat - (d.size - 4) = total at hies hwindow hlist
  have hconsumed : (decodedResult cfg ⟨d.hdr, ies⟩ d.length).consumed = d.size + total := by
    change 4 + d.length.toNat = _
    omega
  rw [hconsumed]
  have hinput : input.take (d.size + total) ++ extra = input.take d.size ++ ((input.drop d.size).take total ++ extra) := by
    rw [List.take_add, List.append_assoc]
  have hdrop : (input.take (d.size + total) ++ extra).drop d.size = (input.drop d.size).take total ++ extra := by
    rw [hinput, List.drop_left' (List.length_take_of_le hheader)]
  refine ⟨by omega, decodeMessage_ok_iff.mpr ⟨d, ies, ?_, hlength, ?_, rfl⟩⟩
  · rw [hinput]
    exact decodeHeader_take_append hd _
  · rw [hdrop, htotal]
    exact hlist

/-- A buffer without a whole header is shorter than the shape its S bit selects. -/
theorem length_of_decodeHeader_error {b : Bytes} {e : Err} (h : decodeHeader b = .error e) :
    b.length < if selectS b then 16 else 8 := by
  cases hS : selectS b with
  | false =>
    rw [decodeHeader_of_node hS] at h
    split at h
    · assumption
    · cases h
  | true =>
    rw [decodeHeader_of_session hS] at h
    split at h
    · assumption
    · cases h

/-- A message whose length field counts it to its end but that ends inside its own header is refused, with any octets
after it. -/
theorem decodeMessage_append_of_header_error {cfg : Cfg} {reg : Registry} {message : Bytes} {e : Err}
    (hmessage : message.length = 4 + (u16 message 2).toNat) (h : decodeHeader message = .error e) (extra : Bytes) :
    decodeMessage cfg reg (message ++ extra) = .error ⟨.truncatedHeader, 0⟩ := by
  have hshort := length_of_decodeHeader_error h
  have hS : u8 (message ++ extra) 0 = u8 message 0 := by rw [u8, memRead_append_left (by omega), u8]
  have hL : u16 (message ++ extra) 2 = u16 message 2 := by rw [u16, memRead_append_left (by omega), u16]
  refine decodeMessage_of_short_length fun d hd => ?_
  rw [size_of_decodeHeader hd, length_of_decodeHeader hd, hS, hL]
  change message.length < (if (u8 message 0).getLsbD 0 then 16 else 8) at hshort
  omega

/-- R230 however DECODE ends: the octets at or beyond `4 + length` count by their number alone. -/
theorem decodeMessage_append_congr {cfg : Cfg} {reg : Registry} {message extra extra' : Bytes}
    (hmessage : message.length = 4 + (u16 message 2).toNat) (hextra : extra.length = extra'.length) :
    decodeMessage cfg reg (message ++ extra) = decodeMessage cfg reg (message ++ extra') := by
  cases hd : decodeHeader message with
  | error e =>
    rw [decodeMessage_append_of_header_error hmessage hd, decodeMessage_append_of_header_error hmessage hd]
  | ok d =>
    obtain ⟨-, hheader, hsize⟩ := decodeHeader_size hd
    have hlength := length_of_decodeHeader hd
    refine decodeMessage_congr (decodeHeader_append hd extra) (decodeHeader_append hd extra') ?_
    have hwindow : (message.drop d.size).length = d.length.toNat - (d.size - 4) := by
      rw [List.length_drop, hlength]
      omega
    rw [List.drop_append_of_le_length hheader, List.drop_append_of_le_length hheader]
    refine decodeIEList_window cfg reg _ _ _ 0 d.size (by simp [hextra]) ?_
    rw [List.take_left' hwindow, List.take_left' hwindow]

/-! ### What a result depends on (R25, R64, R168) -/

theorem decodeIEListFuel_congr_kinds {reg reg' : Registry} (hkinds : ∀ t, reg.kindAt t = reg'.kindAt t) (cfg : Cfg)
    (n : Nat) : decodeIEListFuel cfg reg n = decodeIEListFuel cfg reg' n := by
  induction n with
  | zero => rfl
  | succ n ih =>
    funext b total depth pos
    simp only [decodeIEListFuel, decodeValueWith, hkinds, ih]

theorem decodeMessage_congr_kinds {reg reg' : Registry} (hkinds : ∀ t, reg.kindAt t = reg'.kindAt t) (cfg : Cfg)
    (input : Bytes) : decodeMessage cfg reg input = decodeMessage cfg reg' input := by
  simp only [decodeMessage, decodeIEList, decodeIEListFuel_congr_kinds hkinds]

mutual

theorem encodeValueAt_congr_kinds {reg reg' : Registry} (hkinds : ∀ t, reg.kindAt t = reg'.kindAt t) (cfg : Cfg)
    (t : BitVec 16) (v : Value) (depth o : Nat) :
    encodeValueAt cfg reg t v depth o = encodeValueAt cfg reg' t v depth o := by
  rw [encodeValueAt.eq_def, encodeValueAt.eq_def, hkinds]
  cases v with
  | grouped children => simp only [encodeIEList_congr_kinds hkinds cfg children]
  | _ => rfl

theorem encodeIEList_congr_kinds {reg reg' : Registry} (hkinds : ∀ t, reg.kindAt t = reg'.kindAt t) (cfg : Cfg)
    (ies : IEList) (depth off : Nat) : encodeIEList cfg reg ies depth off = encodeIEList cfg reg' ies depth off := by
  cases ies with
  | nil => rw [encodeIEList, encodeIEList]
  | cons t v rest =>
    simp only [encodeIEList, encodeValueAt_congr_kinds hkinds cfg t v, encodeIEList_congr_kinds hkinds cfg rest]

end

theorem encodeMessage_congr_kinds {reg reg' : Registry} (hkinds : ∀ t, reg.kindAt t = reg'.kindAt t) (cfg : Cfg)
    (m : Message) : encodeMessage cfg reg m = encodeMessage cfg reg' m := by
  simp only [encodeMessage, encodeIEList_congr_kinds hkinds]

/-! ### The working registers of DECODE (R22, R23) -/

/-- The registers where the body begins: `CUR` behind the header, `DEPTH` 0, the body's window alone on the stack. -/
def Work.atBody (w : Work) (size total : Nat) : Work :=
  { w with cur := BitVec.ofNat 17 size, depth := 0, win := [BitVec.ofNat 17 (size + total)] }

theorem Work.jump_jump_eq_atBody (w : Work) {size : Nat} (total : Nat) (h : size < 2 ^ 17) :
    ({ (w.jump 0).jump size with
      depth := 0, win := [BitVec.ofNat 17 (((w.jump 0).jump size).cur.toNat + total)] } : Work) = w.atBody size total := by
  rw [Work.jump_cur _ h]
  rfl

theorem microDecodeList_atBody (cfg : Cfg) (reg : Registry) (input : Bytes) (w : Work) {size total : Nat}
    (h : size + total < 2 ^ 17) :
    microDecodeList cfg reg input total (w.atBody size total) =
      (decodeIEList cfg reg (input.drop size) total 0 size).map
        (fun ies => (ies, (w.atBody size total).jump (size + total))) := by
  have hcur : (w.atBody size total).cur.toNat = size := Nat.mod_eq_of_lt (by omega)
  have hstop : (w.atBody size total).stop = size + total := Nat.mod_eq_of_lt h
  have hbuffer : (w.atBody size total).buffer input = input.drop size := by
    rw [Work.buffer, hcur]
    simp [Work.atBody]
  have hok : (w.atBody size total).ok input := ⟨rfl, by omega, fun hdepth => absurd rfl hdepth⟩
  have heq := microDecodeList_eq cfg reg input total _ hok (by omega)
  rwa [hbuffer, hcur, hstop, Nat.add_sub_cancel_left] at heq

/-- The registers at the end of a DECODE that consumed this many octets. -/
def Work.afterDecode (w : Work) (consumed : Nat) : Work :=
  { w with cur := BitVec.ofNat 17 consumed, depth := 0, win := [BitVec.ofNat 17 consumed] }

theorem work_of_microDecode {cfg : Cfg} {reg : Registry} {input : Bytes} {w w' : Work} {r : DecodeOk}
    (h : microDecode cfg reg input w = .ok (r, w')) : w' = w.afterDecode r.consumed := by
  have hmessage := microDecode_eq cfg reg input w
  rw [h] at hmessage
  obtain ⟨d, ies, hd, hlength, hies, rfl⟩ := decodeMessage_ok_iff.mp hmessage.symm
  obtain ⟨-, -, hsize⟩ := decodeHeader_size hd
  have hmax := d.length.isLt
  have hconsumed : d.size + (d.length.toNat - (d.size - 4)) = 4 + d.length.toNat := by omega
  simp only [microDecode, hd] at h
  rw [if_neg (by omega), Work.jump_jump_eq_atBody w _ (by omega), microDecodeList_atBody cfg reg input w (by omega),
    hies, hconsumed] at h
  obtain ⟨-, rfl⟩ := Prod.mk.inj (Except.ok.inj h)
  change (w.atBody d.size _).jump (4 + d.length.toNat) = w.afterDecode (4 + d.length.toNat)
  rw [Work.atBody, hconsumed]
  rfl

/-! ### The working registers of ENCODE (R24, R146) -/

/-- ENCODE's registers behind a header with its length field still open. -/
def Work.atEncodeBody (w : Work) (size : Nat) : Work := { w with ocur := size, depth := 0, patch := [2] }

/-- The registers at the end of an ENCODE that emitted this many octets. -/
def Work.afterEncode (w : Work) (emitted : Nat) : Work := { w with ocur := emitted, depth := 0, patch := [] }

theorem emit_encodeHeader (h : Header) (w : Work) :
    emit (encodeHeader h 0#16) ([], { w with ocur := 0, depth := 0, patch := [2] }) =
      (encodeHeader h 0#16, w.atEncodeBody (headerSize h)) := by
  simp [emit, Work.atEncodeBody]

theorem microEncodeList_atEncodeBody (cfg : Cfg) (reg : Registry) (ies : IEList) {header : Bytes} {size : Nat}
    (hsize : header.length = size) (w : Work) :
    microEncodeList cfg reg ies (header, w.atEncodeBody size) =
      (encodeIEList cfg reg ies 0 size).map (fun body => (header ++ body, w.atEncodeBody (size + body.length))) :=
  microEncodeList_eq cfg reg ies (header, w.atEncodeBody size) hsize.symm

theorem work_of_microEncode {cfg : Cfg} {reg : Registry} {m : Message} {w w' : Work} {out : Bytes}
    (h : microEncode cfg reg m w = .ok (out, w')) : w' = w.afterEncode out.length := by
  have hmessage := microEncode_eq cfg reg m w
  rw [h] at hmessage
  obtain ⟨body, hbody, -, hout⟩ := encodeMessage_ok_iff.mp hmessage.symm
  have hlen : out.length = headerSize m.hdr + body.length := by
    rw [show out = _ from hout, List.length_append, encodeHeader_length]
  rw [microEncode, emit_encodeHeader] at h
  simp only [microEncodeList_atEncodeBody cfg reg m.ies (encodeHeader_length m.hdr 0#16), hbody, Except.map] at h
  split at h
  · cases h
  · obtain ⟨-, rfl⟩ := Prod.mk.inj (Except.ok.inj h)
    rw [hlen]
    rfl

/-! ### The obligations -/

/-- Settles O49: the pure function of R221 on each outcome of its header and its list, delivered by the command. -/
theorem decodeResult : Obligations.DecodeResult := by
  refine ⟨fun s input d ies hrun hd hlength hies => ?_, fun s input e hrun herr => ?_⟩
  · have hok := decodeMessage_ok_iff.mpr ⟨d, ies, hd, hlength, hies, rfl⟩
    exact ⟨_, _, exec_decode_of_ok hrun hok, rfl, rfl, rfl, rfl, rfl, rfl, rfl, rfl⟩
  · have hmessage : decodeMessage s.cfg s.registry input = .error e := by
      obtain hd | ⟨d, hd, hlength, hies⟩ := herr
      · exact decodeMessage_of_header_error hd
      · exact decodeMessage_of_list_error hd hlength hies
    exact ⟨_, exec_decode_of_error hrun hmessage, rfl, rfl, rfl, rfl, rfl, rfl, rfl⟩

/-- Settles O54: header and window end with the message, and behind it only the number of octets enters a check. -/
theorem decodeReadsOnlyTheMessage : Obligations.DecodeReadsOnlyTheMessage := by
  refine ⟨fun s t input extra r hrun h hr => ?_, fun s message extra extra' hrun hmessage hextra => ?_⟩
  · obtain ⟨hdecode, hstatus⟩ := decodeMessage_of_exec_decode hrun h hr
    obtain ⟨hinside, hextra⟩ := decodeMessage_take_append hdecode extra
    obtain ⟨d, ies, -, -, -, rfl⟩ := decodeMessage_ok_iff.mp hdecode
    exact ⟨rfl, hinside, _, exec_decode_of_ok hrun hextra, rfl, hstatus.symm⟩
  · exact exec_decode_agree hrun hrun (decodeMessage_append_congr hmessage hextra)

/-- Settles O55: the pure functions read of the registry its kinds alone, and the commands add the phase. -/
theorem resultsDependOnlyOnRegistryKinds : Obligations.ResultsDependOnlyOnRegistryKinds := by
  intro s s' i hi hphase hcfg hkinds
  cases hrun : s.phase with
  | init =>
    have hrun' := hphase.symm.trans hrun
    obtain ⟨input, rfl⟩ | ⟨m, rfl⟩ := hi
    · exact ⟨_, _, execDecode_init hrun input, execDecode_init hrun' input, rfl, rfl⟩
    · exact ⟨_, _, execEncode_init hrun m, execEncode_init hrun' m, rfl, rfl⟩
  | run =>
    have hrun' := hphase.symm.trans hrun
    obtain ⟨input, rfl⟩ | ⟨m, rfl⟩ := hi
    · exact exec_decode_agree hrun hrun' (hcfg ▸ decodeMessage_congr_kinds hkinds s.cfg input)
    · exact exec_encode_agree hrun hrun' (hcfg ▸ encodeMessage_congr_kinds hkinds s.cfg m)

/-- Settles O57: the kinds of the pure functions and NotInitialised, with R241's code of each. -/
theorem errorKindsBySide : Obligations.ErrorKindsBySide := by
  refine ⟨fun s t input e h hr => ?_, fun s t m e h hr => ?_⟩
  · cases exec_decode_instrEffect h with
    | decoded => cases hr
    | internal hi => cases hi
    | decodeRaised _ _ herr =>
      cases hr
      obtain ⟨-, rfl⟩ | ⟨-, herr⟩ := herr
      · simp [Err.status, errCode]
      · obtain ⟨hkind, hoff⟩ := err_of_decodeMessage herr
        simp only [List.mem_cons, List.not_mem_nil, or_false] at hkind
        obtain hk | hk | hk | hk | hk := hkind <;> simp [hk, hoff, errCode]
  · cases exec_encode_instrEffect h with
    | encoded => cases hr
    | internal hi => cases hi
    | encodeRaised _ _ herr =>
      cases hr
      obtain ⟨-, rfl⟩ | ⟨-, herr⟩ := herr
      · simp [Err.status, errCode]
      · have hkind := kind_of_encodeMessage_error herr
        simp only [List.mem_cons, List.not_mem_nil, or_false] at hkind
        obtain hk | hk | hk := hkind <;> simp [hk, errCode]

/-- Settles O58: `CUR` goes from the header's end to the window's end, which is where the message ends. -/
theorem decodeRegistersAtEnd : Obligations.DecodeRegistersAtEnd := by
  intro cfg reg input w
  refine ⟨microDecode_eq cfg reg input w, fun r w' h => ?_⟩
  have hmessage := microDecode_eq cfg reg input w
  rw [h] at hmessage
  obtain ⟨d, ies, -, -, -, rfl⟩ := decodeMessage_ok_iff.mp hmessage.symm
  obtain rfl := work_of_microDecode h
  have hmax : 4 + d.length.toNat ≤ 65539 := by have := d.length.isLt; omega
  exact ⟨toNat_ofNat_cur hmax, rfl, rfl, rfl, rfl, rfl⟩

/-- Settles O59: the body adds to `OCUR` what it emits and closes every length field it opens; the header's is closed
last. -/
theorem encodeRegistersAtEnd : Obligations.EncodeRegistersAtEnd := by
  intro cfg reg m w
  refine ⟨microEncode_eq cfg reg m w, fun out w' h => ?_⟩
  obtain rfl := work_of_microEncode h
  exact ⟨rfl, rfl, rfl, rfl, rfl⟩

/-- Settles O60: the encoder goes through the IEs that encode and stops at the first that does not. -/
theorem encodeReportsFirstError : Obligations.EncodeReportsFirstError := by
  refine ⟨fun s before after ty v depth off b hb => ?_, fun s ty children depth o e hkind hdepth herr => ?_,
    fun s m hrun => ⟨fun e herr => ?_, fun hencodable hlong => ?_⟩⟩
  · have hstop : ∀ e, encodeIEList s.cfg s.registry (.cons ty v after) depth (off + b.length) = .error e →
        exec (.encodeIEList (before.append (.cons ty v after)) depth off) s = .next (raiseEncode e s) := fun e herr => by
      refine exec_encodeIEList_of_error ?_
      rw [encodeIEList_append _ _ _ _ _ _ _ hb, herr]
      rfl
    exact ⟨fun e herr => ⟨_, hstop e (encodeIEList_cons_of_value_error herr after), rfl, rfl, rfl, rfl, rfl, rfl⟩,
      fun vb hvb hlong => ⟨_, hstop _ (encodeIEList_cons_of_long hvb hlong after), rfl, rfl, rfl, rfl, rfl, rfl⟩⟩
  · exact ⟨_, exec_encodeValue_of_error ((encodeValueAt_grouped hkind hdepth o).trans herr), rfl, rfl⟩
  · exact ⟨_, exec_encode_of_error hrun (encodeMessage_of_list_error herr), rfl, rfl, rfl, rfl, rfl, rfl⟩
  · obtain ⟨body, hbody⟩ := (exists_encodeIEList_iff s.cfg s.registry m.ies 0 (headerSize m.hdr)).mpr hencodable
    rw [msgLength, ← encodeIEList_length _ _ _ _ _ body hbody] at hlong
    exact ⟨_, exec_encode_of_error hrun (encodeMessage_of_long hbody hlong), rfl, rfl, rfl, rfl, rfl, rfl⟩

end Sys2Proof.Machine
end
